-- ==== Sys2Proof/Word.lean ====
section
/-! DEFINITION. The block's only word type: the byte (20_memory.md rules R56 and R58). -/

namespace Sys2Proof

/-- 8 bits, an unsigned integer 0 to 255 (00_scope.md rule R6). -/
abbrev Byte := BitVec 8

end Sys2Proof
end

