-- ==== Sys2Proof/Config.lean ====
section
/-! DEFINITION. The static parameters of the block (00_scope.md rule R5, 70_reset_and_hazards.md rule R305) as
plain data, and the values the spec leaves to nobody: opaque constants, applied to a counter of State. -/

namespace Sys2Proof

/-- The two halves (00_scope.md rule R10). As the operand `b` of rule R101 it names the buffer of a half:
`tx` is `TXB` (bit 0), `rx` is `RXB` (bit 1). -/
inductive Half where
  | tx
  | rx
deriving DecidableEq, Repr, Inhabited

/-- `RES.val` (10_state.md rule R30): a number, or the pair of lengths that `RB.SLICES` returns. -/
inductive ResVal where
  | num  (n : Nat)
  | pair (first second : Nat)
deriving DecidableEq, Repr, Inhabited

/-- `CRC_PARAMS` (rules R5 and R171). The width 16 is the type's. What the fields mean in a record other than that of rule
R171 is the model's choice (Crc.lean; DESIGN CHOICE, log entry 26). -/
structure CrcParams where
  poly   : BitVec 16
  init   : BitVec 16
  refin  : Bool
  refout : Bool
  xorout : BitVec 16
deriving DecidableEq, Repr

/-- The width of a register value in write requests, `REGW` (44_register_packers.md rule R211). -/
inductive RegWidth where
  | w8
  | w32
deriving DecidableEq, Repr

/-- The supported sample formats: one word of 8, 16 or 32 bits per sample (rules R86 and R246). Every other
descriptor is unsupported, so no other format is expressible. -/
inductive SampleWidth where
  | w8
  | w16
  | w32
deriving DecidableEq, Repr

/-- The static function `stream_format` as plain data (log entry 21): the default bit layout of rule R246, or a
table of the supported command bytes. -/
inductive StreamFormat where
  | layout
  | table (rows : List (Byte × SampleWidth))
deriving DecidableEq, Repr

/-- What rule R305 and decision D26 ask of `stream_format`: `0x85` gives 8-bit words, the three widths are
expressible, and only stream commands are listed, each once. The default layout meets it (rule R86). -/
def StreamFormat.admissible : StreamFormat → Bool
  | .layout     => true
  | .table rows =>
    rows.lookup 0x85 == some SampleWidth.w8
      && rows.any (fun r => r.2 == SampleWidth.w16)
      && rows.any (fun r => r.2 == SampleWidth.w32)
      && rows.all (fun r => r.1.msb && rows.lookup r.1 == some r.2)

/-- The parameters of rule R5 that are static. `T_WAIT` is counted in the unit of State's `elapsed`. -/
structure Params where
  capTx        : Nat
  capRx        : Nat
  crc          : CrcParams
  regW         : RegWidth
  version      : Byte
  ackLengths   : List Nat
  streamFormat : StreamFormat
  qDepth       : Option Nat      -- none: unbounded, the default (decision D28)
  tWait        : Nat
  waitRestarts : Bool
deriving DecidableEq, Repr

/-- The constraints of rule R305 and of the last table of 92_eei_decisions.md. -/
def Params.admissible (p : Params) : Bool :=
  decide (3 ≤ p.capTx) && decide (p.capTx ≤ 256)
    && decide (3 ≤ p.capRx) && decide (p.capRx ≤ 256)
    && p.ackLengths.all (fun k => decide (2 ≤ k))
    && p.streamFormat.admissible
    && p.qDepth.all (fun d => decide (1 ≤ d))
    && decide (1 ≤ p.tWait)

/-- A configuration is a record of parameters that meets its constraints: with others "no such block exists"
(93_implementation_defined.md U14). -/
structure Config extends Params where
  admissible : toParams.admissible = true
deriving DecidableEq, Repr

/-- CRC-16/DNP, the value rule R171 takes from general knowledge (log entry 6: PRESUMED). -/
def CrcParams.dnp : CrcParams :=
  { poly := 0x3D65, init := 0x0000, refin := true, refout := true, xorout := 0xFFFF }

/-- The configuration of State.reset (log entry 5: DESIGN CHOICE where the spec gives no default). -/
def Config.default : Config where
  capTx        := 16
  capRx        := 16
  crc          := CrcParams.dnp
  regW         := .w8
  version      := 0x01
  ackLengths   := [2, 3, 6]
  streamFormat := .layout
  qDepth       := none
  tWait        := 1
  waitRestarts := false
  admissible   := by decide

/-- FREE VALUE (log entry 8): the head draw of rule R23 when the environment has supplied none. It is used
reduced modulo the capacity. -/
opaque Config.freeHead : Half → Nat → Nat

/-- FREE VALUE (log entry 7): `RES.val` after a failure (rule R260 step 3). -/
opaque Config.freeResVal : Half → Nat → ResVal

end Sys2Proof
end

