-- ==== Sys2Proof/Syntax.lean ====
section
/-! DEFINITION. The instructions: one constructor per row of spec/opcode_table.json. Format `OP`: the operations of
30_encoding.md rule R100 with the operands of rule R101. Format `CMD`: the command-byte rows of rule R90, whose
operand is what the row leaves open of the byte. -/

namespace Sys2Proof

/-- The two instruction formats of the opcode table (rule R80). -/
inductive Format where
  | op
  | cmd
deriving DecidableEq, Repr

inductive Instr where
  -- ring buffer, rules R120 to R133
  | rbPushBack  (b : Half) (v : Byte)
  | rbPushFront (b : Half) (v : Byte)
  | rbPopFront  (b : Half)
  | rbPopBack   (b : Half)
  | rbGet       (b : Half) (i : Nat)
  | rbSet       (b : Half) (i : Nat) (v : Byte)
  | rbLen       (b : Half)
  | rbCap       (b : Half)
  | rbIsFull    (b : Half)
  | rbClear     (b : Half)
  | rbSlices    (b : Half)
  | rbExtend    (b : Half)
  | rbDrain     (b : Half)
  -- COBS, rules R152 and R155
  | cobsEnc     (b : Half)
  | cobsDec     (b : Half)
  -- checksum engine, rule R174
  | crcCalc     (b : Half) (n : Nat)
  -- frame codec, rules R190 and R195
  | frmSend     (hasVersion hasCrc : Bool) (version command : Byte) (data : List Byte)
  | frmRecv     (hasVersion hasCrc : Bool) (dstCap : Nat)
  -- packers and unpackers, rules R212 to R217
  | pkReadReq   (reg : BitVec 16) (dstCap : Nat)
  | pkWrite8    (reg : BitVec 16) (v8 : Byte) (dstCap : Nat)
  | pkWrite32   (reg : BitVec 16) (v32 : BitVec 32) (dstCap : Nat)
  | unpkReadReq (p : List Byte)
  | unpkRegval  (p : List Byte)
  | unpkAck     (p : List Byte)
  -- classification, router, queues, stream functions, rules R230 to R248
  | hpClassify  (cmd : Byte)
  | rtRoute
  | rtClose
  | qPop        (q : BitVec 2)
  | stFormat    (cmd : Byte)
  | stUnpack    (cmd : Byte) (p : List Byte)
  -- format CMD, rule R90
  | cmdInvalid0
  | cmdRegisterRead
  | cmdRegisterWrite
  | cmdReserved03
  | cmdReserved04_07 (low : BitVec 2)
  | cmdReserved08_0F (low : BitVec 3)
  | cmdReserved10_1F (low : BitVec 4)
  | cmdReserved20_3F (low : BitVec 5)
  | cmdReserved40_7F (low : BitVec 6)
  | cmdStream        (descriptor : BitVec 7)
deriving DecidableEq, Repr

/-- Which of the table's two formats an instruction belongs to. -/
def Instr.format : Instr → Format
  | .cmdInvalid0 | .cmdRegisterRead | .cmdRegisterWrite | .cmdReserved03 => .cmd
  | .cmdReserved04_07 _ | .cmdReserved08_0F _ | .cmdReserved10_1F _ => .cmd
  | .cmdReserved20_3F _ | .cmdReserved40_7F _ | .cmdStream _ => .cmd
  | .rbPushBack _ _ | .rbPushFront _ _ | .rbPopFront _ | .rbPopBack _ => .op
  | .rbGet _ _ | .rbSet _ _ _ | .rbLen _ | .rbCap _ | .rbIsFull _ => .op
  | .rbClear _ | .rbSlices _ | .rbExtend _ | .rbDrain _ => .op
  | .cobsEnc _ | .cobsDec _ | .crcCalc _ _ => .op
  | .frmSend _ _ _ _ _ | .frmRecv _ _ _ => .op
  | .pkReadReq _ _ | .pkWrite8 _ _ _ | .pkWrite32 _ _ _ => .op
  | .unpkReadReq _ | .unpkRegval _ | .unpkAck _ => .op
  | .hpClassify _ | .rtRoute | .rtClose | .qPop _ | .stFormat _ | .stUnpack _ _ => .op

/-- The half an operation belongs to (the column "half" of rule R100); `none` for a pure operation and for
`Q.POP`, which is the consumers'. A command is executed by the router, so by the receive half. -/
def Instr.half : Instr → Option Half
  | .rbPushBack b _ | .rbPushFront b _ | .rbPopFront b | .rbPopBack b => some b
  | .rbGet b _ | .rbSet b _ _ | .rbLen b | .rbCap b | .rbIsFull b => some b
  | .rbClear b | .rbSlices b | .rbExtend b | .rbDrain b => some b
  | .cobsEnc b | .cobsDec b | .crcCalc b _ => some b
  | .frmSend _ _ _ _ _ => some .tx
  | .frmRecv _ _ _ => some .rx
  | .pkReadReq _ _ | .pkWrite8 _ _ _ | .pkWrite32 _ _ _ => none
  | .unpkReadReq _ | .unpkRegval _ | .unpkAck _ => none
  | .hpClassify _ | .stFormat _ | .stUnpack _ _ => none
  | .qPop _ => none
  | .rtRoute | .rtClose => some .rx
  | .cmdInvalid0 | .cmdRegisterRead | .cmdRegisterWrite | .cmdReserved03 => some .rx
  | .cmdReserved04_07 _ | .cmdReserved08_0F _ | .cmdReserved10_1F _ => some .rx
  | .cmdReserved20_3F _ | .cmdReserved40_7F _ | .cmdStream _ => some .rx

end Sys2Proof
end

