-- ==== Sys2Proof/WellFormed.lean ====
section
/-! DEFINITION. The operand widths of 30_encoding.md rule R101 that the types of Syntax.lean do not already give: the
naturals `i`, `n`, `dst_cap` are 0..255 and the byte sequences `data`, `p` have 0..255 bytes. -/

namespace Sys2Proof

/-- The operand fits the widths of rule R101: "an operand outside its width cannot be expressed". -/
def Instr.wellFormed : Instr → Bool
  | .rbGet _ i             => decide (i ≤ 255)
  | .rbSet _ i _           => decide (i ≤ 255)
  | .crcCalc _ n           => decide (n ≤ 255)
  | .frmSend _ _ _ _ data  => decide (data.length ≤ 255)
  | .frmRecv _ _ dstCap    => decide (dstCap ≤ 255)
  | .pkReadReq _ dstCap    => decide (dstCap ≤ 255)
  | .pkWrite8 _ _ dstCap   => decide (dstCap ≤ 255)
  | .pkWrite32 _ _ dstCap  => decide (dstCap ≤ 255)
  | .unpkReadReq p         => decide (p.length ≤ 255)
  | .unpkRegval p          => decide (p.length ≤ 255)
  | .unpkAck p             => decide (p.length ≤ 255)
  | .stUnpack _ p          => decide (p.length ≤ 255)
  | .rbPushBack _ _ | .rbPushFront _ _ | .rbPopFront _ | .rbPopBack _ => true
  | .rbLen _ | .rbCap _ | .rbIsFull _ | .rbClear _ | .rbSlices _ => true
  | .rbExtend _ | .rbDrain _ | .cobsEnc _ | .cobsDec _ => true
  | .hpClassify _ | .rtRoute | .rtClose | .qPop _ | .stFormat _ => true
  | .cmdInvalid0 | .cmdRegisterRead | .cmdRegisterWrite | .cmdReserved03 => true
  | .cmdReserved04_07 _ | .cmdReserved08_0F _ | .cmdReserved10_1F _ => true
  | .cmdReserved20_3F _ | .cmdReserved40_7F _ | .cmdStream _ => true

end Sys2Proof
end

