-- ==== Sys2Proof/Decode.lean ====
section
/-! DEFINITION. The decoder of the two formats, total on any bytes and rejecting by name, and after it the encoder. The
selectors are those of 30_encoding.md rule R100, the order and the widths of the operands those of rules R100, R101 and
R105; the spec packs operands into no bits, so the byte layout is log entry 2 (DESIGN CHOICE): selector first, then each
operand in whole bytes, most significant byte first; `b`, `has_version`, `has_crc` and `q` one byte whose other bits are
0; a byte sequence after one byte that holds its length. The command bytes are those of rule R90. -/

namespace Sys2Proof

/-- Why a byte string is no instruction. -/
inductive DecodeError where
  /-- no byte at all -/
  | emptyRequest
  /-- the selector is none of rule R100 -/
  | unknownSelector (selector : Byte)
  /-- the bytes end before the operands do -/
  | missingOperand
  /-- an operand byte outside the operand's width (rule R101) -/
  | operandTooWide (byte : Byte)
  /-- bytes are left after the last operand -/
  | trailingBytes
  /-- format CMD is exactly one byte (rule R90) -/
  | notOneCommandByte
deriving DecidableEq, Repr

/-- What a decoding step gives: a value and the bytes after it. -/
abbrev Decoded (α : Type) := Except DecodeError (α × List Byte)

def takeByte : List Byte → Decoded Byte
  | []      => .error .missingOperand
  | x :: xs => .ok (x, xs)

/-- Operand `b`: 1 bit, `TX` = 0, `RX` = 1. -/
def takeHalf : List Byte → Decoded Half
  | []      => .error .missingOperand
  | x :: xs => if x = 0 then .ok (.tx, xs) else if x = 1 then .ok (.rx, xs) else .error (.operandTooWide x)

/-- Operands `has_version`, `has_crc`: 1 bit. -/
def takeBit : List Byte → Decoded Bool
  | []      => .error .missingOperand
  | x :: xs => if x = 0 then .ok (false, xs) else if x = 1 then .ok (true, xs) else .error (.operandTooWide x)

/-- Operand `q`: 2 bits. -/
def takeQueue : List Byte → Decoded (BitVec 2)
  | []      => .error .missingOperand
  | x :: xs => if x.toNat < 4 then .ok (BitVec.ofNat 2 x.toNat, xs) else .error (.operandTooWide x)

/-- Operands `i`, `n`, `dst_cap`: naturals 0 to 255. -/
def takeNat : List Byte → Decoded Nat
  | []      => .error .missingOperand
  | x :: xs => .ok (x.toNat, xs)

/-- Operand `reg`: 16 bits. -/
def takeReg : List Byte → Decoded (BitVec 16)
  | x₁ :: x₀ :: xs => .ok (x₁ ++ x₀, xs)
  | [] | [_]       => .error .missingOperand

/-- Operand `v32`: 32 bits. -/
def takeV32 : List Byte → Decoded (BitVec 32)
  | x₃ :: x₂ :: x₁ :: x₀ :: xs     => .ok (((x₃ ++ x₂ : BitVec 16) ++ (x₁ ++ x₀ : BitVec 16)), xs)
  | [] | [_] | [_, _] | [_, _, _]  => .error .missingOperand

/-- Operands `data`, `p`: a length byte, then that many bytes. -/
def takeSeq : List Byte → Decoded (List Byte)
  | []      => .error .missingOperand
  | k :: xs => if k.toNat ≤ xs.length then .ok (xs.take k.toNat, xs.drop k.toNat) else .error .missingOperand

/-- One operand, then what follows it. -/
def operand {α β : Type} (take : List Byte → Decoded α) (next : α → List Byte → Decoded β) (xs : List Byte) :
    Decoded β :=
  match take xs with
  | .ok (x, rest) => next x rest
  | .error e      => .error e

/-- All operands are read. -/
def complete (i : Instr) (xs : List Byte) : Decoded Instr := .ok (i, xs)

/-- An operation whose only operand is the buffer `b`. -/
def onlyHalf (op : Half → Instr) : List Byte → Decoded Instr :=
  operand takeHalf (fun b => complete (op b))

/-- An operation whose only operand is a byte sequence `p`. -/
def onlySeq (op : List Byte → Instr) : List Byte → Decoded Instr :=
  operand takeSeq (fun p => complete (op p))

/-- The operands of the selector `sel`, in the order of rule R100, and the bytes after them. -/
def decodeOperands (sel : Byte) : List Byte → Decoded Instr :=
  match sel.toNat with
  | 0x10 => operand takeHalf fun b => operand takeByte fun v => complete (.rbPushBack b v)
  | 0x11 => operand takeHalf fun b => operand takeByte fun v => complete (.rbPushFront b v)
  | 0x12 => onlyHalf .rbPopFront
  | 0x13 => onlyHalf .rbPopBack
  | 0x14 => operand takeHalf fun b => operand takeNat fun i => complete (.rbGet b i)
  | 0x15 => operand takeHalf fun b => operand takeNat fun i => operand takeByte fun v => complete (.rbSet b i v)
  | 0x16 => onlyHalf .rbLen
  | 0x17 => onlyHalf .rbCap
  | 0x18 => onlyHalf .rbIsFull
  | 0x19 => onlyHalf .rbClear
  | 0x1A => onlyHalf .rbSlices
  | 0x1B => onlyHalf .rbExtend
  | 0x1C => onlyHalf .rbDrain
  | 0x20 => onlyHalf .cobsEnc
  | 0x21 => onlyHalf .cobsDec
  | 0x30 => operand takeHalf fun b => operand takeNat fun n => complete (.crcCalc b n)
  | 0x40 =>
    operand takeBit fun hv => operand takeBit fun hc => operand takeByte fun version =>
    operand takeByte fun command => operand takeSeq fun data => complete (.frmSend hv hc version command data)
  | 0x41 =>
    operand takeBit fun hv => operand takeBit fun hc => operand takeNat fun dstCap =>
    complete (.frmRecv hv hc dstCap)
  | 0x50 => operand takeReg fun reg => operand takeNat fun dstCap => complete (.pkReadReq reg dstCap)
  | 0x51 =>
    operand takeReg fun reg => operand takeByte fun v8 => operand takeNat fun dstCap =>
    complete (.pkWrite8 reg v8 dstCap)
  | 0x52 =>
    operand takeReg fun reg => operand takeV32 fun v32 => operand takeNat fun dstCap =>
    complete (.pkWrite32 reg v32 dstCap)
  | 0x53 => onlySeq .unpkReadReq
  | 0x54 => onlySeq .unpkRegval
  | 0x55 => onlySeq .unpkAck
  | 0x60 => operand takeByte fun cmd => complete (.hpClassify cmd)
  | 0x61 => complete .rtRoute
  | 0x62 => complete .rtClose
  | 0x63 => operand takeQueue fun q => complete (.qPop q)
  | 0x64 => operand takeByte fun cmd => complete (.stFormat cmd)
  | 0x65 => operand takeByte fun cmd => operand takeSeq fun p => complete (.stUnpack cmd p)
  | _    => fun _ => .error (.unknownSelector sel)

/-- The operation at the front of a byte string (format OP), and the bytes after it. -/
def decodeFront : List Byte → Decoded Instr
  | []        => .error .emptyRequest
  | sel :: xs => decodeOperands sel xs

/-- The command a byte stands for: the ten disjoint match and mask rows of rule R90. -/
def decodeCommand (c : Byte) : Instr :=
  if c = 0x00 then .cmdInvalid0
  else if c = 0x01 then .cmdRegisterRead
  else if c = 0x02 then .cmdRegisterWrite
  else if c = 0x03 then .cmdReserved03
  else if c &&& 0xFC = 0x04 then .cmdReserved04_07 (c.extractLsb' 0 2)
  else if c &&& 0xF8 = 0x08 then .cmdReserved08_0F (c.extractLsb' 0 3)
  else if c &&& 0xF0 = 0x10 then .cmdReserved10_1F (c.extractLsb' 0 4)
  else if c &&& 0xE0 = 0x20 then .cmdReserved20_3F (c.extractLsb' 0 5)
  else if c &&& 0xC0 = 0x40 then .cmdReserved40_7F (c.extractLsb' 0 6)
  else .cmdStream (c.extractLsb' 0 7)

/-- The whole decoder: a byte string in one of the two formats is exactly one instruction or is rejected by name. -/
def decode : Format → List Byte → Except DecodeError Instr
  | .op, bs =>
    match decodeFront bs with
    | .ok (i, [])     => .ok i
    | .ok (_, _ :: _) => .error .trailingBytes
    | .error e        => .error e
  | .cmd, [c]         => .ok (decodeCommand c)
  | .cmd, _           => .error .notOneCommandByte

/-- The operand `b` of a request that is no operation, where the request has one (60_exceptions.md rule R271): its first
operand byte, when that is 0 or 1 and the selector is unknown or takes `b` (which in rule R100 is every selector below
`0x40`, with `b` first). That an unknown selector's operand stands there is log entry 12 (DESIGN CHOICE). -/
def operandB : List Byte → Option Half
  | []        => none
  | sel :: xs =>
    match takeHalf xs, decodeOperands sel xs with
    | .ok (b, _), .error (.unknownSelector _) => some b
    | .ok (b, _), _                           => if sel.toNat < 0x40 then some b else none
    | .error _, _                             => none

/-! The encoder, from the same tables. -/

def encodeHalf : Half → Byte
  | .tx => 0
  | .rx => 1

def encodeBit (x : Bool) : Byte := if x then 1 else 0

/-- 16 bits, most significant byte first (rule R53). -/
def encodeReg (reg : BitVec 16) : List Byte := [reg.extractLsb' 8 8, reg.extractLsb' 0 8]

/-- 32 bits, most significant byte first. -/
def encodeV32 (v : BitVec 32) : List Byte :=
  [v.extractLsb' 24 8, v.extractLsb' 16 8, v.extractLsb' 8 8, v.extractLsb' 0 8]

def encodeNat (n : Nat) : Byte := BitVec.ofNat 8 n

def encodeSeq (p : List Byte) : List Byte := encodeNat p.length :: p

/-- The bytes of an instruction in its format: selector and operands, or the command byte. -/
def encode : Instr → List Byte
  | .rbPushBack b v        => [0x10, encodeHalf b, v]
  | .rbPushFront b v       => [0x11, encodeHalf b, v]
  | .rbPopFront b          => [0x12, encodeHalf b]
  | .rbPopBack b           => [0x13, encodeHalf b]
  | .rbGet b i             => [0x14, encodeHalf b, encodeNat i]
  | .rbSet b i v           => [0x15, encodeHalf b, encodeNat i, v]
  | .rbLen b               => [0x16, encodeHalf b]
  | .rbCap b               => [0x17, encodeHalf b]
  | .rbIsFull b            => [0x18, encodeHalf b]
  | .rbClear b             => [0x19, encodeHalf b]
  | .rbSlices b            => [0x1A, encodeHalf b]
  | .rbExtend b            => [0x1B, encodeHalf b]
  | .rbDrain b             => [0x1C, encodeHalf b]
  | .cobsEnc b             => [0x20, encodeHalf b]
  | .cobsDec b             => [0x21, encodeHalf b]
  | .crcCalc b n           => [0x30, encodeHalf b, encodeNat n]
  | .frmSend hv hc version command data =>
    0x40 :: encodeBit hv :: encodeBit hc :: version :: command :: encodeSeq data
  | .frmRecv hv hc dstCap  => [0x41, encodeBit hv, encodeBit hc, encodeNat dstCap]
  | .pkReadReq reg dstCap  => 0x50 :: (encodeReg reg ++ [encodeNat dstCap])
  | .pkWrite8 reg v8 dstCap   => 0x51 :: (encodeReg reg ++ [v8, encodeNat dstCap])
  | .pkWrite32 reg v32 dstCap => 0x52 :: (encodeReg reg ++ encodeV32 v32 ++ [encodeNat dstCap])
  | .unpkReadReq p         => 0x53 :: encodeSeq p
  | .unpkRegval p          => 0x54 :: encodeSeq p
  | .unpkAck p             => 0x55 :: encodeSeq p
  | .hpClassify cmd        => [0x60, cmd]
  | .rtRoute               => [0x61]
  | .rtClose               => [0x62]
  | .qPop q                => [0x63, encodeNat q.toNat]
  | .stFormat cmd          => [0x64, cmd]
  | .stUnpack cmd p        => 0x65 :: cmd :: encodeSeq p
  | .cmdInvalid0           => [0x00]
  | .cmdRegisterRead       => [0x01]
  | .cmdRegisterWrite      => [0x02]
  | .cmdReserved03         => [0x03]
  | .cmdReserved04_07 low  => [0x04 ||| low.setWidth 8]
  | .cmdReserved08_0F low  => [0x08 ||| low.setWidth 8]
  | .cmdReserved10_1F low  => [0x10 ||| low.setWidth 8]
  | .cmdReserved20_3F low  => [0x20 ||| low.setWidth 8]
  | .cmdReserved40_7F low  => [0x40 ||| low.setWidth 8]
  | .cmdStream descriptor  => [0x80 ||| descriptor.setWidth 8]

/-! Words numbered as spec/opcode_table.json numbers them. -/

/-- The longest request: `FRM.SEND` with 255 payload bytes. -/
def longestRequest : Nat := 261

/-- The bytes of a table word of `nbits` bits, the first byte in bits 7..0, with zero bytes after them up to the
longest request. -/
def tableBytes (nbits w : Nat) : List Byte :=
  (List.range ((nbits + 7) / 8)).map (fun k => BitVec.ofNat 8 (w >>> (8 * k)))
    ++ List.replicate longestRequest 0

/-- How a table word is read (log entry 3). The two formats share the 8-bit words: a word whose first byte is a
selector of rule R100 is an operation, any other single byte is a command byte of rule R90. -/
inductive TableWord where
  | operation (i : Instr) (request : List Byte)
  | command   (c : Byte)
  | neither   (request : List Byte)
deriving DecidableEq, Repr

def readTableWord (nbits w : Nat) : TableWord :=
  let bs := tableBytes nbits w
  match decodeFront bs with
  | .ok (i, rest) => .operation i (bs.take (bs.length - rest.length))
  | .error (.unknownSelector c) => if nbits ≤ 8 then .command c else .neither bs
  | .error _ => .neither bs

/-- The instruction the decoder reads from a table word. -/
def decodeTableWord (nbits w : Nat) : Option Instr :=
  match readTableWord nbits w with
  | .operation i _ => some i
  | .command c     => some (decodeCommand c)
  | .neither _     => none

end Sys2Proof
end

