-- ==== Sys2Proof/Machine/State.lean ====
section
/-! DEFINITION. The state of the block (spec/10_state.md), the state of its environment that a deterministic step needs
(log entries 1, 8, 13, 14, 17, 24, 25), and the state after reset. Plain data throughout. -/

namespace Sys2Proof.Machine

/-- The reasons the machine stops with a fault: there is none. "The block has no traps" (60_exceptions.md rules R260
and R276): everything exceptional is a failure, a value of `Status` in a next state. -/
inductive Fault
deriving DecidableEq, Repr

/-- The reasons the machine refuses an instruction. -/
inductive Refusal where
  /-- Raised by an arm of Dispatch.lean whose instruction has no meaning yet; no arm raises it. Safe. -/
  | notModelled (mnemonic : String)
deriving DecidableEq, Repr

/-- The failure codes of rule R261; a status register holds one of exactly these 20 values. -/
inductive Status where
  | ok | payloadTooLarge | destTooSmall | cobsEmpty | cobsOverflow | tooShort | noTerminator | emptyFrame
  | frameTooShort | noSuchElement | checksumMismatch | unexpectedCommand | malformedPayload | unsupportedFormat
  | transportFailure | closed | empty | nothingToRoute | badOperation | timeout
deriving DecidableEq, Repr, Inhabited

/-- The classes of the command byte (rules R90 and R230). -/
inductive CmdClass where
  | invalid0 | registerRead | registerWrite | reserved | stream
deriving DecidableEq, Repr

/-- Storage of bytes by physical index: the listed bytes, addresses strictly rising, none equal to what an unlisted
address reads as (Ops.lean: `Memory.wf`). -/
abbrev Memory := List Host.Cell

/-- A ring buffer (rule R20): storage `S`, `head`, `len`. The capacity is a static parameter and no state. -/
structure Ring where
  mem  : Memory
  head : Nat
  len  : Nat
deriving DecidableEq, Repr

/-- A result register (rule R30). -/
structure Res where
  status : Status
  val    : ResVal
deriving DecidableEq, Repr

/-- The values that pure operations and `Q.POP` return to their issuer (rules R212 to R248). -/
inductive RetVal where
  | bytes   (p : List Byte)
  | reg     (r : BitVec 16)
  | regVal  (r : BitVec 16) (value : BitVec 32)
  | cls     (c : CmdClass)
  | format  (wordBits wordsPerSample : Nat)
  | samples (xs : List Nat)
  | command (c : Byte) (payload : List Byte)
deriving DecidableEq, Repr

/-- What an operation that writes no result register returns to its issuer: a status and, on `OK`, a value (rule R260
step 2, log entry 13). -/
structure Reply where
  status : Status
  val    : Option RetVal
deriving DecidableEq, Repr

/-- One record of `DIAG` (rule R41): a failure code and, optionally, the command byte. -/
structure DiagRecord where
  code    : Status
  command : Option Byte
deriving DecidableEq, Repr

/-- What one transport read delivers (rule R40): one or more bytes, or a failure. -/
inductive ReadOutcome where
  | bytes (first : Byte) (rest : List Byte)
  | failed
deriving DecidableEq, Repr

/-- How one transport write ends (rules R40 and R133): completed, or failed after some bytes were taken. -/
inductive WriteOutcome where
  | completed
  | failed (taken : Nat)
deriving DecidableEq, Repr

/-- A register call of the client (rules R286 and R287): what it waits for. -/
inductive Call where
  | write (reg : BitVec 16)
  | read  (reg : BitVec 16)
deriving DecidableEq, Repr

/-- What an agent of the environment does next (log entries 1, 16, 17, 25): issue one operation request, go through the
lines of the pseudo-operation `RX.SERVICE` (rule R250), through those of `write_reg` and `read_reg` (rules R286, R287),
or through the loop of the stream consumer (rule R292). -/
inductive Activity where
  | request      (bytes : List Byte)
  | rxService    (hasVersion hasCrc : Bool) (dstCap : Nat)
  | serviceClose
  | serviceFail
  | serviceRecv  (hasVersion hasCrc : Bool) (dstCap : Nat)
  | serviceRoute
  | writeReg     (hasCrc : Bool) (reg : BitVec 16) (value : BitVec 32)
  | readReg      (hasCrc : Bool) (reg : BitVec 16)
  | callSend     (hasCrc : Bool) (call : Call) (payload : List Byte)
  | callDrain    (call : Call)
  | callWait     (call : Call) (waited : Nat)
  | streamPop
  | streamUnpack (cmd : Byte) (p : List Byte)
deriving DecidableEq, Repr

/-- The agents of the environment (rules R10 and R293). -/
inductive Agent where
  | client
  | receiver
  | consumer
deriving DecidableEq, Repr

/-- What happens next: an agent moves, or reset (rule R300). -/
inductive Turn where
  | move (a : Agent)
  | reset
deriving DecidableEq, Repr

structure State where
  -- static parameters (00_scope.md rule R5): no step writes them
  cfg         : Config
  -- transmit half
  txb         : Ring
  resTx       : Res
  -- receive half
  rxb         : Ring
  resRx       : Res
  outVersion  : Byte
  outCommand  : Byte
  outLen      : Nat
  outData     : Memory
  outValid    : Bool
  rdq         : List (BitVec 16 × BitVec 32)   -- head first
  waq         : List (BitVec 16)
  stq         : List (Byte × List Byte)
  rxClosed    : Bool
  diag        : List DiagRecord                -- oldest first
  -- ports
  rxReads     : List ReadOutcome               -- still to be delivered, next first
  txWrites    : List WriteOutcome              -- next first
  txStream    : List Byte                      -- written so far, oldest first
  replies     : List Reply                     -- returned so far, oldest first
  -- environment
  client      : List Activity                  -- still to be done, next first
  receiver    : List Activity
  consumer    : List Activity
  turns       : List Turn                      -- next first
  elapsed     : List Nat                       -- durations of the waits to come, next first
  callResults : List Reply                     -- of write_reg and read_reg, oldest first
  -- draws and free values
  drawsTx     : List Nat                       -- head draws the environment has made, next first
  drawsRx     : List Nat
  freeTx      : Nat                            -- free values used so far by each half
  freeRx      : Nat
deriving DecidableEq, Repr

/-- An empty ring buffer with its content starting at `head` (rule R48). -/
def Ring.fresh (head : Nat) : Ring := { mem := [], head := head, len := 0 }

/-- The value a result register is given where the spec says it has none (log entry 9: DESIGN CHOICE). -/
def Res.unwritten : Res := { status := .ok, val := .num 0 }

/-- The block after reset, for any configuration and any two head draws, in an environment in which nothing has
happened (rule R48). The registers without a reset value in the spec are those of log entry 9. -/
def State.resetWith (cfg : Config) (headTx headRx : Nat) : State where
  cfg         := cfg
  txb         := Ring.fresh (headTx % cfg.capTx)
  resTx       := Res.unwritten
  rxb         := Ring.fresh (headRx % cfg.capRx)
  resRx       := Res.unwritten
  outVersion  := 0
  outCommand  := 0
  outLen      := 0
  outData     := []
  outValid    := false
  rdq         := []
  waq         := []
  stq         := []
  rxClosed    := false
  diag        := []
  rxReads     := []
  txWrites    := []
  txStream    := []
  replies     := []
  client      := []
  receiver    := []
  consumer    := []
  turns       := []
  elapsed     := []
  callResults := []
  drawsTx     := []
  drawsRx     := []
  freeTx      := 0
  freeRx      := 0

/-- The machine right after reset: the default configuration, both heads at 0 (log entries 5 and 9). -/
def State.reset : State := State.resetWith Config.default 0 0

/-- What one operation answers. -/
abbrev Result := Host.Outcome State Fault Refusal

end Sys2Proof.Machine
end

