-- ==== Sys2Proof/Machine/Operands.lean ====
section
/-! DEFINITION. The operand forms: the buffer operand `b`, the bytes of a multi-byte field (30_encoding.md rule R85), the
frame variant (00_scope.md rule R5), the queue operand `q`. -/

namespace Sys2Proof.Machine

/-! The buffer operand `b` names a half, its buffer, its capacity and its result register (10_state.md rules R20, R24,
R30). -/

def State.ring (s : State) : Half → Ring
  | .tx => s.txb
  | .rx => s.rxb

def State.cap (s : State) : Half → Nat
  | .tx => s.cfg.capTx
  | .rx => s.cfg.capRx

def State.res (s : State) : Half → Res
  | .tx => s.resTx
  | .rx => s.resRx

def State.setRing (s : State) : Half → Ring → State
  | .tx, r => { s with txb := r }
  | .rx, r => { s with rxb := r }

def State.setRes (s : State) : Half → Res → State
  | .tx, x => { s with resTx := x }
  | .rx, x => { s with resRx := x }

/-! Multi-byte fields, most significant byte first (rules R53 and R85). -/

/-- `v[15:8]`. -/
def hiByte (v : BitVec 16) : Byte := v.extractLsb' 8 8

/-- `v[7:0]`. -/
def loByte (v : BitVec 16) : Byte := v.extractLsb' 0 8

/-- The bytes of a 16-bit number. -/
def bytes16 (v : BitVec 16) : List Byte := [hiByte v, loByte v]

/-- The bytes of a 32-bit number. -/
def bytes32 (v : BitVec 32) : List Byte :=
  [v.extractLsb' 24 8, v.extractLsb' 16 8, v.extractLsb' 8 8, v.extractLsb' 0 8]

/-- The number that a byte sequence of any length writes: the sum over `k` of `p[k] * 256^(w-1-k)`. -/
def bigEndian (p : List Byte) : Nat := p.foldl (fun acc x => acc * 256 + x.toNat) 0

/-- The register number in the first two bytes of a payload. -/
def regOf (p : List Byte) : BitVec 16 := BitVec.ofNat 16 (bigEndian (p.take 2))

/-! The frame variant: `HDR`, `CRCLEN`, and their sum with the two bytes COBS adds, `FRAME_OVERHEAD` = `MIN_FRAME`. -/

def hdr (hasVersion : Bool) : Nat := if hasVersion then 2 else 1

def crcLen (hasCrc : Bool) : Nat := if hasCrc then 2 else 0

def frameOverhead (hasVersion hasCrc : Bool) : Nat := hdr hasVersion + crcLen hasCrc + 2

/-! The queue operand `q` of `Q.POP`: 2 bits, value 3 names no queue (rule R101). -/

inductive Queue where
  | rdq
  | waq
  | stq
deriving DecidableEq, Repr

def queueOf (q : BitVec 2) : Option Queue :=
  if q = 0 then some .rdq else if q = 1 then some .waq else if q = 2 then some .stq else none

/-- What an agent has still to do. -/
def State.agenda (s : State) : Agent → List Activity
  | .client   => s.client
  | .receiver => s.receiver
  | .consumer => s.consumer

def State.setAgenda (s : State) : Agent → List Activity → State
  | .client, l   => { s with client := l }
  | .receiver, l => { s with receiver := l }
  | .consumer, l => { s with consumer := l }

end Sys2Proof.Machine
end

