-- ==== Sys2Proof/Machine/Ops.lean ====
section
/-! DEFINITION. The named operations over storage, ring buffers and result registers, and the one exceptional mechanism:
a failure (60_exceptions.md rule R260). -/

namespace Sys2Proof.Machine

/-! Storage. -/

/-- What an address that nothing has written reads as (log entry 10: DESIGN CHOICE; no rule reads such a byte). -/
def Memory.unlisted : Byte := 0

def Memory.read : Memory → Nat → Byte
  | [], _          => Memory.unlisted
  | (a, x) :: m, k => if a = k then x else Memory.read m k

/-- Writing the value an unlisted address reads as removes the entry. -/
def Memory.write : Memory → Nat → Byte → Memory
  | [], k, v          => if v = Memory.unlisted then [] else [(k, v)]
  | (a, x) :: m, k, v =>
    if k < a then (if v = Memory.unlisted then (a, x) :: m else (k, v) :: (a, x) :: m)
    else if k = a then (if v = Memory.unlisted then m else (k, v) :: m)
    else (a, x) :: Memory.write m k v

/-- The canonical form: addresses strictly rising, no entry equal to what an unlisted address reads as. -/
abbrev Memory.wf (m : Memory) : Prop :=
  m.Pairwise (fun c d => c.1 < d.1) ∧ ∀ c ∈ m, c.2 ≠ Memory.unlisted

/-- The bytes at `k`, `k + 1`, … -/
def Memory.readSeq (m : Memory) (k n : Nat) : List Byte := (List.range n).map (fun j => Memory.read m (k + j))

/-- Writes the bytes at `k`, `k + 1`, … -/
def Memory.writeSeq : Memory → Nat → List Byte → Memory
  | m, _, []      => m
  | m, k, v :: vs => Memory.writeSeq (Memory.write m k v) (k + 1) vs

/-! Ring buffers. `cap` is the capacity of the buffer. -/

/-- The physical index of logical index `i` (20_memory.md rule R50). -/
def Ring.phys (cap : Nat) (r : Ring) (i : Nat) : Nat := (r.head + i) % cap

/-- The byte at logical index `i`, for `i` below `len` (rule R51). -/
def Ring.get (cap : Nat) (r : Ring) (i : Nat) : Byte := Memory.read r.mem (r.phys cap i)

/-- Overwrites the byte at logical index `i`, for `i` below `len` (rule R125). -/
def Ring.set (cap : Nat) (r : Ring) (i : Nat) (v : Byte) : Ring :=
  { r with mem := Memory.write r.mem (r.phys cap i) v }

/-- `MemRead(B, i, n)` for `i + n <= len` (rule R52). -/
def Ring.memRead (cap : Nat) (r : Ring) (i n : Nat) : List Byte := (List.range n).map (fun k => r.get cap (i + k))

/-- `MemWrite(B, i, n, v)` for `i + n <= len` (rule R52). -/
def Ring.memWrite (cap : Nat) : Ring → Nat → List Byte → Ring
  | r, _, []      => r
  | r, i, v :: vs => Ring.memWrite cap (r.set cap i v) (i + 1) vs

/-- The content, front first (10_state.md rule R21). -/
def Ring.content (cap : Nat) (r : Ring) : List Byte := r.memRead cap 0 r.len

/-- The physical index that `push_back` writes (40_ring_buffer.md rule R135). -/
def Ring.backSlot (cap : Nat) (r : Ring) : Nat := if r.len < cap then (r.head + r.len) % cap else r.head

/-- The physical index that `push_front` writes (rule R135). -/
def Ring.frontSlot (cap : Nat) (r : Ring) : Nat := (r.head + cap - 1) % cap

/-- `push_back` (rule R120): a full buffer loses its front byte. -/
def Ring.pushBack (cap : Nat) (r : Ring) (v : Byte) : Ring :=
  if r.len < cap then
    { r with mem := Memory.write r.mem (r.backSlot cap) v, len := r.len + 1 }
  else
    { r with mem := Memory.write r.mem (r.backSlot cap) v, head := (r.head + 1) % cap }

/-- `push_front` (rule R121): a full buffer loses its back byte. -/
def Ring.pushFront (cap : Nat) (r : Ring) (v : Byte) : Ring :=
  { mem  := Memory.write r.mem (r.frontSlot cap) v
    head := r.frontSlot cap
    len  := if r.len < cap then r.len + 1 else r.len }

/-- The byte `pop_front` returns. -/
def Ring.front (r : Ring) : Byte := Memory.read r.mem r.head

/-- The byte `pop_back` returns. -/
def Ring.back (cap : Nat) (r : Ring) : Byte := Memory.read r.mem ((r.head + r.len - 1) % cap)

/-- `pop_front` of a buffer that is not empty (rule R122). -/
def Ring.popFront (cap : Nat) (r : Ring) : Ring := { r with head := (r.head + 1) % cap, len := r.len - 1 }

/-- `pop_back` of a buffer that is not empty (rule R123). -/
def Ring.popBack (r : Ring) : Ring := { r with len := r.len - 1 }

/-- Pushes every byte at the back, in order. -/
def Ring.pushAll (cap : Nat) (r : Ring) (bs : List Byte) : Ring := bs.foldl (Ring.pushBack cap) r

/-- `n` times `pop_front`. -/
def Ring.popMany (cap : Nat) : Nat → Ring → Ring
  | 0, r     => r
  | n + 1, r => Ring.popMany cap n (r.popFront cap)

/-- `RB.CLEAR` with the head draw `h` (rule R129). -/
def Ring.clear (r : Ring) (h : Nat) : Ring := { r with head := h, len := 0 }

/-- The lengths of the two runs of consecutive physical indices (rule R131). -/
def Ring.slices (cap : Nat) (r : Ring) : Nat × Nat :=
  let first := min r.len (cap - r.head)
  (first, r.len - first)

/-! Head draws (10_state.md rule R23, log entry 8): the next draw the environment has made, else a free value. -/

def State.draws (s : State) : Half → List Nat
  | .tx => s.drawsTx
  | .rx => s.drawsRx

def State.freeCount (s : State) : Half → Nat
  | .tx => s.freeTx
  | .rx => s.freeRx

/-- One more free value is used. -/
def State.useFree (s : State) : Half → State
  | .tx => { s with freeTx := s.freeTx + 1 }
  | .rx => { s with freeRx := s.freeRx + 1 }

/-- The head drawn next for the buffer of half `h`, below its capacity. -/
def State.drawnHead (s : State) (h : Half) : Nat :=
  match s.draws h with
  | d :: _ => d % s.cap h
  | []     => Config.freeHead h (s.freeCount h) % s.cap h

/-- The state after that draw. -/
def State.afterDraw (s : State) : Half → State
  | .tx => match s.drawsTx with
    | _ :: ds => { s with drawsTx := ds }
    | []      => s.useFree .tx
  | .rx => match s.drawsRx with
    | _ :: ds => { s with drawsRx := ds }
    | []      => s.useFree .rx

/-! The end of an operation of a half (10_state.md rule R30). -/

/-- `RES.status <- OK` and `RES.val <- v`. -/
def finish (h : Half) (v : ResVal) (s : State) : Result := .next (s.setRes h { status := .ok, val := v })

/-- `RES.status <- OK`; `RES.val` is not written. -/
def finishKeep (h : Half) (s : State) : Result := .next (s.setRes h { status := .ok, val := (s.res h).val })

/-- `raise F` (rule R260): the changes made so far stay, `RES.status <- F`, and `RES.val` is a free value. -/
def raise (h : Half) (f : Status) (s : State) : Result :=
  .next ((s.useFree h).setRes h { status := f, val := Config.freeResVal h (s.freeCount h) })

/-- The result of an operation that writes no register of the block goes to its issuer (rule R260 step 2). -/
def answer (r : Reply) (s : State) : Result := .next { s with replies := s.replies ++ [r] }

/-- A value, or a failure, returned to the issuer. -/
def answerWith (r : Except Status RetVal) (s : State) : Result :=
  match r with
  | .ok v    => answer { status := .ok, val := some v } s
  | .error f => answer { status := f, val := none } s

/-- Every receive-half operation but `RT.CLOSE` is refused with `Closed` once `RX_CLOSED` is set (rule R270). -/
def whenOpen (h : Half) (s : State) (k : Result) : Result :=
  if h = .rx ∧ s.rxClosed = true then raise h .closed s else k

/-- An operation on the buffer of half `h` that ends `OK` with the buffer `r` and the result `v`. -/
def finishRing (h : Half) (r : Ring) (v : ResVal) (s : State) : Result := finish h v (s.setRing h r)

/-- The same, `RES.val` not written. -/
def finishRingKeep (h : Half) (r : Ring) (s : State) : Result := finishKeep h (s.setRing h r)

end Sys2Proof.Machine
end

