-- ==== Sys2Proof/Machine/Flags.lean ====
section
/-! DEFINITION. The codes and the computed flags: failure codes (60_exceptions.md rule R261), class codes (45_router.md
rule R230), the flag "full" (10_state.md rule R34), and when a queue has no room (rule R240). `OUT_VALID` and
`RX_CLOSED` are stored, and written where rule R34 says. -/

namespace Sys2Proof.Machine

/-- The failure code of rule R261. -/
def Status.code : Status → BitVec 8
  | .ok                => 0
  | .payloadTooLarge   => 1
  | .destTooSmall      => 2
  | .cobsEmpty         => 3
  | .cobsOverflow      => 4
  | .tooShort          => 5
  | .noTerminator      => 6
  | .emptyFrame        => 7
  | .frameTooShort     => 8
  | .noSuchElement     => 9
  | .checksumMismatch  => 10
  | .unexpectedCommand => 11
  | .malformedPayload  => 12
  | .unsupportedFormat => 13
  | .transportFailure  => 14
  | .closed            => 15
  | .empty             => 16
  | .nothingToRoute    => 17
  | .badOperation      => 18
  | .timeout           => 19

/-- The class code of rule R230. -/
def CmdClass.code : CmdClass → Nat
  | .invalid0      => 0
  | .registerRead  => 1
  | .registerWrite => 2
  | .reserved      => 3
  | .stream        => 4

/-- Full: `B.len = B.CAP`, computed and not stored (rule R34). -/
def Ring.isFull (cap : Nat) (r : Ring) : Bool := decide (r.len = cap)

/-- A flag in `RES.val`: 1 or 0. -/
def flagVal (x : Bool) : ResVal := .num (if x then 1 else 0)

/-- A queue of `n` entries has no room under `QDEPTH` (rule R240); an unbounded queue always has. -/
def noRoom (qDepth : Option Nat) (n : Nat) : Bool :=
  match qDepth with
  | none   => false
  | some d => decide (d ≤ n)

end Sys2Proof.Machine
end

