-- ==== Sys2Proof/Machine/Packers.lean ====
section
/-! DEFINITION. The packers and unpackers of the register sub-protocol (spec/44_register_packers.md). All are pure: the
result goes to the issuer and no register of the block is written. -/

namespace Sys2Proof.Machine

/-- A packed payload for a destination of `dstCap` bytes: "Packing functions fail if the destination slice is smaller
than required". -/
def packed (payload : List Byte) (dstCap : Nat) : Except Status RetVal :=
  if dstCap < payload.length then .error .destTooSmall else .ok (.bytes payload)

/-- `PAYLOAD.READ_REQ` (rule R84). -/
def readReqPayload (reg : BitVec 16) : List Byte := bytes16 reg

/-- `PAYLOAD.WRITE8`. -/
def write8Payload (reg : BitVec 16) (v8 : Byte) : List Byte := bytes16 reg ++ [v8]

/-- `PAYLOAD.WRITE32`. -/
def write32Payload (reg : BitVec 16) (v32 : BitVec 32) : List Byte := bytes16 reg ++ bytes32 v32

/-- Rule R216: the length alone selects the decode path; an 8-bit value is widened with zeros. -/
def unpackRegVal (p : List Byte) : Option (BitVec 16 × BitVec 32) :=
  if p.length = 3 ∨ p.length = 6 then some (regOf p, BitVec.ofNat 32 (bigEndian (p.drop 2))) else none

/-- Rule R217: the bytes after the register number are ignored. -/
def unpackAck (ackLengths : List Nat) (p : List Byte) : Option (BitVec 16) :=
  if p.length ∈ ackLengths then some (regOf p) else none

/-- `PK.READ_REQ` (rule R212). -/
def execPkReadReq (reg : BitVec 16) (dstCap : Nat) (s : State) : Result :=
  answerWith (packed (readReqPayload reg) dstCap) s

/-- `PK.WRITE8` (rule R213). -/
def execPkWrite8 (reg : BitVec 16) (v8 : Byte) (dstCap : Nat) (s : State) : Result :=
  answerWith (packed (write8Payload reg v8) dstCap) s

/-- `PK.WRITE32` (rule R214). -/
def execPkWrite32 (reg : BitVec 16) (v32 : BitVec 32) (dstCap : Nat) (s : State) : Result :=
  answerWith (packed (write32Payload reg v32) dstCap) s

/-- `UNPK.READ_REQ` (rule R215). -/
def execUnpkReadReq (p : List Byte) (s : State) : Result :=
  answerWith (if p.length = 2 then .ok (.reg (regOf p)) else .error .malformedPayload) s

/-- `UNPK.REGVAL` (rule R216). -/
def execUnpkRegval (p : List Byte) (s : State) : Result :=
  answerWith (match unpackRegVal p with
    | some (reg, value) => .ok (.regVal reg value)
    | none              => .error .malformedPayload) s

/-- `UNPK.ACK` (rule R217). -/
def execUnpkAck (p : List Byte) (s : State) : Result :=
  answerWith (match unpackAck s.cfg.ackLengths p with
    | some reg => .ok (.reg reg)
    | none     => .error .malformedPayload) s

end Sys2Proof.Machine
end

