-- ==== Sys2Proof/Machine/Router.lean ====
section
/-! DEFINITION. Command classification, the router, the queues and the stream functions (spec/45_router.md). -/

namespace Sys2Proof.Machine

/-- The class of a command byte (rule R230). -/
def classify (cmd : Byte) : CmdClass :=
  if cmd = 0x00 then .invalid0
  else if cmd = 0x01 then .registerRead
  else if cmd = 0x02 then .registerWrite
  else if cmd.toNat ≤ 0x7F then .reserved
  else .stream

/-- `HP.CLASSIFY` (rule R230). -/
def execHpClassify (cmd : Byte) (s : State) : Result := answerWith (.ok (.cls (classify cmd))) s

/-! The router (rule R235). -/

/-- The payload in the output latches. -/
def State.payload (s : State) : List Byte := Memory.readSeq s.outData 0 s.outLen

/-- The router rejects a frame: one `DIAG` record, nothing enqueued, and `RES.val` is the class. -/
def reject (f : Status) (cls : CmdClass) (cmd : Byte) (s : State) : Result :=
  let t : State := { s with diag := s.diag ++ [{ code := f, command := some cmd }] }
  .next (t.setRes .rx { status := f, val := .num cls.code })

/-- The lines of rule R235 after the two tests, for a frame with command byte `cmd` of class `cls`. -/
def dispatchFrame (cls : CmdClass) (cmd : Byte) (s : State) : Result :=
  let p := s.payload
  let s := { s with outValid := false }
  match cls with
  | .invalid0 | .reserved => reject .unexpectedCommand cls cmd s
  | .registerRead =>
    match unpackRegVal p with
    | none       => reject .malformedPayload cls cmd s
    | some entry => finish .rx (.num cls.code) { s with rdq := s.rdq ++ [entry] }
  | .registerWrite =>
    match unpackAck s.cfg.ackLengths p with
    | none     => reject .malformedPayload cls cmd s
    | some reg => finish .rx (.num cls.code) { s with waq := s.waq ++ [reg] }
  | .stream => finish .rx (.num cls.code) { s with stq := s.stq ++ [(cmd, p)] }

/-- The entry the frame in the latches would make has no room in its queue (rule R240, log entry 15). -/
def targetFull (cls : CmdClass) (s : State) : Bool :=
  match cls with
  | .invalid0 | .reserved => false
  | .registerRead  => (unpackRegVal s.payload).isSome && noRoom s.cfg.qDepth s.rdq.length
  | .registerWrite => (unpackAck s.cfg.ackLengths s.payload).isSome && noRoom s.cfg.qDepth s.waq.length
  | .stream        => noRoom s.cfg.qDepth s.stq.length

/-- The router is not enabled: a frame waits in the latches and its entry has no room (rule R240, U12). -/
def routeWaits (cls : CmdClass) (s : State) : Bool := !s.rxClosed && s.outValid && targetFull cls s

/-- The router on the frame in the latches, taken as one with command byte `cmd` of class `cls`. -/
def route (cls : CmdClass) (cmd : Byte) (s : State) : Result :=
  whenOpen .rx s
    (if s.outValid = false then raise .rx .nothingToRoute s
     else if targetFull cls s = true then .next s
     else dispatchFrame cls cmd s)

/-- `RT.ROUTE` (rule R235): the command byte is the one in `OUT_COMMAND`. -/
def execRtRoute (s : State) : Result := route (classify s.outCommand) s.outCommand s

/-- `RT.CLOSE` (rule R243): never refused. -/
def execRtClose (s : State) : Result := finishKeep .rx { s with rxClosed := true }

/-! Queues (rule R244). -/

/-- What a pop of an empty queue answers. -/
def emptyAnswer (s : State) : Status := if s.rxClosed then .closed else .empty

/-- `Q.POP` (rule R244): no result register is written; `q = 3` names no queue (rule R271). -/
def execQPop (q : BitVec 2) (s : State) : Result :=
  match queueOf q with
  | none => answerWith (.error .badOperation) s
  | some .rdq =>
    match s.rdq with
    | []                  => answerWith (.error (emptyAnswer s)) s
    | (reg, value) :: es  => answerWith (.ok (.regVal reg value)) { s with rdq := es }
  | some .waq =>
    match s.waq with
    | []        => answerWith (.error (emptyAnswer s)) s
    | reg :: es => answerWith (.ok (.reg reg)) { s with waq := es }
  | some .stq =>
    match s.stq with
    | []           => answerWith (.error (emptyAnswer s)) s
    | (c, p) :: es => answerWith (.ok (.command c p)) { s with stq := es }

/-! Stream functions. -/

def SampleWidth.bits : SampleWidth → Nat
  | .w8  => 8
  | .w16 => 16
  | .w32 => 32

/-- The default `stream_format` (rules R86 and R246): words per sample in bits 6..2, width code in bits 1..0. -/
def layoutFormat (cmd : Byte) : Option SampleWidth :=
  if cmd.msb = false then none
  else if cmd.extractLsb' 2 5 ≠ (1 : BitVec 5) then none
  else
    match (cmd.extractLsb' 0 2).toNat with
    | 1 => some .w8
    | 2 => some .w16
    | 3 => some .w32
    | _ => none

/-- The static function `stream_format`: one word per sample, of the width it gives; `none` is unsupported. -/
def streamFormat (f : StreamFormat) (cmd : Byte) : Option SampleWidth :=
  match f with
  | .layout     => layoutFormat cmd
  | .table rows => rows.lookup cmd

/-- `ST.FORMAT` (rule R246). -/
def execStFormat (cmd : Byte) (s : State) : Result :=
  answerWith (match streamFormat s.cfg.streamFormat cmd with
    | some w => .ok (.format (SampleWidth.bits w) 1)
    | none   => .error .unsupportedFormat) s

/-- The first `n` samples of `w` bytes each (rules R87 and R248). -/
def samples (w : Nat) : Nat → List Byte → List Nat
  | 0, _     => []
  | n + 1, p => bigEndian (p.take w) :: samples w n (p.drop w)

/-- Rule R248: a payload that is no whole number of samples is malformed. -/
def unpackSamples (f : StreamFormat) (cmd : Byte) (p : List Byte) : Except Status (List Nat) :=
  match streamFormat f cmd with
  | none   => .error .unsupportedFormat
  | some w =>
    let size := SampleWidth.bits w / 8
    if p.length % size = 0 then .ok (samples size (p.length / size) p) else .error .malformedPayload

/-- `ST.UNPACK` (rule R248). -/
def execStUnpack (cmd : Byte) (p : List Byte) (s : State) : Result :=
  answerWith (match unpackSamples s.cfg.streamFormat cmd p with
    | .ok xs   => .ok (.samples xs)
    | .error f => .error f) s

end Sys2Proof.Machine
end

