-- ==== Sys2Proof/Machine/Commands.lean ====
section
/-! DEFINITION. The command bytes (30_encoding.md rule R90, table format CMD): "what the router does" with the frame in
the output latches when its command byte is the row's (log entry 3). `RT.ROUTE` is the same on the byte in
`OUT_COMMAND`. The class is the row's own, not computed. -/

namespace Sys2Proof.Machine

/-- `0x00`. -/
def execCmdInvalid0 (s : State) : Result := route .invalid0 0x00 s

/-- `0x01`. -/
def execCmdRegisterRead (s : State) : Result := route .registerRead 0x01 s

/-- `0x02`. -/
def execCmdRegisterWrite (s : State) : Result := route .registerWrite 0x02 s

/-- `0x03`. -/
def execCmdReserved03 (s : State) : Result := route .reserved 0x03 s

/-- `0x04 .. 0x07`. -/
def execCmdReserved04_07 (low : BitVec 2) (s : State) : Result := route .reserved (0x04 ||| low.setWidth 8) s

/-- `0x08 .. 0x0F`. -/
def execCmdReserved08_0F (low : BitVec 3) (s : State) : Result := route .reserved (0x08 ||| low.setWidth 8) s

/-- `0x10 .. 0x1F`. -/
def execCmdReserved10_1F (low : BitVec 4) (s : State) : Result := route .reserved (0x10 ||| low.setWidth 8) s

/-- `0x20 .. 0x3F`. -/
def execCmdReserved20_3F (low : BitVec 5) (s : State) : Result := route .reserved (0x20 ||| low.setWidth 8) s

/-- `0x40 .. 0x7F`. -/
def execCmdReserved40_7F (low : BitVec 6) (s : State) : Result := route .reserved (0x40 ||| low.setWidth 8) s

/-- `0x80 .. 0xFF`: the router does not look at the descriptor. -/
def execCmdStream (descriptor : BitVec 7) (s : State) : Result :=
  route .stream (0x80 ||| descriptor.setWidth 8) s

end Sys2Proof.Machine
end

