-- ==== Sys2Proof/Machine/Cobs.lean ====
section
/-! DEFINITION. The COBS encoder and decoder, in place on a ring buffer (spec/41_cobs.md), and the encoding as a function
of byte sequences (rule R150). -/

namespace Sys2Proof.Machine

/-! The encoding as a function. -/

/-- The index of the first zero of `xs ++ [0]`. -/
def firstZero : List Byte → Nat
  | []      => 0
  | x :: xs => if x = 0 then 0 else firstZero xs + 1

/-- Rule R150 on `xs ++ [0]`: every zero but the last becomes the distance to the next zero. -/
def stuff : List Byte → List Byte
  | []      => [0]
  | x :: xs => (if x = 0 then BitVec.ofNat 8 (firstZero xs + 1) else x) :: stuff xs

/-- `cobs(m)`: rule R150 on `[0] ++ m ++ [0]`. -/
def cobs (m : List Byte) : List Byte := stuff (0 :: m)

/-! In place. -/

/-- How a codec operation on a buffer ends: with a length, or with a failure; and the buffer it leaves. -/
inductive Codec where
  | done   (n : Nat) (r : Ring)
  | failed (f : Status) (r : Ring)
deriving DecidableEq, Repr

/-- The scan of rule R152 over the logical indices `i`, `i + 1`, … (`count` of them); `z` is the last zero seen. -/
def encodeScan (cap : Nat) : Nat → Nat → Nat → Ring → Ring
  | 0, _, _, r         => r
  | count + 1, i, z, r =>
    if r.get cap i = 0 then encodeScan cap count (i + 1) i (r.set cap z (BitVec.ofNat 8 (i - z)))
    else encodeScan cap count (i + 1) z r

/-- `COBS.ENC` on a buffer (rule R152). -/
def cobsEncode (cap : Nat) (r : Ring) : Codec :=
  if r.len = 0 then .failed .cobsEmpty r
  else if cap < r.len + 2 then .failed .cobsOverflow r
  else .done (r.len + 2) (encodeScan cap (r.len + 1) 1 0 ((r.pushFront cap 0).pushBack cap 0))

/-- Where the walk of rule R155 ends: at a zero, or past the end of the content; and the buffer it leaves. -/
inductive Walk where
  | landed (p : Nat) (r : Ring)
  | ranOff (r : Ring)
deriving DecidableEq, Repr

/-- The walk of rule R155 from logical index `p`, over a content of `len` bytes. Every step moves forward, so `len`
steps suffice (rule R159 d); the sum is on naturals and is not reduced (rule R161). -/
def decodeWalk (cap len : Nat) : Nat → Nat → Ring → Walk
  | 0, _, r        => .ranOff r
  | steps + 1, p, r =>
    if r.get cap p = 0 then .landed p r
    else
      let q := p + (r.get cap p).toNat
      if len ≤ q then .ranOff (r.set cap p 0) else decodeWalk cap len steps q (r.set cap p 0)

/-- `COBS.DEC` on a buffer (rules R155 to R158). -/
def cobsDecode (cap : Nat) (r : Ring) : Codec :=
  if r.len < 3 then .failed .tooShort r
  else
    match decodeWalk cap r.len r.len 0 r with
    | .ranOff r'          => .failed .noTerminator r'
    | .landed 0 r'        => .failed .emptyFrame (r'.popFront cap)
    | .landed (p + 1) r'  => .done (p + 1) (r'.popFront cap)

/-- The end of an operation that is one codec run on the buffer of half `b`. -/
def finishCodec (b : Half) (c : Codec) (s : State) : Result :=
  match c with
  | .done n r   => finishRing b r (.num n) s
  | .failed f r => raise b f (s.setRing b r)

/-- `COBS.ENC` (rule R152). -/
def execCobsEnc (b : Half) (s : State) : Result :=
  whenOpen b s (finishCodec b (cobsEncode (s.cap b) (s.ring b)) s)

/-- `COBS.DEC` (rule R155). -/
def execCobsDec (b : Half) (s : State) : Result :=
  whenOpen b s (finishCodec b (cobsDecode (s.cap b) (s.ring b)) s)

end Sys2Proof.Machine
end

