-- ==== Sys2Proof/Machine/Crc.lean ====
section
/-! DEFINITION. The checksum engine (spec/42_crc16.md): the checksum as a function of `CRC_PARAMS` and the bytes (rule
R170), in the most-significant-bit-first form of rule R172, and `CRC.CALC`. -/

namespace Sys2Proof.Machine

/-- `n` single-bit steps, most significant bit first. -/
def crcShift (poly : BitVec 16) : Nat → BitVec 16 → BitVec 16
  | 0, acc     => acc
  | n + 1, acc => crcShift poly n (if acc.msb then (acc <<< 1) ^^^ poly else acc <<< 1)

/-- Digests one byte. -/
def crcByte (p : CrcParams) (acc : BitVec 16) (x : Byte) : BitVec 16 :=
  crcShift p.poly 8 (acc ^^^ ((if p.refin then x.reverse else x).setWidth 16 <<< 8))

/-- The accumulator after digesting `bs`, in order. Rule R172 starts it at the initial value 0. For another initial value
the model takes the bits of `init` as they stand in this most-significant-bit-first accumulator, also with `refin`
(DESIGN CHOICE, log entry 26). -/
def crcFold (p : CrcParams) (acc : BitVec 16) (bs : List Byte) : BitVec 16 := bs.foldl (crcByte p) acc

/-- The last steps: output reflection, then the final XOR. The spec gives them for the parameters of rule R171 only; for
any others the order and the meaning are log entry 26 (DESIGN CHOICE). -/
def crcFinal (p : CrcParams) (acc : BitVec 16) : BitVec 16 :=
  (if p.refout then acc.reverse else acc) ^^^ p.xorout

/-- `crc16(s)` (rule R170). Rule R172 writes the computation for the parameters of rule R171 alone, and there this is it.
What the fields of any other `CRC_PARAMS` record mean is the model's choice (DESIGN CHOICE, log entry 26): the
most-significant-bit-first form, with `init` not reflected, every byte reflected by `refin`, and the result reflected by
`refout` before `xorout`. -/
def crc16 (p : CrcParams) (bs : List Byte) : BitVec 16 := crcFinal p (crcFold p p.init bs)

/-! The loop that rule R172 writes out, for the parameters of rule R171. -/

/-- `n` single-bit steps, least significant bit first, with the bit-reversed polynomial `0xA6BC`. -/
def reflectedShift : Nat → BitVec 16 → BitVec 16
  | 0, acc     => acc
  | n + 1, acc => reflectedShift n (if acc.getLsbD 0 then (acc >>> 1) ^^^ 0xA6BC else acc >>> 1)

/-- The loop of rule R172. -/
def reflectedCrc16 (bs : List Byte) : BitVec 16 :=
  bs.foldl (fun acc x => reflectedShift 8 (acc ^^^ x.setWidth 16)) 0x0000 ^^^ 0xFFFF

/-- `CRC.CALC` (rule R174). -/
def execCrcCalc (b : Half) (n : Nat) (s : State) : Result :=
  whenOpen b s
    (if (s.ring b).len < n then raise b .noSuchElement s
     else finish b (.num (crc16 s.cfg.crc ((s.ring b).memRead (s.cap b) 0 n)).toNat) s)

end Sys2Proof.Machine
end

