-- ==== Sys2Proof/Machine/Frame.lean ====
section
/-! DEFINITION. The frame codec (spec/43_frame_codec.md): `FRM.SEND` and `FRM.RECV`. -/

namespace Sys2Proof.Machine

/-- The message of a frame before COBS (30_encoding.md rule R81): header, payload, and the checksum over both. -/
def message (crc : CrcParams) (hasVersion hasCrc : Bool) (version command : Byte) (data : List Byte) : List Byte :=
  let body := (if hasVersion then [version] else []) ++ command :: data
  body ++ (if hasCrc then bytes16 (crc16 crc body) else [])

/-- The pushes of rule R190 between `RB.CLEAR` and `COBS.ENC`. -/
def buildMessage (cap : Nat) (crc : CrcParams) (hasVersion hasCrc : Bool) (version command : Byte) (data : List Byte)
    (r : Ring) : Ring :=
  let r₁ := if hasVersion then r.pushBack cap version else r
  let r₂ := (r₁.pushBack cap command).pushAll cap data
  if hasCrc then
    let c := crc16 crc (r₂.memRead cap 0 (hdr hasVersion + data.length))
    (r₂.pushBack cap (hiByte c)).pushBack cap (loByte c)
  else r₂

/-- `FRM.SEND` (rule R190). The test is on naturals, so a capacity below `FRAME_OVERHEAD` refuses every payload. -/
def execFrmSend (hasVersion hasCrc : Bool) (version command : Byte) (data : List Byte) (s : State) : Result :=
  let cap := s.cfg.capTx
  if cap < data.length + frameOverhead hasVersion hasCrc then raise .tx .payloadTooLarge s
  else
    let r := s.txb.clear (s.drawnHead .tx)
    finishCodec .tx (cobsEncode cap (buildMessage cap s.cfg.crc hasVersion hasCrc version command data r))
      (s.afterDraw .tx)

/-- What `FRM.RECV` does once the decode has given a message of `plen` payload bytes in the buffer `r` (rule R195):
the fields are popped into the latches, then the two checksum bytes, then the terminator, and only then is the checksum
compared. `OUT_VERSION` is written only with `has_version = 1`. -/
def deliver (hasVersion hasCrc : Bool) (plen : Nat) (r : Ring) (s : State) : Result :=
  let cap := s.cfg.capRx
  let c   := crc16 s.cfg.crc (r.memRead cap 0 (hdr hasVersion + plen))
  let r₁  := if hasVersion then r.popFront cap else r
  let r₂  := r₁.popFront cap
  let r₃  := r₂.popMany cap plen
  let r₄  := if hasCrc then (r₃.popFront cap).popFront cap else r₃
  let t   := { s with
    outVersion := if hasVersion then r.front else s.outVersion
    outCommand := r₁.front
    outData    := Memory.writeSeq s.outData 0 (r₂.memRead cap 0 plen)
    outLen     := plen
    rxb        := r₄.popFront cap }
  if hasCrc = true ∧ (r₃.front ≠ hiByte c ∨ (r₃.popFront cap).front ≠ loByte c) then
    raise .rx .checksumMismatch t
  else finish .rx (.num plen) { t with outValid := true }

/-- `FRM.RECV` after its `OUT_VALID <- 0` (rules R195 and R196). -/
def receive (hasVersion hasCrc : Bool) (dstCap : Nat) (s : State) : Result :=
  let cap   := s.cfg.capRx
  let fixed := hdr hasVersion + crcLen hasCrc
  if dstCap + (fixed + 2) < cap then raise .rx .destTooSmall s
  else if s.rxb.len < fixed + 2 then raise .rx .tooShort s
  else
    match cobsDecode cap s.rxb with
    | .failed f r => raise .rx f { s with rxb := r }
    | .done d r   =>
      if d - 1 < fixed then raise .rx .frameTooShort { s with rxb := r.popMany cap d }
      else deliver hasVersion hasCrc (d - 1 - fixed) r s

/-- `FRM.RECV` (rule R195). -/
def execFrmRecv (hasVersion hasCrc : Bool) (dstCap : Nat) (s : State) : Result :=
  whenOpen .rx s (receive hasVersion hasCrc dstCap { s with outValid := false })

end Sys2Proof.Machine
end

