-- ==== Sys2Proof/Machine/RingBuffer.lean ====
section
/-! DEFINITION. The ring buffer operations (spec/40_ring_buffer.md). -/

namespace Sys2Proof.Machine

/-- `RB.PUSH_BACK` (rule R120). -/
def execRbPushBack (b : Half) (v : Byte) (s : State) : Result :=
  whenOpen b s (finishRingKeep b ((s.ring b).pushBack (s.cap b) v) s)

/-- `RB.PUSH_FRONT` (rule R121). -/
def execRbPushFront (b : Half) (v : Byte) (s : State) : Result :=
  whenOpen b s (finishRingKeep b ((s.ring b).pushFront (s.cap b) v) s)

/-- `RB.POP_FRONT` (rule R122). -/
def execRbPopFront (b : Half) (s : State) : Result :=
  whenOpen b s
    (if (s.ring b).len = 0 then raise b .noSuchElement s
     else finishRing b ((s.ring b).popFront (s.cap b)) (.num (s.ring b).front.toNat) s)

/-- `RB.POP_BACK` (rule R123). -/
def execRbPopBack (b : Half) (s : State) : Result :=
  whenOpen b s
    (if (s.ring b).len = 0 then raise b .noSuchElement s
     else finishRing b (s.ring b).popBack (.num ((s.ring b).back (s.cap b)).toNat) s)

/-- `RB.GET` (rule R124). -/
def execRbGet (b : Half) (i : Nat) (s : State) : Result :=
  whenOpen b s
    (if (s.ring b).len ≤ i then raise b .noSuchElement s
     else finish b (.num ((s.ring b).get (s.cap b) i).toNat) s)

/-- `RB.SET` (rule R125). -/
def execRbSet (b : Half) (i : Nat) (v : Byte) (s : State) : Result :=
  whenOpen b s
    (if (s.ring b).len ≤ i then raise b .noSuchElement s
     else finishRingKeep b ((s.ring b).set (s.cap b) i v) s)

/-- `RB.LEN` (rule R126). -/
def execRbLen (b : Half) (s : State) : Result := whenOpen b s (finish b (.num (s.ring b).len) s)

/-- `RB.CAP` (rule R127). -/
def execRbCap (b : Half) (s : State) : Result := whenOpen b s (finish b (.num (s.cap b)) s)

/-- `RB.IS_FULL` (rule R128). -/
def execRbIsFull (b : Half) (s : State) : Result :=
  whenOpen b s (finish b (flagVal ((s.ring b).isFull (s.cap b))) s)

/-- `RB.CLEAR` (rule R129): the new head is a draw. -/
def execRbClear (b : Half) (s : State) : Result :=
  whenOpen b s (finishRingKeep b ((s.ring b).clear (s.drawnHead b)) (s.afterDraw b))

/-- `RB.SLICES` (rule R131). -/
def execRbSlices (b : Half) (s : State) : Result :=
  whenOpen b s (finish b (.pair ((s.ring b).slices (s.cap b)).1 ((s.ring b).slices (s.cap b)).2) s)

/-- `RB.EXTEND RX` is not enabled while the transport has delivered nothing (rules R132 and R293, log entry 14). -/
def extendWaits (s : State) : Bool := !s.rxClosed && s.rxReads.isEmpty

/-- `RB.EXTEND` (rule R132): `TX` has no inbound port. A read that fails delivers no bytes. -/
def execRbExtend (b : Half) (s : State) : Result :=
  match b with
  | .tx => raise .tx .badOperation s
  | .rx =>
    whenOpen .rx s
      (match s.rxReads with
       | []                => .next s
       | .failed :: rs     => raise .rx .transportFailure { s with rxReads := rs }
       | .bytes x xs :: rs =>
         finishRing .rx (s.rxb.pushAll (s.cap .rx) (x :: xs)) (.num (xs.length + 1)) { s with rxReads := rs })

/-- `RB.DRAIN TX` is not enabled while the transport has not answered the write; an empty buffer writes nothing
(rule R133, log entries 14 and 23). -/
def drainWaits (s : State) : Bool := !(s.txb.len == 0) && s.txWrites.isEmpty

/-- `RB.DRAIN` (rule R133): `RX` has no outbound port, tested before `Closed` (rule R264). A write that fails has taken
some bytes from the front, between none and all (log entry 24). -/
def execRbDrain (b : Half) (s : State) : Result :=
  match b with
  | .rx => raise .rx .badOperation s
  | .tx =>
    let content := s.txb.content (s.cap .tx)
    if s.txb.len = 0 then finish .tx (.num 0) s
    else
      match s.txWrites with
      | []                 => .next s
      | .completed :: ws   =>
        finishRing .tx (s.txb.popMany (s.cap .tx) s.txb.len) (.num s.txb.len)
          { s with txWrites := ws, txStream := s.txStream ++ content }
      | .failed taken :: ws =>
        raise .tx .transportFailure
          { s with txb := s.txb.popMany (s.cap .tx) (min taken s.txb.len), txWrites := ws,
                   txStream := s.txStream ++ content.take taken }

end Sys2Proof.Machine
end

