-- ==== Sys2Proof/Machine/Dispatch.lean ====
section
/-! DEFINITION. The meaning of every instruction: one arm per constructor, one direct call of its meaning. -/

namespace Sys2Proof.Machine

def exec (i : Instr) (s : State) : Host.Outcome State Fault Refusal :=
  match i with
  | .rbPushBack b v => Sys2Proof.Machine.execRbPushBack b v s
  | .rbPushFront b v => Sys2Proof.Machine.execRbPushFront b v s
  | .rbPopFront b => Sys2Proof.Machine.execRbPopFront b s
  | .rbPopBack b => Sys2Proof.Machine.execRbPopBack b s
  | .rbGet b idx => Sys2Proof.Machine.execRbGet b idx s
  | .rbSet b idx v => Sys2Proof.Machine.execRbSet b idx v s
  | .rbLen b => Sys2Proof.Machine.execRbLen b s
  | .rbCap b => Sys2Proof.Machine.execRbCap b s
  | .rbIsFull b => Sys2Proof.Machine.execRbIsFull b s
  | .rbClear b => Sys2Proof.Machine.execRbClear b s
  | .rbSlices b => Sys2Proof.Machine.execRbSlices b s
  | .rbExtend b => Sys2Proof.Machine.execRbExtend b s
  | .rbDrain b => Sys2Proof.Machine.execRbDrain b s
  | .cobsEnc b => Sys2Proof.Machine.execCobsEnc b s
  | .cobsDec b => Sys2Proof.Machine.execCobsDec b s
  | .crcCalc b n => Sys2Proof.Machine.execCrcCalc b n s
  | .frmSend hv hc version command data => Sys2Proof.Machine.execFrmSend hv hc version command data s
  | .frmRecv hv hc dstCap => Sys2Proof.Machine.execFrmRecv hv hc dstCap s
  | .pkReadReq reg dstCap => Sys2Proof.Machine.execPkReadReq reg dstCap s
  | .pkWrite8 reg v8 dstCap => Sys2Proof.Machine.execPkWrite8 reg v8 dstCap s
  | .pkWrite32 reg v32 dstCap => Sys2Proof.Machine.execPkWrite32 reg v32 dstCap s
  | .unpkReadReq p => Sys2Proof.Machine.execUnpkReadReq p s
  | .unpkRegval p => Sys2Proof.Machine.execUnpkRegval p s
  | .unpkAck p => Sys2Proof.Machine.execUnpkAck p s
  | .hpClassify cmd => Sys2Proof.Machine.execHpClassify cmd s
  | .rtRoute => Sys2Proof.Machine.execRtRoute s
  | .rtClose => Sys2Proof.Machine.execRtClose s
  | .qPop q => Sys2Proof.Machine.execQPop q s
  | .stFormat cmd => Sys2Proof.Machine.execStFormat cmd s
  | .stUnpack cmd p => Sys2Proof.Machine.execStUnpack cmd p s
  | .cmdInvalid0 => Sys2Proof.Machine.execCmdInvalid0 s
  | .cmdRegisterRead => Sys2Proof.Machine.execCmdRegisterRead s
  | .cmdRegisterWrite => Sys2Proof.Machine.execCmdRegisterWrite s
  | .cmdReserved03 => Sys2Proof.Machine.execCmdReserved03 s
  | .cmdReserved04_07 low => Sys2Proof.Machine.execCmdReserved04_07 low s
  | .cmdReserved08_0F low => Sys2Proof.Machine.execCmdReserved08_0F low s
  | .cmdReserved10_1F low => Sys2Proof.Machine.execCmdReserved10_1F low s
  | .cmdReserved20_3F low => Sys2Proof.Machine.execCmdReserved20_3F low s
  | .cmdReserved40_7F low => Sys2Proof.Machine.execCmdReserved40_7F low s
  | .cmdStream descriptor => Sys2Proof.Machine.execCmdStream descriptor s

end Sys2Proof.Machine
end

