-- ==== Sys2Proof/Machine/Agents.lean ====
section
/-! DEFINITION. The environment around exec: one move of an agent, which issues an operation request or goes through one
line of a pseudo-operation or of the stream consumer's loop (rules R105, R250, R286, R287, R292), and the reset event
(70_reset_and_hazards.md rules R300 and R301). Every operation, inside a pseudo-operation too, is one call of exec. -/

namespace Sys2Proof.Machine

/-- The operation is not enabled: it takes no step until something else changes (log entry 14). -/
def waits (i : Instr) (s : State) : Bool :=
  match i with
  | .rbExtend .rx       => extendWaits s
  | .rbDrain .tx        => drainWaits s
  | .rtRoute            => routeWaits (classify s.outCommand) s
  | .cmdRegisterRead    => routeWaits .registerRead s
  | .cmdRegisterWrite   => routeWaits .registerWrite s
  | .cmdStream _        => routeWaits .stream s
  | _                   => false

/-- A request that is no operation of the table changes nothing and ends with `BadOperation`: in the result register of
the half that its operand `b` names, else returned to the issuer (rules R100 and R271, log entry 12). -/
def badRequest (bytes : List Byte) (s : State) : Result :=
  match operandB bytes with
  | some b => raise b .badOperation s
  | none   => answerWith (.error .badOperation) s

/-- `diag(f)` of rule R250: no trustworthy command byte (U18, log entry 18). -/
def State.report (s : State) (f : Status) : State :=
  { s with diag := s.diag ++ [{ code := f, command := none }] }

/-- The status returned by the last operation that answered its issuer. -/
def State.lastReply (s : State) : Reply := s.replies.getLastD { status := .ok, val := none }

/-- The end of a register call. -/
def State.endCall (s : State) (r : Reply) : State := { s with callResults := s.callResults ++ [r] }

/-- Runs the operation `i` as one line of a pseudo-operation. While it is not enabled the agent keeps `here`, the
activity it is at, on its agenda, and nothing changes. -/
def perform (a : Agent) (here : Activity) (i : Instr) (s : State) (next : State → State) : Result :=
  if waits i s then .next (s.setAgenda a (here :: s.agenda a))
  else
    match exec i s with
    | .next t    => .next (next t)
    | .fault r   => .fault r
    | .refused r => .refused r

/-- The agent goes on with `act`. -/
def State.goOn (s : State) (a : Agent) (act : Activity) : State := s.setAgenda a (act :: s.agenda a)

/-- `RB.EXTEND RX` of rule R250 has ended. -/
def serviceRead (a : Agent) (hasVersion hasCrc : Bool) (dstCap : Nat) (t : State) : State :=
  match t.resRx.status with
  | .ok               => t.goOn a (.serviceRecv hasVersion hasCrc dstCap)
  | .transportFailure => t.goOn a .serviceClose
  | _                 => t

/-- `FRM.RECV` of rule R250 has ended: "log/report and continue scanning". -/
def serviceReceived (a : Agent) (t : State) : State :=
  match t.resRx.status with
  | .ok => t.goOn a .serviceRoute
  | f   => t.report f

/-- The payload of a register call, as the packer returned it. -/
def callPayload (r : Reply) : List Byte :=
  match r.val with
  | some (.bytes p) => p
  | _               => []

/-- The packer of a register call has answered (rules R286 and R287). -/
def callPacked (a : Agent) (hasCrc : Bool) (call : Call) (t : State) : State :=
  match t.lastReply.status with
  | .ok => t.goOn a (.callSend hasCrc call (callPayload t.lastReply))
  | f   => t.endCall { status := f, val := none }

/-- An operation of the transmit half inside a register call has ended: the call goes on, or fails with it. -/
def callStep (a : Agent) (act : Activity) (t : State) : State :=
  match t.resTx.status with
  | .ok => t.goOn a act
  | f   => t.endCall { status := f, val := none }

/-- The command byte of a register call. -/
def Call.command : Call → Byte
  | .read _  => 0x01
  | .write _ => 0x02

/-- The queue a register call waits on. -/
def Call.queue : Call → BitVec 2
  | .read _  => 0
  | .write _ => 1

/-- The entry that satisfies a register call, and what the call returns (matching is by register number alone, rule
R290). -/
def Call.matching : Call → RetVal → Option Reply
  | .read reg, .regVal r value => if r = reg then some { status := .ok, val := some (.regVal r value) } else none
  | .write reg, .reg r         => if r = reg then some { status := .ok, val := some (.reg r) } else none
  | _, _                       => none

/-- `Q.POP` of a register call has answered (rules R286 to R288). An entry that does not match is dropped; whether the
wait budget then starts again is `WAIT_RESTARTS`. On `Empty` the call fails with `Timeout` when the budget is used up;
else the wait takes as long as the environment says, or has not ended yet (log entry 17). -/
def callPopped (a : Agent) (call : Call) (waited : Nat) (t : State) : State :=
  match t.lastReply with
  | { status := .ok, val := some entry } =>
    match call.matching entry with
    | some r => t.endCall r
    | none   => t.goOn a (.callWait call (if t.cfg.waitRestarts then 0 else waited))
  | { status := .empty, val := _ } =>
    if t.cfg.tWait ≤ waited then t.endCall { status := .timeout, val := none }
    else
      match t.elapsed with
      | []      => t.goOn a (.callWait call waited)
      | d :: ds => State.goOn { t with elapsed := ds } a (.callWait call (waited + d))
  | { status := f, val := _ } => t.endCall { status := f, val := none }

/-- `Q.POP STQ` of the stream consumer's loop has answered (rule R292): an entry is unpacked next, an empty queue is
polled again, and a closed one ends the loop, as "the receiver's death signal" (rule R36, log entry 25). -/
def streamPopped (a : Agent) (t : State) : State :=
  match t.lastReply with
  | { status := .ok, val := some (.command cmd p) } => t.goOn a (.streamUnpack cmd p)
  | { status := .closed, val := _ }                 => t
  | { status := _, val := _ }                       => t.goOn a .streamPop

/-- The packer a `write_reg` uses (rule R211). -/
def writePacker (w : RegWidth) (reg : BitVec 16) (value : BitVec 32) : Instr :=
  match w with
  | .w8  => .pkWrite8 reg (value.extractLsb' 0 8) 3
  | .w32 => .pkWrite32 reg value 6

/-- One move of agent `a`, whose next activity is `act`, from the state `s` in which that activity is no longer on its
agenda. -/
def runActivity (a : Agent) (act : Activity) (s : State) : Result :=
  match act with
  | .request bytes =>
    match decode .op bytes with
    | .ok i    => perform a act i s id
    | .error _ => badRequest bytes s
  | .rxService hv hc dstCap =>
    if s.rxClosed then raise .rx .closed s
    else perform a act (.rbExtend .rx) s (serviceRead a hv hc dstCap)
  | .serviceClose =>
    match exec .rtClose (s.report .transportFailure) with
    | .next t    => .next (t.goOn a .serviceFail)
    | .fault r   => .fault r
    | .refused r => .refused r
  | .serviceFail => raise .rx .transportFailure s
  | .serviceRecv hv hc dstCap => perform a act (.frmRecv hv hc dstCap) s (serviceReceived a)
  | .serviceRoute             => perform a act .rtRoute s id
  | .writeReg hc reg value =>
    perform a act (writePacker s.cfg.regW reg value) s (callPacked a hc (.write reg))
  | .readReg hc reg           => perform a act (.pkReadReq reg 2) s (callPacked a hc (.read reg))
  | .callSend hc call payload =>
    perform a act (.frmSend true hc s.cfg.version call.command payload) s (callStep a (.callDrain call))
  | .callDrain call           => perform a act (.rbDrain .tx) s (callStep a (.callWait call 0))
  | .callWait call waited     => perform a act (.qPop call.queue) s (callPopped a call waited)
  | .streamPop                => perform a act (.qPop 2) s (streamPopped a)
  | .streamUnpack cmd p       => perform a act (.stUnpack cmd p) s (fun t => t.goOn a .streamPop)

/-- One move of agent `a`; an agent with nothing to do changes nothing. -/
def agentMove (a : Agent) (s : State) : Result :=
  match s.agenda a with
  | []          => .next s
  | act :: acts => runActivity a act (s.setAgenda a acts)

/-- The reset event (rules R300 and R301, log entry 20): the block is as after reset, with both heads drawn anew. The
environment keeps its own: what it has still to do and to deliver, and the histories. -/
def resetEvent (s : State) : State :=
  let fresh := State.resetWith s.cfg (s.drawnHead .tx) (s.drawnHead .rx)
  let t := (s.afterDraw .tx).afterDraw .rx
  { fresh with
    rxReads := t.rxReads, txWrites := t.txWrites, txStream := t.txStream, replies := t.replies,
    client := t.client, receiver := t.receiver, consumer := t.consumer, turns := t.turns,
    elapsed := t.elapsed, callResults := t.callResults,
    drawsTx := t.drawsTx, drawsRx := t.drawsRx, freeTx := t.freeTx, freeRx := t.freeRx }

/-- The next turn of the environment. With none the block waits (70_reset_and_hazards.md rule R302, log entry 4). -/
def nextTurn (s : State) : Result :=
  match s.turns with
  | []            => .next s
  | .move a :: ts => agentMove a { s with turns := ts }
  | .reset :: ts  => .next (resetEvent { s with turns := ts })

/-- The agent that issues an operation (rule R283). The block does not check it (log entry 22). -/
def Instr.issuer (i : Instr) : Agent :=
  match i.half, i with
  | some .rx, _          => .receiver
  | none, .qPop q        => if q = 2 then .consumer else .client
  | none, .stFormat _    => .consumer
  | none, .stUnpack _ _  => .consumer
  | _, _                 => .client

/-- `bytes` is what agent `a` issues in the next step. -/
def State.issueNext (s : State) (a : Agent) (bytes : List Byte) : State :=
  { s.goOn a (.request bytes) with turns := .move a :: s.turns }

/-- A table word placed so that the next step runs it (log entries 3 and 4): an operation is issued by its agent; a
command byte is in the output latches, as `FRM.RECV` leaves it there with an empty payload, and `RT.ROUTE` is issued. -/
def State.placeWord (s : State) (nbits w : Nat) : State :=
  match readTableWord nbits w with
  | .operation i bytes => s.issueNext (Instr.issuer i) bytes
  | .command c         =>
    State.issueNext { s with outCommand := c, outLen := 0, outValid := true } .receiver (encode .rtRoute)
  | .neither bytes     => s.issueNext .client bytes

end Sys2Proof.Machine
end

