-- ==== Sys2Proof/Machine/Step.lean ====
section
/-! DEFINITION. One step: the next turn of the environment (Agents.lean). -/

namespace Sys2Proof.Machine

def step (s : State) : Host.Outcome State Fault Refusal := nextTurn s

/-- `s` with the instruction of a table word placed where the next step takes its instruction from. -/
def State.withFetchWord (s : State) (nbits w : Nat) : State := s.placeWord nbits w

end Sys2Proof.Machine
end

