-- ==== Sys2Proof/Safety.lean ====
section
/-! DEFINITION. What counts as a safe run, in the terms the statements use: the invariant of the block's state, and a run
that never stops. -/

namespace Sys2Proof.Machine

/-- Every listed address is below `n`. -/
abbrev Memory.below (m : Memory) (n : Nat) : Prop := ∀ c ∈ m, c.1 < n

/-- The invariant of a ring buffer (10_state.md rule R21), with its storage in canonical form inside its capacity. -/
structure Ring.Ok (cap : Nat) (r : Ring) : Prop where
  head_lt : r.head < cap
  len_le  : r.len ≤ cap
  wf      : Memory.wf r.mem
  below   : Memory.below r.mem cap

/-- `n` entries fit a queue of depth `QDEPTH` (10_state.md rule R35). -/
def fitsDepth (qDepth : Option Nat) (n : Nat) : Prop := ∀ d, qDepth = some d → n ≤ d

/-- The invariant of the block: both buffers, the ranges of the output latches (rule R31), and the sizes of the queues
and their entries (rule R35). -/
structure State.Inv (s : State) : Prop where
  txb      : Ring.Ok s.cfg.capTx s.txb
  rxb      : Ring.Ok s.cfg.capRx s.rxb
  outLen   : s.outLen + 3 ≤ s.cfg.capRx
  outWf    : Memory.wf s.outData
  outBelow : Memory.below s.outData (s.cfg.capRx - 3)
  stqSizes : ∀ e ∈ s.stq, e.2.length + 3 ≤ s.cfg.capRx
  rdqDepth : fitsDepth s.cfg.qDepth s.rdq.length
  waqDepth : fitsDepth s.cfg.qDepth s.waq.length
  stqDepth : fitsDepth s.cfg.qDepth s.stq.length

/-- A safe run: the machine never stops with a fault or a refusal. -/
def State.Safe (s : State) : Prop := ∀ k, ∃ t, Host.Core.run Sys2Proof.core k s = .next t

/-! Terms of the statements about operations. -/

/-- The content of the buffer of half `b` (rule R21). -/
def State.content (s : State) (b : Half) : List Byte := (s.ring b).content (s.cap b)

/-- The half accepts operations: the receive half is not closed (60_exceptions.md rule R270). -/
def State.accepts (s : State) (b : Half) : Prop := b = .rx → s.rxClosed = false

/-- From `s` to `t` nothing changes but the buffer and the result register of half `b`. -/
def OnlyBuffer (b : Half) (s t : State) : Prop := t = (s.setRing b (t.ring b)).setRes b (t.res b)

/-- From `s` to `t` nothing changes but `RXB`, the result register of the receive half and `OUT_VALID`, and one free
value is used: the output latches of a failed `FRM.RECV` (43_frame_codec.md rule R196). -/
def OnlyRxFailure (s t : State) : Prop :=
  t = { s with rxb := t.rxb, resRx := t.resRx, outValid := false, freeRx := s.freeRx + 1 }

/-- The operation failed with `f` in half `b` and changed nothing else: `RES.status` is `f`, `RES.val` may be anything,
and one free value is used. -/
def FailsUnchanged (b : Half) (f : Status) (s t : State) : Prop :=
  (t.res b).status = f ∧ t = (s.useFree b).setRes b (t.res b)

/-- The only storage byte that changes from `r` to `t` is the one at physical index `k`, which becomes `v`. -/
def StoresAt (k : Nat) (v : Byte) (r t : Ring) : Prop :=
  ∀ a, Memory.read t.mem a = if a = k then v else Memory.read r.mem a

/-- Every storage byte reads in `t` as in `r`. -/
def KeepsStorage (r t : Ring) : Prop := ∀ a, Memory.read t.mem a = Memory.read r.mem a

/-- The agent is inside a `write_reg` or a `read_reg`. -/
def Activity.isRegisterCall : Activity → Bool
  | .writeReg _ _ _ | .readReg _ _ | .callSend _ _ _ | .callDrain _ | .callWait _ _                     => true
  | .request _ | .rxService _ _ _ | .serviceClose | .serviceFail | .serviceRecv _ _ _ | .serviceRoute => false
  | .streamPop | .streamUnpack _ _                                                                      => false

/-- A successful reply with value `v`, and a failing one. -/
def Reply.good (v : RetVal) : Reply := { status := .ok, val := some v }

def Reply.bad (f : Status) : Reply := { status := f, val := none }

/-- The state after the operation returned `r` to its issuer. -/
def State.answered (s : State) (r : Reply) : State := { s with replies := s.replies ++ [r] }

/-- Runs the instructions of a list in order, stopping at the first that does not answer a next state. -/
def execAll : List Instr → State → Result
  | [], s      => .next s
  | i :: is, s =>
    match exec i s with
    | .next t    => execAll is t
    | .fault r   => .fault r
    | .refused r => .refused r

/-- Two states that differ in nothing but where the contents of the two buffers lie in storage and in the storage bytes
outside them, which no operation but `RB.SLICES` can show (10_state.md rule R23). -/
structure Alike (s t : State) : Prop where
  left   : s.Inv
  right  : t.Inv
  rest   : t = { s with txb := t.txb, rxb := t.rxb }
  equal  : ∀ b, t.content b = s.content b

/-! COBS in terms of contents. -/

/-- The chain of a byte sequence (00_scope.md rule R9): index 0, and from an index holding a byte that is not zero the
index that many places on, which may lie past the end. -/
inductive OnChain (w : List Byte) : Nat → Prop where
  | start : OnChain w 0
  | hop {p : Nat} {v : Byte} : OnChain w p → w[p]? = some v → v ≠ 0 → OnChain w (p + v.toNat)

/-- Every storage byte reads in `t` as in `r`, but those at the places below `n` of the chain of the content `w`. -/
def KeepsOffChain (w : List Byte) (n cap : Nat) (r t : Ring) : Prop :=
  ∀ a, (∀ k, k < n → OnChain w k → r.phys cap k ≠ a) → Memory.read t.mem a = Memory.read r.mem a

/-- The byte sequence `w` begins with a frame whose decoded message is `m` and which is followed by `rest` (41_cobs.md
rule R155): the chain reaches the zero behind the message, and the message is what lies between with every chain byte
replaced by zero. -/
structure Decodes (w m rest : List Byte) : Prop where
  lands   : OnChain w (m.length + 1)
  zero    : w[m.length + 1]? = some 0
  chained : ∀ k, k < m.length → OnChain w (k + 1) → m[k]? = some 0
  kept    : ∀ k, k < m.length → ¬OnChain w (k + 1) → m[k]? = w[k + 1]?
  rest    : rest = w.drop (m.length + 2)

/-- The header and payload of a message (30_encoding.md rule R81), which its checksum covers. -/
def messageBody (hasVersion : Bool) (version command : Byte) (data : List Byte) : List Byte :=
  (if hasVersion then [version] else []) ++ command :: data

/-- The two checksum bytes of a message, or none. -/
def checksumBytes (crc : CrcParams) (hasCrc : Bool) (body : List Byte) : List Byte :=
  if hasCrc then bytes16 (crc16 crc body) else []

/-- The output latches that a frame with these fields leaves, whether or not its checksum is right (rules R195, R196). -/
structure Latched (hasVersion : Bool) (version command : Byte) (data : List Byte) (s t : State) : Prop where
  isVersion : t.outVersion = if hasVersion then version else s.outVersion
  isCommand : t.outCommand = command
  isLen     : t.outLen = data.length
  isData    : t.payload = data
  others    : ∀ a, data.length ≤ a → Memory.read t.outData a = Memory.read s.outData a

end Sys2Proof.Machine
end

