-- ==== Sys2Proof/Certificates/Slice0/Obligations.lean ====
section
/-! DEFINITION. The statements about the model. Each docstring names the rules of spec/ that the statement formalises.
"The buffer" is the one that operand `b` names. Premises on the state are its invariant, that the half accepts
operations, and what the rule itself asks for. -/

section

open Sys2Proof Sys2Proof.Machine

/-! Encoding. -/

/-- Every well-formed instruction is read back from its own bytes, alone in its format, and for format OP in front of
any further bytes. Rests on the byte layout of log entry 2. -/
def Obligations.EncodedInstructionsDecodeToThemselves : Prop :=
  ∀ i : Instr, i.wellFormed = true →
    decode i.format (encode i) = .ok i
      ∧ (i.format = .op → ∀ rest, decodeFront (encode i ++ rest) = .ok (i, rest))

/-- Whatever bytes the decoder accepts are the encoding of the instruction it gives, which is well-formed and of that
format: no two byte strings of a format are one instruction. -/
def Obligations.DecodedBytesAreTheEncoding : Prop :=
  ∀ (f : Format) (bs : List Byte) (i : Instr), decode f bs = .ok i →
    i.format = f ∧ i.wellFormed = true ∧ encode i = bs

/-- Lines of 95_test_vectors.md P1 and command bytes of rule R90, written out, decode to what they stand for. -/
def Obligations.WordsFromTheSpecDecode : Prop :=
  decode .op [0x51, 0x00, 0x2A, 0x07, 0x03] = .ok (.pkWrite8 42 7 3)
    ∧ decode .op [0x40, 0x01, 0x01, 0x01, 0x02, 0x03, 0x00, 0x2A, 0x07]
        = .ok (.frmSend true true 0x01 0x02 [0x00, 0x2A, 0x07])
    ∧ decode .op [0x1C, 0x00] = .ok (.rbDrain .tx)
    ∧ decode .op [0x1B, 0x01] = .ok (.rbExtend .rx)
    ∧ decode .op [0x41, 0x00, 0x01, 0x0B] = .ok (.frmRecv false true 11)
    ∧ decode .op [0x61] = .ok .rtRoute
    ∧ decode .op [0x63, 0x01] = .ok (.qPop 1)
    ∧ decode .cmd [0x02] = .ok .cmdRegisterWrite
    ∧ decode .cmd [0x85] = .ok (.cmdStream 5)

/-- The rows of rule R90, each a match value, a mask and a class: every command byte falls under exactly one row, and
the classifier and the decoder of command bytes give that row. -/
def Obligations.CommandBytesFallUnderOneRow : Prop :=
  let rows : List (Byte × Byte × CmdClass × (Byte → Instr)) :=
    [(0x00, 0xFF, .invalid0, fun _ => .cmdInvalid0), (0x01, 0xFF, .registerRead, fun _ => .cmdRegisterRead),
     (0x02, 0xFF, .registerWrite, fun _ => .cmdRegisterWrite), (0x03, 0xFF, .reserved, fun _ => .cmdReserved03),
     (0x04, 0xFC, .reserved, fun x => .cmdReserved04_07 (x.setWidth 2)),
     (0x08, 0xF8, .reserved, fun x => .cmdReserved08_0F (x.setWidth 3)),
     (0x10, 0xF0, .reserved, fun x => .cmdReserved10_1F (x.setWidth 4)),
     (0x20, 0xE0, .reserved, fun x => .cmdReserved20_3F (x.setWidth 5)),
     (0x40, 0xC0, .reserved, fun x => .cmdReserved40_7F (x.setWidth 6)),
     (0x80, 0x80, .stream, fun x => .cmdStream (x.setWidth 7))]
  ∀ x : Byte, ∃ row, rows.filter (fun r => x &&& r.2.1 == r.1) = [row]
    ∧ classify x = row.2.2.1 ∧ decodeCommand x = row.2.2.2 x

/-! The machine as a whole. -/

/-- After reset, with whatever parameters and head draws: both buffers empty with the head inside the buffer, the queues
empty, `OUT_VALID = 0`, `RX_CLOSED = 0`, no `DIAG` record (rule R48). That State.reset takes the default configuration and
both heads at 0 is the model's choice (log entries 5 and 9). -/
def Obligations.ResetLeavesTheBlockEmpty : Prop :=
  State.reset = State.resetWith Config.default 0 0 ∧
  ∀ (cfg : Config) (headTx headRx : Nat),
    let s := State.resetWith cfg headTx headRx
    s.cfg = cfg ∧ s.txb.len = 0 ∧ s.rxb.len = 0
      ∧ s.txb.head < cfg.capTx ∧ (headTx < cfg.capTx → s.txb.head = headTx)
      ∧ s.rxb.head < cfg.capRx ∧ (headRx < cfg.capRx → s.rxb.head = headRx)
      ∧ s.outValid = false ∧ s.rdq = [] ∧ s.waq = [] ∧ s.stq = [] ∧ s.rxClosed = false ∧ s.diag = []

/-- The invariant of rule R21, with the ranges of rules R31 and R35, holds after reset. -/
def Obligations.ResetSatisfiesInvariant : Prop :=
  ∀ (cfg : Config) (headTx headRx : Nat), (State.resetWith cfg headTx headRx).Inv

/-- Every operation and every step keeps the invariant of rule R21 (`len` at most the capacity, `head` below it), the
ranges of the latches (rule R31) and of the queues (rule R35), and the canonical form of storage. -/
def Obligations.EveryStepKeepsInvariant : Prop :=
  (∀ (i : Instr) (s t : State), s.Inv → exec i s = .next t → t.Inv)
    ∧ (∀ s t : State, s.Inv → step s = .next t → t.Inv)

/-- Nothing stops the block: every operation in every state, and every step, answers a next state. That an operation
never traps is rules R260 and R276. That one that is not enabled answers the same state, where rule R240 says of the
router on a full queue that it has no step (U12 "stuck"), is log entry 14, and that a step without a turn answers the same
state is log entry 4: these are the model's choices. -/
def Obligations.NothingStopsTheBlock : Prop :=
  (∀ (i : Instr) (s : State), ∃ t, exec i s = .next t) ∧ (∀ s : State, s.Safe)

/-- A step in which agent `a` issues the bytes of an operation runs exec of it, on the state in which the turn and the
request are used up; an operation that is not enabled leaves the request where it is. Without a turn nothing happens.
The whole of it is the model's scheduling: agendas and turns are log entries 1 and 4, and that a request that is not
enabled stays on the agenda while its turn is used up is log entry 14. -/
def Obligations.StepRunsTheDecodedOperation : Prop :=
  (∀ (s : State) (a : Agent) (turns : List Turn) (bs : List Byte) (later : List Activity) (i : Instr),
    s.turns = .move a :: turns → s.agenda a = .request bs :: later → decode .op bs = .ok i →
      let ready := State.setAgenda { s with turns := turns } a later
      step s = if waits i ready then .next { s with turns := turns } else exec i ready)
    ∧ (∀ s : State, s.turns = [] → step s = .next s)

/-- An operation that is not enabled takes no step: nothing changes (20_memory.md R65, 45_router.md R240, 60_exceptions.md
R293). Not enabled are exactly `RB.EXTEND RX` of an open half with nothing delivered, `RB.DRAIN TX` with bytes to write
and no answer of the transport, and the router on a frame whose queue is full. That answering the same state is what "not
enabled" means here, and when the two transports are not ready, is log entry 14; the router's clause is log entry 15. -/
def Obligations.WaitingChangesNothing : Prop :=
  (∀ (i : Instr) (s : State), waits i s = true → exec i s = .next s)
    ∧ (∀ s : State, (waits (.rbExtend .rx) s = true ↔ s.rxClosed = false ∧ s.rxReads = [])
        ∧ (s.rxClosed = false → s.rxReads = [] → exec (.rbExtend .rx) s = .next s))
    ∧ (∀ s : State, (waits (.rbDrain .tx) s = true ↔ s.content .tx ≠ [] ∧ s.txWrites = [])
        ∧ (s.content .tx ≠ [] → s.txWrites = [] → exec (.rbDrain .tx) s = .next s))
    ∧ (∀ (i : Instr) (s : State), i.format = .op → waits i s = true →
        i = .rbExtend .rx ∨ i = .rbDrain .tx ∨ i = .rtRoute)
    ∧ (∀ s : State, s.rxClosed = false → s.outValid = true →
        (waits .rtRoute s = true ↔
          ∃ d, s.cfg.qDepth = some d ∧
            ((s.outCommand = 0x01 ∧ (s.payload.length = 3 ∨ s.payload.length = 6) ∧ d ≤ s.rdq.length)
              ∨ (s.outCommand = 0x02 ∧ s.payload.length ∈ s.cfg.ackLengths ∧ d ≤ s.waq.length)
              ∨ (0x80 ≤ s.outCommand.toNat ∧ d ≤ s.stq.length))))

/-- The reset event: the block becomes as after reset, with new heads inside the buffers; the environment keeps what it
still has to do and to deliver, and its histories (rules R300, R301; what survives outside the block is log entry 20).
Equality with `State.resetWith` also fixes what rule R48 and U4 leave without a value: the result registers and the
latches are at the values of log entry 9, the storage is empty as in log entry 10, and the heads are draws by log
entry 8. These are the model's choices. -/
def Obligations.ResetEventRestoresTheBlock : Prop :=
  ∀ (s : State) (turns : List Turn), s.turns = .reset :: turns →
    ∃ t headTx headRx, step s = .next t ∧ headTx < s.cfg.capTx ∧ headRx < s.cfg.capRx
      ∧ (let r := State.resetWith s.cfg headTx headRx
         t = { r with
            rxReads := s.rxReads, txWrites := s.txWrites, txStream := s.txStream, replies := s.replies,
            client := s.client, receiver := s.receiver, consumer := s.consumer, turns := turns,
            elapsed := s.elapsed, callResults := s.callResults,
            drawsTx := t.drawsTx, drawsRx := t.drawsRx, freeTx := t.freeTx, freeRx := t.freeRx })

/-- Operations of different halves commute (rule R65). -/
def Obligations.HalvesCommute : Prop :=
  ∀ (i j : Instr) (s t u : State), i.half = some .tx → j.half = some .rx →
    exec i s = .next t → exec j t = .next u →
      ∃ t', exec j s = .next t' ∧ exec i t' = .next u

/-- What each kind of operation can write at all (rules R10, R24, R30, R35, R41): a transmit-half operation only its
half and its port; a receive-half operation only its half and its port; a pure operation only the answer to its issuer;
`Q.POP` that and the queues. -/
def Obligations.OperationsStayInTheirHalf : Prop :=
  ∀ (i : Instr) (s t : State), exec i s = .next t →
    (i.half = some .tx →
        t = { s with
          txb := t.txb, resTx := t.resTx, txWrites := t.txWrites, txStream := t.txStream, drawsTx := t.drawsTx,
          freeTx := t.freeTx })
      ∧ (i.half = some .rx →
        t = { s with
          rxb := t.rxb, resRx := t.resRx, outVersion := t.outVersion, outCommand := t.outCommand,
          outLen := t.outLen, outData := t.outData, outValid := t.outValid, rdq := t.rdq, waq := t.waq,
          stq := t.stq, rxClosed := t.rxClosed, diag := t.diag, rxReads := t.rxReads, drawsRx := t.drawsRx,
          freeRx := t.freeRx })
      ∧ (i.half = none →
        (∀ q, i ≠ .qPop q) → ∃ r, t = s.answered r)
      ∧ (∀ q, i = .qPop q →
        ∃ r, t = { s.answered r with rdq := t.rdq, waq := t.waq, stq := t.stq })

/-- Each queue is first in first out, with one producer and one remover (rules R35, R69, R241): an operation leaves a queue as it
was, or is the router and appends one entry at the tail, or is `Q.POP` and removes the head; and `DIAG` only grows, by
the router alone among the operations (rule R41). -/
def Obligations.QueuesAreFifo : Prop :=
  ∀ (i : Instr) (s t : State), exec i s = .next t →
    let routes : Prop := i = .rtRoute ∨ i.format = .cmd
    (t.rdq = s.rdq ∨ (routes ∧ ∃ e, t.rdq = s.rdq ++ [e]) ∨ (i = .qPop 0 ∧ ∃ e, s.rdq = e :: t.rdq))
      ∧ (t.waq = s.waq ∨ (routes ∧ ∃ e, t.waq = s.waq ++ [e]) ∨ (i = .qPop 1 ∧ ∃ e, s.waq = e :: t.waq))
      ∧ (t.stq = s.stq ∨ (routes ∧ ∃ e, t.stq = s.stq ++ [e]) ∨ (i = .qPop 2 ∧ ∃ e, s.stq = e :: t.stq))
      ∧ (t.diag = s.diag ∨ (routes ∧ ∃ r, t.diag = s.diag ++ [r]))

/-- `OUT_VALID` (rules R31, R34): a `FRM.RECV` that is not refused leaves it 1 exactly when it ended `OK`; the router that
consumes a frame leaves it 0; no other operation writes it. -/
def Obligations.OutValidMarksAReceivedFrame : Prop :=
  (∀ (hv hc : Bool) (dstCap : Nat) (s t : State), s.rxClosed = false → exec (.frmRecv hv hc dstCap) s = .next t →
      (t.outValid = true ↔ t.resRx.status = .ok))
    ∧ (∀ s t : State, s.rxClosed = false → waits .rtRoute s = false → exec .rtRoute s = .next t → t.outValid = false)
    ∧ (∀ (i : Instr) (s t : State), exec i s = .next t → i.format = .op → i ≠ .rtRoute →
        (∀ hv hc dstCap, i ≠ .frmRecv hv hc dstCap) → t.outValid = s.outValid)

/-- The seam is invisible (rules R21, R23, R323): from two states that differ only in where the contents lie in storage,
every operation but `RB.SLICES` gives the same results and the same contents. -/
def Obligations.SeamIsInvisible : Prop :=
  ∀ (i : Instr) (s s' t t' : State), (∀ b, i ≠ .rbSlices b) → Alike s s' →
    exec i s = .next t → exec i s' = .next t' → Alike t t'

/-- The codes of rule R261, by which the 8 bits of `RES.status` stand for a status: the 20 rows of its table, which are all
the statuses there are, and no code stands for two. -/
def Obligations.StatusCodesAreThoseOfTheTable : Prop :=
  let table : List (Status × Nat) :=
    [(.ok, 0), (.payloadTooLarge, 1), (.destTooSmall, 2), (.cobsEmpty, 3), (.cobsOverflow, 4), (.tooShort, 5),
     (.noTerminator, 6), (.emptyFrame, 7), (.frameTooShort, 8), (.noSuchElement, 9), (.checksumMismatch, 10),
     (.unexpectedCommand, 11), (.malformedPayload, 12), (.unsupportedFormat, 13), (.transportFailure, 14),
     (.closed, 15), (.empty, 16), (.nothingToRoute, 17), (.badOperation, 18), (.timeout, 19)]
  (∀ row ∈ table, row.1.code.toNat = row.2) ∧ (∀ f : Status, ∃ n, (f, n) ∈ table)
    ∧ (∀ f g : Status, f.code = g.code → f = g)

/-! Requests that are refused. -/

/-- Rules R100 and R271: `BadOperation` for a selector outside the table, `RB.EXTEND TX`, `RB.DRAIN RX` and `Q.POP` with
`q = 3`; it goes to the result register of the half the operand `b` names, else to the issuer; nothing else changes. That
an unknown selector names a half by its first operand byte, 0 or 1, is the model's choice (log entry 12). -/
def Obligations.UnknownRequestsChangeNothing : Prop :=
  (∀ (s : State) (a : Agent) (turns : List Turn) (sel : Byte) (operands : List Byte) (later : List Activity),
      sel.toNat < 0x10 ∨ (0x1D ≤ sel.toNat ∧ sel.toNat < 0x20) ∨ (0x22 ≤ sel.toNat ∧ sel.toNat < 0x30)
        ∨ (0x31 ≤ sel.toNat ∧ sel.toNat < 0x40) ∨ (0x42 ≤ sel.toNat ∧ sel.toNat < 0x50)
        ∨ (0x56 ≤ sel.toNat ∧ sel.toNat < 0x60) ∨ 0x66 ≤ sel.toNat →
      s.turns = .move a :: turns → s.agenda a = .request (sel :: operands) :: later →
        decode .op (sel :: operands) = .error (.unknownSelector sel)
          ∧ (let ready := State.setAgenda { s with turns := turns } a later
             (operands.head? = some 0 → ∃ t, step s = .next t ∧ FailsUnchanged .tx .badOperation ready t)
              ∧ (operands.head? = some 1 → ∃ t, step s = .next t ∧ FailsUnchanged .rx .badOperation ready t)
              ∧ (operands.head? ≠ some 0 → operands.head? ≠ some 1 →
                  step s = .next (ready.answered (Reply.bad .badOperation)))))
    ∧ (∀ s : State, ∃ t, exec (.rbExtend .tx) s = .next t ∧ FailsUnchanged .tx .badOperation s t)
    ∧ (∀ s : State, ∃ t, exec (.rbDrain .rx) s = .next t ∧ FailsUnchanged .rx .badOperation s t)
    ∧ (∀ s : State, exec (.qPop 3) s = .next (s.answered (Reply.bad .badOperation)))

/-- Rule R270: with `RX_CLOSED = 1` every receive-half operation ends with `Closed` and changes nothing, and so does
`RX.SERVICE`; only `RB.DRAIN RX` is `BadOperation` still (rule R264), and `RT.CLOSE` ends `OK`. `Q.POP` delivers what is
queued and answers `Closed` on an empty queue. Transmit-half and pure operations do what they do with an open half. -/
def Obligations.ClosedHalfRefuses : Prop :=
  (∀ (i : Instr) (s : State), s.rxClosed = true → i.half = some .rx → i ≠ .rtClose → i ≠ .rbDrain .rx →
      ∃ t, exec i s = .next t ∧ FailsUnchanged .rx .closed s t)
    ∧ (∀ s : State, s.rxClosed = true → ∃ t, exec (.rbDrain .rx) s = .next t ∧ FailsUnchanged .rx .badOperation s t)
    ∧ (∀ s : State, s.rxClosed = true →
        exec .rtClose s = .next { s with resRx := { status := .ok, val := s.resRx.val } })
    ∧ (∀ (hv hc : Bool) (dstCap : Nat) (a : Agent) (turns : List Turn) (later : List Activity) (s : State),
        s.rxClosed = true → s.turns = .move a :: turns → s.agenda a = .rxService hv hc dstCap :: later →
          ∃ t, step s = .next t ∧ FailsUnchanged .rx .closed (State.setAgenda { s with turns := turns } a later) t)
    ∧ (∀ s : State, s.rxClosed = true →
        (s.rdq = [] → exec (.qPop 0) s = .next (s.answered (Reply.bad .closed)))
          ∧ (s.waq = [] → exec (.qPop 1) s = .next (s.answered (Reply.bad .closed)))
          ∧ (s.stq = [] → exec (.qPop 2) s = .next (s.answered (Reply.bad .closed)))
          ∧ (∀ reg value es, s.rdq = (reg, value) :: es →
              exec (.qPop 0) s = .next { s.answered (Reply.good (.regVal reg value)) with rdq := es })
          ∧ (∀ reg es, s.waq = reg :: es →
              exec (.qPop 1) s = .next { s.answered (Reply.good (.reg reg)) with waq := es })
          ∧ (∀ x p es, s.stq = (x, p) :: es →
              exec (.qPop 2) s = .next { s.answered (Reply.good (.command x p)) with stq := es }))
    ∧ (∀ (i : Instr) (s t : State), i.half = some .tx ∨ (i.half = none ∧ ∀ q, i ≠ .qPop q) →
        exec i s = .next t → exec i { s with rxClosed := true } = .next { t with rxClosed := true })

/-- `RX_CLOSED`. `RT.CLOSE` (rule R243) sets it, closed already or not, and the content of buffer, latches and queues
stays. It is permanent (rules R34, R325): among the operations only `RT.CLOSE` changes it, and a step clears it only by a
reset event. -/
def Obligations.ClosedStateIsPermanent : Prop :=
  (encode .rtClose).head? = some 0x62
    ∧ (∀ s : State, exec .rtClose s
        = .next { s with rxClosed := true, resRx := { status := .ok, val := s.resRx.val } })
    ∧ (∀ (i : Instr) (s t : State), exec i s = .next t → i ≠ .rtClose → t.rxClosed = s.rxClosed)
    ∧ (∀ s t : State, s.rxClosed = true → s.turns.head? ≠ some .reset → step s = .next t → t.rxClosed = true)
    ∧ (∀ s t : State, s.turns.head? = some .reset → step s = .next t → t.rxClosed = false)

/-! Ring buffer operations. -/

/-- `RB.PUSH_BACK` (rule R120). -/
def Obligations.PushBackAppends : Prop :=
  ∀ (b : Half) (v : Byte), (encode (.rbPushBack b v)).head? = some 0x10 ∧
  ∀ s : State, s.Inv → s.accepts b →
    ∃ t, exec (.rbPushBack b v) s = .next t ∧ OnlyBuffer b s t
      ∧ t.res b = { status := .ok, val := (s.res b).val }
      ∧ StoresAt ((s.ring b).backSlot (s.cap b)) v (s.ring b) (t.ring b)
      ∧ ((s.ring b).len < s.cap b →
          (s.ring b).backSlot (s.cap b) = ((s.ring b).head + (s.ring b).len) % s.cap b
            ∧ (t.ring b).head = (s.ring b).head ∧ (t.ring b).len = (s.ring b).len + 1
            ∧ t.content b = s.content b ++ [v])
      ∧ ((s.ring b).len = s.cap b →
          (s.ring b).backSlot (s.cap b) = (s.ring b).head
            ∧ (t.ring b).head = ((s.ring b).head + 1) % s.cap b ∧ (t.ring b).len = s.cap b
            ∧ t.content b = (s.content b).tail ++ [v])

/-- `RB.PUSH_FRONT` (rule R121). -/
def Obligations.PushFrontPrepends : Prop :=
  ∀ (b : Half) (v : Byte), (encode (.rbPushFront b v)).head? = some 0x11 ∧
  ∀ s : State, s.Inv → s.accepts b →
    ∃ t, exec (.rbPushFront b v) s = .next t ∧ OnlyBuffer b s t
      ∧ t.res b = { status := .ok, val := (s.res b).val }
      ∧ (s.ring b).frontSlot (s.cap b) = ((s.ring b).head + s.cap b - 1) % s.cap b
      ∧ StoresAt ((s.ring b).frontSlot (s.cap b)) v (s.ring b) (t.ring b)
      ∧ (t.ring b).head = (s.ring b).frontSlot (s.cap b)
      ∧ ((s.ring b).len < s.cap b → (t.ring b).len = (s.ring b).len + 1 ∧ t.content b = v :: s.content b)
      ∧ ((s.ring b).len = s.cap b → (t.ring b).len = s.cap b ∧ t.content b = v :: (s.content b).dropLast)

/-- `RB.POP_FRONT` (rule R122). -/
def Obligations.PopFrontRemovesTheFirstByte : Prop :=
  ∀ b : Half, (encode (.rbPopFront b)).head? = some 0x12 ∧
  ∀ s : State, s.Inv → s.accepts b →
    (s.content b = [] → ∃ t, exec (.rbPopFront b) s = .next t ∧ FailsUnchanged b .noSuchElement s t)
      ∧ (∀ (x : Byte) (xs : List Byte), s.content b = x :: xs →
          ∃ t, exec (.rbPopFront b) s = .next t ∧ OnlyBuffer b s t
            ∧ t.res b = { status := .ok, val := .num x.toNat }
            ∧ t.content b = xs ∧ KeepsStorage (s.ring b) (t.ring b)
            ∧ (t.ring b).head = ((s.ring b).head + 1) % s.cap b ∧ (t.ring b).len = (s.ring b).len - 1)

/-- `RB.POP_BACK` (rule R123). -/
def Obligations.PopBackRemovesTheLastByte : Prop :=
  ∀ b : Half, (encode (.rbPopBack b)).head? = some 0x13 ∧
  ∀ s : State, s.Inv → s.accepts b →
    (s.content b = [] → ∃ t, exec (.rbPopBack b) s = .next t ∧ FailsUnchanged b .noSuchElement s t)
      ∧ (∀ (x : Byte) (xs : List Byte), s.content b = xs ++ [x] →
          ∃ t, exec (.rbPopBack b) s = .next t ∧ OnlyBuffer b s t
            ∧ t.res b = { status := .ok, val := .num x.toNat }
            ∧ t.content b = xs ∧ KeepsStorage (s.ring b) (t.ring b)
            ∧ (t.ring b).head = (s.ring b).head ∧ (t.ring b).len = (s.ring b).len - 1)

/-- `RB.GET` (rule R124). -/
def Obligations.GetReadsTheIndexedByte : Prop :=
  ∀ (b : Half) (i : Nat), (encode (.rbGet b i)).head? = some 0x14 ∧
  ∀ s : State, s.accepts b →
    ((s.content b).length ≤ i → ∃ t, exec (.rbGet b i) s = .next t ∧ FailsUnchanged b .noSuchElement s t)
      ∧ (∀ x : Byte, (s.content b)[i]? = some x →
          exec (.rbGet b i) s = .next (s.setRes b { status := .ok, val := .num x.toNat }))

/-- `RB.SET` (rule R125). -/
def Obligations.SetOverwritesTheIndexedByte : Prop :=
  ∀ (b : Half) (i : Nat) (v : Byte), (encode (.rbSet b i v)).head? = some 0x15 ∧
  ∀ s : State, s.Inv → s.accepts b →
    ((s.ring b).len ≤ i → ∃ t, exec (.rbSet b i v) s = .next t ∧ FailsUnchanged b .noSuchElement s t)
      ∧ (i < (s.ring b).len →
          ∃ t, exec (.rbSet b i v) s = .next t ∧ OnlyBuffer b s t
            ∧ t.res b = { status := .ok, val := (s.res b).val }
            ∧ t.content b = (s.content b).set i v
            ∧ StoresAt ((s.ring b).phys (s.cap b) i) v (s.ring b) (t.ring b)
            ∧ (s.ring b).phys (s.cap b) i = ((s.ring b).head + i) % s.cap b
            ∧ (t.ring b).head = (s.ring b).head ∧ (t.ring b).len = (s.ring b).len)

/-- `RB.LEN`, `RB.CAP`, `RB.IS_FULL` (rules R126, R127, R128). -/
def Obligations.LengthCapacityAndFullness : Prop :=
  ∀ b : Half,
    (encode (.rbLen b)).head? = some 0x16 ∧ (encode (.rbCap b)).head? = some 0x17
      ∧ (encode (.rbIsFull b)).head? = some 0x18 ∧
  ∀ s : State, s.accepts b →
    exec (.rbLen b) s = .next (s.setRes b { status := .ok, val := .num (s.ring b).len })
      ∧ (s.content b).length = (s.ring b).len
      ∧ (s.Inv → (s.ring b).len ≤ s.cap b)
      ∧ exec (.rbCap b) s = .next (s.setRes b { status := .ok, val := .num (s.cap b) })
      ∧ (∀ (i : Instr) (t : State), exec i s = .next t → t.cap b = s.cap b)
      ∧ exec (.rbIsFull b) s
          = .next (s.setRes b { status := .ok, val := .num (if (s.ring b).len = s.cap b then 1 else 0) })

/-- `RB.CLEAR`: the buffer is empty and the new head is some value below the capacity, which is all that rules R129 and R23
say of it. That this value is the next number on the environment's list of draws when there is one, and that the list or a
counter is used up by it (`State.afterDraw`), is log entry 8 (DESIGN CHOICE). -/
def Obligations.ClearEmptiesTheBuffer : Prop :=
  ∀ b : Half, (encode (.rbClear b)).head? = some 0x19 ∧
  ∀ s : State, s.Inv → s.accepts b →
    ∃ t, exec (.rbClear b) s = .next t
      ∧ t = ((s.afterDraw b).setRing b (t.ring b)).setRes b { status := .ok, val := (s.res b).val }
      ∧ (t.ring b).len = 0 ∧ t.content b = [] ∧ (t.ring b).head < s.cap b ∧ KeepsStorage (s.ring b) (t.ring b)
      ∧ (∀ d ds, s.draws b = d :: ds → d < s.cap b → (t.ring b).head = d)

/-- The overwrite law (rule R130): after any number of pushes at the back, the content is the last `CAP` bytes, or all,
of the old content followed by what was pushed; after at least `CAP` pushes, the last `CAP` of what was pushed. -/
def Obligations.PushesKeepTheLastBytes : Prop :=
  ∀ (b : Half) (bs : List Byte) (s : State), s.Inv → s.accepts b →
    ∃ t, execAll (bs.map (Instr.rbPushBack b)) s = .next t
      ∧ t.content b = (s.content b ++ bs).drop ((s.content b).length + bs.length - s.cap b)
      ∧ (s.cap b ≤ bs.length → t.content b = bs.drop (bs.length - s.cap b))

/-- `RB.SLICES` (rule R131, and rule R22 for what the two slices are). -/
def Obligations.SlicesCoverTheContent : Prop :=
  ∀ b : Half, (encode (.rbSlices b)).head? = some 0x1A ∧
  ∀ s : State, s.Inv → s.accepts b →
    ∃ first second : Nat,
      exec (.rbSlices b) s = .next (s.setRes b { status := .ok, val := .pair first second })
        ∧ first = min (s.ring b).len (s.cap b - (s.ring b).head) ∧ second = (s.ring b).len - first
        ∧ s.content b = Memory.readSeq (s.ring b).mem (s.ring b).head first
            ++ Memory.readSeq (s.ring b).mem 0 second
        ∧ ((s.ring b).head + (s.ring b).len ≤ s.cap b → second = 0)
        ∧ ((s.ring b).len ≠ 0 → 1 ≤ first)

/-- `RB.EXTEND` (rule R132). A failed read leaves the buffer alone; a read that delivers bytes pushes all of them, so the
oldest are lost when there is no room, and touches no storage but the places pushed to. -/
def Obligations.ExtendPushesWhatTheReadDelivers : Prop :=
  (∀ b : Half, (encode (.rbExtend b)).head? = some 0x1B)
    ∧ (∀ s : State, ∃ t, exec (.rbExtend .tx) s = .next t ∧ FailsUnchanged .tx .badOperation s t)
    ∧ (∀ (s : State) (rs : List ReadOutcome), s.rxClosed = false → s.rxReads = .failed :: rs →
        ∃ t, exec (.rbExtend .rx) s = .next t ∧ FailsUnchanged .rx .transportFailure { s with rxReads := rs } t)
    ∧ (∀ (s : State) (x : Byte) (xs : List Byte) (rs : List ReadOutcome), s.Inv → s.rxClosed = false →
        s.rxReads = .bytes x xs :: rs →
          ∃ t, exec (.rbExtend .rx) s = .next t ∧ OnlyBuffer .rx { s with rxReads := rs } t
            ∧ t.resRx = { status := .ok, val := .num (x :: xs).length }
            ∧ t.content .rx = (s.content .rx ++ x :: xs).drop
                ((s.content .rx).length + (x :: xs).length - s.cfg.capRx)
            ∧ ∀ a, (∀ j, j < (x :: xs).length → s.rxb.phys s.cfg.capRx (s.rxb.len + j) ≠ a) →
                Memory.read t.rxb.mem a = Memory.read s.rxb.mem a)

/-- `RB.DRAIN` (rule R133): what is written is the content, front first; after a failed write the buffer holds the
suffix that the transport did not take, and any suffix is possible (U6). That an empty buffer uses up no write outcome is
log entry 23. That a failed write has put the prefix taken on `TX_STREAM` and leaves the storage bytes is log entry 24. -/
def Obligations.DrainWritesTheContent : Prop :=
  (∀ b : Half, (encode (.rbDrain b)).head? = some 0x1C)
    ∧ (∀ s : State, ∃ t, exec (.rbDrain .rx) s = .next t ∧ FailsUnchanged .rx .badOperation s t)
    ∧ (∀ s : State, s.content .tx = [] →
        exec (.rbDrain .tx) s = .next { s with resTx := { status := .ok, val := .num 0 } })
    ∧ (∀ (s : State) (ws : List WriteOutcome), s.Inv → s.content .tx ≠ [] → s.txWrites = .completed :: ws →
        ∃ t, exec (.rbDrain .tx) s = .next t
          ∧ OnlyBuffer .tx { s with txWrites := ws, txStream := s.txStream ++ s.content .tx } t
          ∧ t.resTx = { status := .ok, val := .num (s.content .tx).length }
          ∧ t.content .tx = [] ∧ t.txb.head = (s.txb.head + s.txb.len) % s.cfg.capTx ∧ KeepsStorage s.txb t.txb)
    ∧ (∀ (s : State) (taken : Nat) (ws : List WriteOutcome), s.Inv → s.content .tx ≠ [] →
        s.txWrites = .failed taken :: ws →
          ∃ t, exec (.rbDrain .tx) s = .next t
            ∧ t = { s with
                txb := t.txb, resTx := t.resTx, txWrites := ws,
                txStream := s.txStream ++ (s.content .tx).take taken, freeTx := s.freeTx + 1 }
            ∧ t.resTx.status = .transportFailure
            ∧ t.content .tx = (s.content .tx).drop taken ∧ KeepsStorage s.txb t.txb)

/-! COBS. -/

/-- The encoding as rule R150 defines it, on `[0] ++ m ++ [0]`. -/
def Obligations.CobsReplacesZerosByDistances : Prop :=
  ∀ m : List Byte, m ≠ [] →
    let a := 0 :: m ++ [0]
    (cobs m).length = m.length + 2
      ∧ (∀ k j, k ≤ m.length → k < j → a[k]? = some 0 → a[j]? = some 0 →
          (∀ l, k < l → l < j → a[l]? ≠ some 0) → (cobs m)[k]? = some (BitVec.ofNat 8 (j - k)))
      ∧ (∀ k x, k ≤ m.length → a[k]? = some x → x ≠ 0 → (cobs m)[k]? = some x)
      ∧ (cobs m)[m.length + 1]? = some 0

/-- What follows from it (rule R151) for a message that fits a buffer: no zero but the last byte, the chain visits
exactly the places of the zeros, and no two messages have one encoding. -/
def Obligations.CobsHidesEveryZero : Prop :=
  ∀ m : List Byte, m.length + 2 ≤ 256 →
    (∀ k, (cobs m)[k]? = some 0 ↔ k = m.length + 1)
      ∧ (∀ k, OnChain (cobs m) k ↔ (0 :: m ++ [0])[k]? = some 0)
      ∧ (∀ n : List Byte, n.length + 2 ≤ 256 → cobs n = cobs m → n = m)

/-- `COBS.ENC` (rule R152): the content becomes its encoding; no storage is touched outside the new content. -/
def Obligations.CobsEncWritesTheEncoding : Prop :=
  ∀ b : Half, (encode (.cobsEnc b)).head? = some 0x20 ∧
  ∀ s : State, s.Inv → s.accepts b →
    (s.content b = [] → ∃ t, exec (.cobsEnc b) s = .next t ∧ FailsUnchanged b .cobsEmpty s t)
      ∧ (s.content b ≠ [] → s.cap b < (s.content b).length + 2 →
          ∃ t, exec (.cobsEnc b) s = .next t ∧ FailsUnchanged b .cobsOverflow s t)
      ∧ (s.content b ≠ [] → (s.content b).length + 2 ≤ s.cap b →
          ∃ t, exec (.cobsEnc b) s = .next t ∧ OnlyBuffer b s t
            ∧ t.res b = { status := .ok, val := .num ((s.content b).length + 2) }
            ∧ t.content b = cobs (s.content b)
            ∧ (t.ring b).head = ((s.ring b).head + s.cap b - 1) % s.cap b
            ∧ ∀ a, (∀ k, k < (t.ring b).len → (t.ring b).phys (s.cap b) k ≠ a) →
                Memory.read (t.ring b).mem a = Memory.read (s.ring b).mem a)

/-- `COBS.DEC` when the chain lands on a zero behind index 0 (rule R155): the overhead byte goes, every other chain byte
becomes zero, everything else stays, and the result is the index of the terminator. -/
def Obligations.CobsDecUndoesTheChain : Prop :=
  ∀ b : Half, (encode (.cobsDec b)).head? = some 0x21 ∧
  ∀ (s : State) (d : Nat), s.Inv → s.accepts b → 3 ≤ (s.content b).length →
    1 ≤ d → OnChain (s.content b) d → (s.content b)[d]? = some 0 →
      ∃ t, exec (.cobsDec b) s = .next t ∧ OnlyBuffer b s t
        ∧ t.res b = { status := .ok, val := .num d }
        ∧ (t.content b).length = (s.content b).length - 1
        ∧ (∀ k, k + 1 < (s.content b).length → OnChain (s.content b) (k + 1) → (t.content b)[k]? = some 0)
        ∧ (∀ k, ¬OnChain (s.content b) (k + 1) → (t.content b)[k]? = (s.content b)[k + 1]?)
        ∧ KeepsOffChain (s.content b) d (s.cap b) (s.ring b) (t.ring b)

/-- `COBS.DEC` fails with `TooShort` below three bytes (rule R156), with `EmptyFrame` on a leading zero, which it removes
(rule R158), and with `NoTerminator` when the chain leaves the content, having zeroed what it visited and no other byte of
storage (rule R157); and one of these or the success of rule R155 is the case in every state (rule R159 d). -/
def Obligations.CobsDecFailsOnWhatIsNoFrame : Prop :=
  ∀ (b : Half) (s : State), s.Inv → s.accepts b →
    ((s.content b).length < 3 → ∃ t, exec (.cobsDec b) s = .next t ∧ FailsUnchanged b .tooShort s t)
      ∧ (∀ xs, s.content b = 0 :: xs → 2 ≤ xs.length →
          ∃ t, exec (.cobsDec b) s = .next t ∧ OnlyBuffer b (s.useFree b) t
            ∧ (t.res b).status = .emptyFrame ∧ t.content b = xs ∧ KeepsStorage (s.ring b) (t.ring b))
      ∧ (∀ q, 3 ≤ (s.content b).length → OnChain (s.content b) q → (s.content b).length ≤ q →
          ∃ t, exec (.cobsDec b) s = .next t ∧ OnlyBuffer b (s.useFree b) t
            ∧ (t.res b).status = .noTerminator
            ∧ (t.content b).length = (s.content b).length
            ∧ (∀ k, k < (s.content b).length → OnChain (s.content b) k → (t.content b)[k]? = some 0)
            ∧ (∀ k, ¬OnChain (s.content b) k → (t.content b)[k]? = (s.content b)[k]?)
            ∧ KeepsOffChain (s.content b) (s.content b).length (s.cap b) (s.ring b) (t.ring b))
      ∧ (s.content b ≠ [] →
          ∃ q, OnChain (s.content b) q ∧ ((s.content b)[q]? = some 0 ∨ (s.content b).length ≤ q))

/-- Encoding and then decoding (rule R160): a message of any bytes comes back, with the terminator and whatever followed
the frame behind it. -/
def Obligations.CobsRoundTrip : Prop :=
  ∀ (b : Half) (m rest : List Byte) (s : State), s.Inv → s.accepts b → m ≠ [] →
    m.length + 2 + rest.length ≤ s.cap b →
      (s.content b = m → ∃ t, exec (.cobsEnc b) s = .next t ∧ (t.res b).status = .ok ∧ t.content b = cobs m)
        ∧ (s.content b = cobs m ++ rest →
            ∃ t, exec (.cobsDec b) s = .next t ∧ t.res b = { status := .ok, val := .num (m.length + 1) }
              ∧ t.content b = m ++ 0 :: rest)

/-! Checksum. -/

/-- `CRC.CALC` (rule R174; the value for no bytes is that of the parameters of rule R171, log entry 6). What the checksum
is for other parameters is log entry 26. -/
def Obligations.CrcCalcReadsTheFirstBytes : Prop :=
  ∀ (b : Half) (n : Nat), (encode (.crcCalc b n)).head? = some 0x30 ∧
  ∀ s : State, s.accepts b →
    ((s.content b).length < n → ∃ t, exec (.crcCalc b n) s = .next t ∧ FailsUnchanged b .noSuchElement s t)
      ∧ (n ≤ (s.content b).length →
          exec (.crcCalc b n) s
            = .next (s.setRes b { status := .ok, val := .num (crc16 s.cfg.crc ((s.content b).take n)).toNat }))
      ∧ (s.cfg.crc = CrcParams.dnp → crc16 s.cfg.crc [] = 0xFFFF)

/-- The checksum of the model, most significant bit first, is the loop that rule R172 writes out, for every byte
sequence. The parameters are those of log entry 6. -/
def Obligations.ChecksumIsTheReflectedLoop : Prop :=
  ∀ bs : List Byte, crc16 CrcParams.dnp bs = reflectedCrc16 bs

/-- Leading zero bytes do not change the checksum, and the listed values (rule R177; log entry 6). -/
def Obligations.ChecksumIsBlindToLeadingZeros : Prop :=
  (∀ (n : Nat) (bs : List Byte), crc16 CrcParams.dnp (List.replicate n 0 ++ bs) = crc16 CrcParams.dnp bs)
    ∧ (∀ n : Nat, crc16 CrcParams.dnp (List.replicate n 0) = 0xFFFF)
    ∧ crc16 CrcParams.dnp [0x01] = 0xC9A1 ∧ crc16 CrcParams.dnp [0xFF] = 0xEDCA
    ∧ crc16 CrcParams.dnp [0x31, 0x32, 0x33, 0x34, 0x35, 0x36, 0x37, 0x38, 0x39] = 0xEA82

/-- A frame with checksum in which one byte off the COBS chain, between the overhead byte and the terminator, was changed
to any other byte is never delivered: `ChecksumMismatch`, and the frame is gone (rule R178 a; log entry 6). -/
def Obligations.OneChangedByteIsDetected : Prop :=
  ∀ (hv : Bool) (version command : Byte) (data rest : List Byte) (dstCap k : Nat) (x : Byte) (s : State),
    let w := cobs (message CrcParams.dnp hv true version command data)
    s.Inv → s.rxClosed = false → s.cfg.crc = CrcParams.dnp →
    s.cfg.capRx ≤ dstCap + frameOverhead hv true →
    k + 1 < w.length → ¬OnChain w k → w[k]? ≠ some x → s.content .rx = w.set k x ++ rest →
      ∃ t, exec (.frmRecv hv true dstCap) s = .next t ∧ t.resRx.status = .checksumMismatch
        ∧ t.outValid = false ∧ t.content .rx = rest

/-! Frame codec. -/

/-- `FRM.SEND` (rule R190): `TXB` holds the encoding of the message of rule R81; a payload above the maximum is refused
before anything changes, and the largest payload fills the buffer (rule R199). The checksum is the model's function of the
parameters of the instance (rule R170); what it is for parameters other than those of rule R171 is log entry 26. What the
draw of the head inside the operation uses up (`State.afterDraw`) is log entry 8 (DESIGN CHOICE). -/
def Obligations.SendBuildsTheFrame : Prop :=
  ∀ (hv hc : Bool) (version command : Byte) (data : List Byte),
    (encode (.frmSend hv hc version command data)).head? = some 0x40 ∧
  ∀ s : State, s.Inv →
    (s.cfg.capTx < data.length + frameOverhead hv hc →
        ∃ t, exec (.frmSend hv hc version command data) s = .next t ∧ FailsUnchanged .tx .payloadTooLarge s t)
      ∧ (data.length + frameOverhead hv hc ≤ s.cfg.capTx →
          ∃ t, exec (.frmSend hv hc version command data) s = .next t
            ∧ OnlyBuffer .tx (s.afterDraw .tx) t
            ∧ t.resTx = { status := .ok, val := .num (data.length + frameOverhead hv hc) }
            ∧ (data.length + frameOverhead hv hc = s.cfg.capTx → t.txb.len = s.cfg.capTx)
            ∧ t.content .tx = cobs (messageBody hv version command data
                ++ checksumBytes s.cfg.crc hc (messageBody hv version command data))
            ∧ ∀ a, (∀ k, k < t.txb.len → t.txb.phys s.cfg.capTx k ≠ a) →
                Memory.read t.txb.mem a = Memory.read s.txb.mem a)

/-- `FRM.RECV` on a frame whose checksum is right, or that carries none (rule R195): the fields are in the latches,
`OUT_VALID` is 1, exactly the frame is gone from `RXB`, and storage changed only at chain places of the frame. That
`OUT_DATA` past the payload stays, which `Latched` says, is log entry 19; the checksum for parameters other than those of
rule R171 is log entry 26. -/
def Obligations.RecvDeliversTheFrame : Prop :=
  ∀ (hv hc : Bool) (dstCap : Nat), (encode (.frmRecv hv hc dstCap)).head? = some 0x41 ∧
  ∀ (version command : Byte) (data rest : List Byte) (s : State),
    s.Inv → s.rxClosed = false → s.cfg.capRx ≤ dstCap + frameOverhead hv hc →
    Decodes (s.content .rx)
        (messageBody hv version command data ++ checksumBytes s.cfg.crc hc (messageBody hv version command data)) rest →
      ∃ t, exec (.frmRecv hv hc dstCap) s = .next t
        ∧ t = { s with
            rxb := t.rxb, resRx := t.resRx, outVersion := t.outVersion, outCommand := t.outCommand,
            outLen := t.outLen, outData := t.outData, outValid := true }
        ∧ t.resRx = { status := .ok, val := .num data.length }
        ∧ Latched hv version command data s t ∧ t.content .rx = rest
        ∧ KeepsOffChain (s.content .rx) (data.length + frameOverhead hv hc) s.cfg.capRx s.rxb t.rxb

/-- The state after each failure of `FRM.RECV` (rule R196), in the order in which they are tested; of the storage only
places of the chain change. That `OUT_DATA` past the payload stays is log entry 19; the checksum for parameters other than
those of rule R171 is log entry 26. -/
def Obligations.RecvFailuresLeaveWhatTheTableSays : Prop :=
  ∀ (hv hc : Bool) (dstCap : Nat) (s : State),
    (s.rxClosed = true → ∃ t, exec (.frmRecv hv hc dstCap) s = .next t ∧ FailsUnchanged .rx .closed s t)
      ∧ (s.rxClosed = false → dstCap + frameOverhead hv hc < s.cfg.capRx →
          ∃ t, exec (.frmRecv hv hc dstCap) s = .next t
            ∧ FailsUnchanged .rx .destTooSmall { s with outValid := false } t)
      ∧ (s.Inv → s.rxClosed = false → s.cfg.capRx ≤ dstCap + frameOverhead hv hc →
          ((s.content .rx).length < frameOverhead hv hc →
              ∃ t, exec (.frmRecv hv hc dstCap) s = .next t
                ∧ FailsUnchanged .rx .tooShort { s with outValid := false } t)
          ∧ (frameOverhead hv hc ≤ (s.content .rx).length →
              (∀ q, OnChain (s.content .rx) q → (s.content .rx).length ≤ q →
                ∃ t, exec (.frmRecv hv hc dstCap) s = .next t ∧ OnlyRxFailure s t
                  ∧ t.resRx.status = .noTerminator ∧ (t.content .rx).length = (s.content .rx).length
                  ∧ (∀ k, k < (s.content .rx).length → OnChain (s.content .rx) k → (t.content .rx)[k]? = some 0)
                  ∧ (∀ k, ¬OnChain (s.content .rx) k → (t.content .rx)[k]? = (s.content .rx)[k]?)
                  ∧ KeepsOffChain (s.content .rx) (s.content .rx).length s.cfg.capRx s.rxb t.rxb)
              ∧ (∀ xs, s.content .rx = 0 :: xs →
                ∃ t, exec (.frmRecv hv hc dstCap) s = .next t ∧ OnlyRxFailure s t
                  ∧ t.resRx.status = .emptyFrame ∧ t.content .rx = xs ∧ KeepsStorage s.rxb t.rxb)
              ∧ (∀ m rest, Decodes (s.content .rx) m rest → m.length < hdr hv + crcLen hc →
                ∃ t, exec (.frmRecv hv hc dstCap) s = .next t ∧ OnlyRxFailure s t
                  ∧ t.resRx.status = .frameTooShort ∧ t.content .rx = rest
                  ∧ KeepsOffChain (s.content .rx) (m.length + 1) s.cfg.capRx s.rxb t.rxb)
              ∧ (∀ (version command hi lo : Byte) (data rest : List Byte), hc = true →
                Decodes (s.content .rx) (messageBody hv version command data ++ [hi, lo]) rest →
                [hi, lo] ≠ bytes16 (crc16 s.cfg.crc (messageBody hv version command data)) →
                  ∃ t, exec (.frmRecv hv hc dstCap) s = .next t
                    ∧ t = { s with
                        rxb := t.rxb, resRx := t.resRx, outVersion := t.outVersion, outCommand := t.outCommand,
                        outLen := t.outLen, outData := t.outData, outValid := false, freeRx := s.freeRx + 1 }
                    ∧ t.resRx.status = .checksumMismatch
                    ∧ Latched hv version command data s t ∧ t.content .rx = rest
                    ∧ KeepsOffChain (s.content .rx) (data.length + frameOverhead hv hc) s.cfg.capRx s.rxb t.rxb)))

/-- The round trip of rule R198: whatever `FRM.SEND` builds, for any payload that fits, a receive half with the same
checksum parameters delivers, field by field, wherever the frame lies and whatever follows it. It holds for every
parameter record, with the meaning that log entry 26 gives it. -/
def Obligations.FramesSurviveTheRoundTrip : Prop :=
  ∀ (hv hc : Bool) (version command : Byte) (data : List Byte) (s : State), s.Inv →
    data.length + frameOverhead hv hc ≤ s.cfg.capTx →
      ∃ t, exec (.frmSend hv hc version command data) s = .next t ∧ t.resTx.status = .ok ∧
        ∀ (r : State) (rest : List Byte) (dstCap : Nat),
          r.Inv → r.rxClosed = false → r.cfg.crc = s.cfg.crc → r.cfg.capRx ≤ dstCap + frameOverhead hv hc →
          r.content .rx = t.content .tx ++ rest →
            ∃ u, exec (.frmRecv hv hc dstCap) r = .next u
              ∧ u.resRx = { status := .ok, val := .num data.length }
              ∧ (hv = true → u.outVersion = version) ∧ u.outCommand = command ∧ u.outLen = data.length
              ∧ u.payload = data ∧ u.outValid = true ∧ u.content .rx = rest

/-- Two frames one behind the other are delivered one after the other (rule R201). That `OUT_DATA` past the payload stays,
which `Latched` says, is log entry 19; the checksum for parameters other than those of rule R171 is log entry 26. -/
def Obligations.FramesArriveInOrder : Prop :=
  ∀ (hv hc : Bool) (dstCap : Nat) (v₁ c₁ v₂ c₂ : Byte) (d₁ d₂ rest : List Byte) (s : State),
    s.Inv → s.rxClosed = false → s.cfg.capRx ≤ dstCap + frameOverhead hv hc →
    s.content .rx
        = cobs (message s.cfg.crc hv hc v₁ c₁ d₁) ++ cobs (message s.cfg.crc hv hc v₂ c₂ d₂) ++ rest →
      ∃ t u, exec (.frmRecv hv hc dstCap) s = .next t ∧ exec (.frmRecv hv hc dstCap) t = .next u
        ∧ t.resRx.status = .ok ∧ t.outValid = true ∧ Latched hv v₁ c₁ d₁ s t
        ∧ u.resRx.status = .ok ∧ u.outValid = true ∧ Latched hv v₂ c₂ d₂ t u
        ∧ u.content .rx = rest

/-- A truncated frame is never delivered (rule R200): below the minimum it is `TooShort` and `RXB` is unchanged; a longer
proper prefix of a frame is `NoTerminator`. -/
def Obligations.TruncatedFramesAreNotDelivered : Prop :=
  ∀ (hv hc : Bool) (dstCap : Nat) (s : State),
    s.Inv → s.rxClosed = false → s.cfg.capRx ≤ dstCap + frameOverhead hv hc →
      ((s.content .rx).length < frameOverhead hv hc →
          ∃ t, exec (.frmRecv hv hc dstCap) s = .next t ∧ t.resRx.status = .tooShort ∧ t.rxb = s.rxb)
        ∧ (∀ (m suffix : List Byte), m.length + 2 ≤ 256 → suffix ≠ [] → cobs m = s.content .rx ++ suffix →
            frameOverhead hv hc ≤ (s.content .rx).length →
              ∃ t, exec (.frmRecv hv hc dstCap) s = .next t ∧ t.resRx.status = .noTerminator
                ∧ t.outValid = false ∧ (t.content .rx).length = (s.content .rx).length)

/-! Packers and unpackers. -/

/-- `PK.READ_REQ`, `PK.WRITE8`, `PK.WRITE32` (rules R212, R213, R214), and `UNPK.READ_REQ`, `UNPK.REGVAL`, `UNPK.ACK`
(rules R215, R216, R217): the first byte is the most significant, an 8-bit value is widened with zeros, every other length
is malformed. -/
def Obligations.PackersAndUnpackersFollowTheLayout : Prop :=
  (∀ (reg : BitVec 16) (v8 : Byte) (v32 : BitVec 32) (dstCap : Nat) (s : State),
    (encode (.pkReadReq reg dstCap)).head? = some 0x50 ∧ (encode (.pkWrite8 reg v8 dstCap)).head? = some 0x51
      ∧ (encode (.pkWrite32 reg v32 dstCap)).head? = some 0x52
      ∧ exec (.pkReadReq reg dstCap) s = .next (s.answered
          (if dstCap < 2 then Reply.bad .destTooSmall
           else Reply.good (.bytes [reg.extractLsb' 8 8, reg.extractLsb' 0 8])))
      ∧ exec (.pkWrite8 reg v8 dstCap) s = .next (s.answered
          (if dstCap < 3 then Reply.bad .destTooSmall
           else Reply.good (.bytes [reg.extractLsb' 8 8, reg.extractLsb' 0 8, v8])))
      ∧ exec (.pkWrite32 reg v32 dstCap) s = .next (s.answered
          (if dstCap < 6 then Reply.bad .destTooSmall
           else Reply.good (.bytes [reg.extractLsb' 8 8, reg.extractLsb' 0 8, v32.extractLsb' 24 8,
              v32.extractLsb' 16 8, v32.extractLsb' 8 8, v32.extractLsb' 0 8]))))
  ∧ ∀ (x₁ x₀ : Byte) (s : State),
    (∀ p, (encode (.unpkReadReq p)).head? = some 0x53 ∧ (encode (.unpkRegval p)).head? = some 0x54
        ∧ (encode (.unpkAck p)).head? = some 0x55)
      ∧ exec (.unpkReadReq [x₁, x₀]) s = .next (s.answered (Reply.good (.reg (x₁ ++ x₀))))
      ∧ (∀ p : List Byte, p.length ≠ 2 →
          exec (.unpkReadReq p) s = .next (s.answered (Reply.bad .malformedPayload)))
      ∧ (∀ v : Byte, exec (.unpkRegval [x₁, x₀, v]) s
          = .next (s.answered (Reply.good (.regVal (x₁ ++ x₀) (v.setWidth 32)))))
      ∧ (∀ v₃ v₂ v₁ v₀ : Byte, exec (.unpkRegval [x₁, x₀, v₃, v₂, v₁, v₀]) s
          = .next (s.answered (Reply.good (.regVal (x₁ ++ x₀) (v₃ ++ v₂ ++ v₁ ++ v₀)))))
      ∧ (∀ p : List Byte, p.length ≠ 3 → p.length ≠ 6 →
          exec (.unpkRegval p) s = .next (s.answered (Reply.bad .malformedPayload)))
      ∧ (∀ p : List Byte, p.length + 2 ∈ s.cfg.ackLengths →
          exec (.unpkAck (x₁ :: x₀ :: p)) s = .next (s.answered (Reply.good (.reg (x₁ ++ x₀)))))
      ∧ (∀ p : List Byte, p.length ∉ s.cfg.ackLengths →
          exec (.unpkAck p) s = .next (s.answered (Reply.bad .malformedPayload)))

/-- Unpacking what was packed (rule R218), for every register number and value. -/
def Obligations.UnpackingUndoesPacking : Prop :=
  ∀ (reg : BitVec 16) (v8 : Byte) (v32 : BitVec 32) (s : State),
    exec (.unpkReadReq (readReqPayload reg)) s = .next (s.answered (Reply.good (.reg reg)))
      ∧ exec (.unpkRegval (write8Payload reg v8)) s = .next (s.answered (Reply.good (.regVal reg (v8.setWidth 32))))
      ∧ exec (.unpkRegval (write32Payload reg v32)) s = .next (s.answered (Reply.good (.regVal reg v32)))
      ∧ (s.cfg.ackLengths = [2, 3, 6] →
          ∀ p ∈ [readReqPayload reg, write8Payload reg v8, write32Payload reg v32],
            exec (.unpkAck p) s = .next (s.answered (Reply.good (.reg reg))))
      ∧ (readReqPayload reg).length = 2 ∧ (write8Payload reg v8).length = 3 ∧ (write32Payload reg v32).length = 6

/-! Classification, router, queues, stream functions. -/

/-- `HP.CLASSIFY` (rule R230), for all 256 command bytes. -/
def Obligations.ClassifyCoversAllCommandBytes : Prop :=
  ∀ (cmd : Byte) (s : State), (encode (.hpClassify cmd)).head? = some 0x60 ∧
    ∃ cls, exec (.hpClassify cmd) s = .next (s.answered (Reply.good (.cls cls)))
      ∧ (cmd = 0x00 → cls = .invalid0 ∧ cls.code = 0) ∧ (cmd = 0x01 → cls = .registerRead ∧ cls.code = 1)
      ∧ (cmd = 0x02 → cls = .registerWrite ∧ cls.code = 2)
      ∧ (0x03 ≤ cmd.toNat → cmd.toNat ≤ 0x7F → cls = .reserved ∧ cls.code = 3)
      ∧ (0x80 ≤ cmd.toNat → cls = .stream ∧ cls.code = 4)

/-- `RT.ROUTE` (rule R235): a closed half, no frame, a reserved command, and, when the queue of the class has room (rule
R240), a malformed payload and the three queues. -/
def Obligations.RouteDispatchesByCommand : Prop :=
  (encode .rtRoute).head? = some 0x61 ∧
  (∀ s : State, s.rxClosed = true → ∃ t, exec .rtRoute s = .next t ∧ FailsUnchanged .rx .closed s t) ∧
  ∀ s : State, s.rxClosed = false →
    let hasRoom := fun n : Nat => ∀ d, s.cfg.qDepth = some d → n < d
    let rejects := fun (f : Status) (code : Nat) => exec .rtRoute s = .next { s with
      outValid := false
      diag := s.diag ++ [{ code := f, command := some s.outCommand }]
      resRx := { status := f, val := .num code } }
    (s.outValid = false → ∃ t, exec .rtRoute s = .next t ∧ FailsUnchanged .rx .nothingToRoute s t)
      ∧ (s.outValid = true →
          (s.outCommand.toNat = 0 → rejects .unexpectedCommand 0)
          ∧ (3 ≤ s.outCommand.toNat → s.outCommand.toNat ≤ 0x7F → rejects .unexpectedCommand 3)
          ∧ (s.outCommand.toNat = 1 → s.payload.length ≠ 3 → s.payload.length ≠ 6 → hasRoom s.rdq.length →
            rejects .malformedPayload 1)
          ∧ (s.outCommand.toNat = 2 → s.payload.length ∉ s.cfg.ackLengths → hasRoom s.waq.length →
            rejects .malformedPayload 2)
          ∧ (∀ x₁ x₀ v, s.outCommand.toNat = 1 → s.payload = [x₁, x₀, v] → hasRoom s.rdq.length →
            exec .rtRoute s = .next { s with
              outValid := false, rdq := s.rdq ++ [(x₁ ++ x₀, v.setWidth 32)]
              resRx := { status := .ok, val := .num 1 } })
          ∧ (∀ x₁ x₀ v₃ v₂ v₁ v₀, s.outCommand.toNat = 1 → s.payload = [x₁, x₀, v₃, v₂, v₁, v₀] →
            hasRoom s.rdq.length →
            exec .rtRoute s = .next { s with
              outValid := false, rdq := s.rdq ++ [(x₁ ++ x₀, v₃ ++ v₂ ++ v₁ ++ v₀)]
              resRx := { status := .ok, val := .num 1 } })
          ∧ (∀ x₁ x₀ p, s.outCommand.toNat = 2 → s.payload = x₁ :: x₀ :: p → s.payload.length ∈ s.cfg.ackLengths →
            hasRoom s.waq.length →
            exec .rtRoute s = .next { s with
              outValid := false, waq := s.waq ++ [x₁ ++ x₀], resRx := { status := .ok, val := .num 2 } })
          ∧ (0x80 ≤ s.outCommand.toNat → hasRoom s.stq.length →
            exec .rtRoute s = .next { s with
              outValid := false, stq := s.stq ++ [(s.outCommand, s.payload)]
              resRx := { status := .ok, val := .num 4 } }))

/-- What the router does with the frame in the latches for each row of rule R90 (log entry 3), and that `RT.ROUTE` is the
row of the byte in `OUT_COMMAND`. A malformed payload is rejected whether or not its queue is full (log entry 15). -/
def Obligations.CommandRowsSayWhatTheRouterDoes : Prop :=
  (∀ s : State, exec .rtRoute s = exec (decodeCommand s.outCommand) s)
    ∧ (∀ (x : Byte) (s : State), s.rxClosed = false → s.outValid = false →
        ∃ t, exec (decodeCommand x) s = .next t ∧ FailsUnchanged .rx .nothingToRoute s t)
    ∧ (∀ s : State, s.rxClosed = false → s.outValid = true →
        let hasRoom := fun n : Nat => ∀ d, s.cfg.qDepth = some d → n < d
        let rejectedWith := fun (f : Status) (x : Byte) (code : Nat) =>
          Host.Outcome.next (φ := Fault) (ρ := Refusal) { s with
            outValid := false
            diag := s.diag ++ [{ code := f, command := some x }]
            resRx := { status := f, val := .num code } }
        let rejected := rejectedWith .unexpectedCommand
        exec .cmdInvalid0 s = rejected 0x00 0
          ∧ exec .cmdReserved03 s = rejected 0x03 3
          ∧ (∀ low, exec (.cmdReserved04_07 low) s = rejected (0b000001#6 ++ low) 3)
          ∧ (∀ low, exec (.cmdReserved08_0F low) s = rejected (0b00001#5 ++ low) 3)
          ∧ (∀ low, exec (.cmdReserved10_1F low) s = rejected (0b0001#4 ++ low) 3)
          ∧ (∀ low, exec (.cmdReserved20_3F low) s = rejected (0b001#3 ++ low) 3)
          ∧ (∀ low, exec (.cmdReserved40_7F low) s = rejected (0b01#2 ++ low) 3)
          ∧ (∀ x₁ x₀ v, s.payload = [x₁, x₀, v] → hasRoom s.rdq.length →
              exec .cmdRegisterRead s = .next { s with
                outValid := false, rdq := s.rdq ++ [(x₁ ++ x₀, v.setWidth 32)]
                resRx := { status := .ok, val := .num 1 } })
          ∧ (∀ x₁ x₀ v₃ v₂ v₁ v₀, s.payload = [x₁, x₀, v₃, v₂, v₁, v₀] → hasRoom s.rdq.length →
              exec .cmdRegisterRead s = .next { s with
                outValid := false, rdq := s.rdq ++ [(x₁ ++ x₀, v₃ ++ v₂ ++ v₁ ++ v₀)]
                resRx := { status := .ok, val := .num 1 } })
          ∧ (s.payload.length ≠ 3 → s.payload.length ≠ 6 →
              exec .cmdRegisterRead s = rejectedWith .malformedPayload 0x01 1)
          ∧ (s.payload.length ∉ s.cfg.ackLengths →
              exec .cmdRegisterWrite s = rejectedWith .malformedPayload 0x02 2)
          ∧ (∀ x₁ x₀ p, s.payload = x₁ :: x₀ :: p → s.payload.length ∈ s.cfg.ackLengths → hasRoom s.waq.length →
              exec .cmdRegisterWrite s = .next { s with
                outValid := false, waq := s.waq ++ [x₁ ++ x₀], resRx := { status := .ok, val := .num 2 } })
          ∧ (∀ descriptor, hasRoom s.stq.length →
              exec (.cmdStream descriptor) s = .next { s with
                outValid := false, stq := s.stq ++ [(1#1 ++ descriptor, s.payload)]
                resRx := { status := .ok, val := .num 4 } }))

/-- `Q.POP` (rule R244): the head entry while there is one, closed or not; then `Closed` or `Empty`. -/
def Obligations.PopDeliversTheHeadEntry : Prop :=
  ∀ s : State, (∀ q, (encode (.qPop q)).head? = some 0x63) ∧
    (let nothing := Host.Outcome.next (φ := Fault) (ρ := Refusal)
      (s.answered (Reply.bad (if s.rxClosed = true then .closed else .empty)))
     (s.rdq = [] → exec (.qPop 0) s = nothing)
      ∧ (s.waq = [] → exec (.qPop 1) s = nothing)
      ∧ (s.stq = [] → exec (.qPop 2) s = nothing)
      ∧ (∀ reg value es, s.rdq = (reg, value) :: es →
          exec (.qPop 0) s = .next { s.answered (Reply.good (.regVal reg value)) with rdq := es })
      ∧ (∀ reg es, s.waq = reg :: es →
          exec (.qPop 1) s = .next { s.answered (Reply.good (.reg reg)) with waq := es })
      ∧ (∀ x p es, s.stq = (x, p) :: es →
          exec (.qPop 2) s = .next { s.answered (Reply.good (.command x p)) with stq := es })
      ∧ exec (.qPop 3) s = .next (s.answered (Reply.bad .badOperation)))

/-- `ST.FORMAT` with the default `stream_format` (rule R246), for all 256 command bytes. -/
def Obligations.StreamFormatDecodesTheDescriptor : Prop :=
  ∀ (cmd : Byte) (s : State), s.cfg.streamFormat = .layout →
    (encode (.stFormat cmd)).head? = some 0x64 ∧
    exec (.stFormat cmd) s = .next (s.answered
      (if cmd.getLsbD 7 = true ∧ cmd.extractLsb' 2 5 = (1 : BitVec 5) ∧ cmd.extractLsb' 0 2 ≠ (0 : BitVec 2) then
        Reply.good (.format (4 <<< (cmd.extractLsb' 0 2).toNat) 1)
       else Reply.bad .unsupportedFormat))

/-- `ST.UNPACK` (rule R248), for any `stream_format`: as many samples as the payload holds, each the big-endian number of
its bytes; no partial sample. The functions `stream_format` that the statement ranges over are those of log entry 21
(DESIGN CHOICE): the default layout, or a table of formats with one word of 8, 16 or 32 bits. -/
def Obligations.StreamPayloadsUnpackBigEndian : Prop :=
  ∀ (cmd : Byte) (p : List Byte) (s : State), (encode (.stUnpack cmd p)).head? = some 0x65 ∧
    (streamFormat s.cfg.streamFormat cmd = none →
        exec (.stFormat cmd) s = .next (s.answered (Reply.bad .unsupportedFormat))
          ∧ exec (.stUnpack cmd p) s = .next (s.answered (Reply.bad .unsupportedFormat)))
      ∧ (∀ (width : SampleWidth) (w : Nat), streamFormat s.cfg.streamFormat cmd = some width →
          8 * w = SampleWidth.bits width →
          exec (.stFormat cmd) s = .next (s.answered (Reply.good (.format (8 * w) 1)))
            ∧ (p.length % w ≠ 0 → exec (.stUnpack cmd p) s = .next (s.answered (Reply.bad .malformedPayload)))
            ∧ (p.length % w = 0 →
                ∃ xs : List Nat, exec (.stUnpack cmd p) s = .next (s.answered (Reply.good (.samples xs)))
                  ∧ xs.length = p.length / w
                  ∧ ∀ j, j < xs.length →
                      xs[j]? = some (∑ k ∈ Finset.range w, (p[j * w + k]?.getD 0).toNat * 256 ^ (w - 1 - k))
                        ∧ (∀ x, xs[j]? = some x → x < 2 ^ (8 * w))))

/-! Pseudo-operations of the environment. -/

/-- `RX.SERVICE` line by line (rule R250; log entry 16 for the grain of its lines). That its diagnostic records carry no
command byte, where U18 allows any value, is log entry 18 (DESIGN CHOICE). Closed: refused. Bytes read: it goes on to
decode. The read fails: after three moves of its agent the diagnostic is recorded, the half is closed, its status is
`TransportFailure`, and `RXB`, the latches and the queues are as before. A frame decoded: it goes on to route it. The
decode fails: the failure is reported and the turn is over, the half still open. -/
def Obligations.ServiceRunsOneTurnOfTheLoop : Prop :=
  ∀ (hv hc : Bool) (dstCap : Nat) (a : Agent) (turns : List Turn) (later : List Activity) (s : State),
    s.turns = .move a :: turns →
    let ready := State.setAgenda { s with turns := turns } a later
    (s.rxClosed = true → s.agenda a = .rxService hv hc dstCap :: later →
        ∃ t, step s = .next t ∧ FailsUnchanged .rx .closed ready t)
      ∧ (∀ x xs rs, s.rxClosed = false → s.rxReads = .bytes x xs :: rs →
          s.agenda a = .rxService hv hc dstCap :: later →
          ∃ t, exec (.rbExtend .rx) ready = .next t ∧ t.resRx.status = .ok
            ∧ step s = .next (t.setAgenda a (.serviceRecv hv hc dstCap :: later)))
      ∧ (∀ rs turns', s.rxClosed = false → s.rxReads = .failed :: rs → turns = .move a :: .move a :: turns' →
          s.agenda a = .rxService hv hc dstCap :: later →
          ∃ t, Host.Core.run core 3 s = .next t
            ∧ t = State.setAgenda { s with
                rxReads := rs, turns := turns', rxClosed := true, freeRx := t.freeRx, resRx := t.resRx
                diag := s.diag ++ [{ code := .transportFailure, command := none }] } a later
            ∧ t.resRx.status = .transportFailure)
      ∧ (s.rxClosed = false → s.agenda a = .serviceRecv hv hc dstCap :: later →
          ∃ t, exec (.frmRecv hv hc dstCap) ready = .next t ∧ t.rxClosed = false
            ∧ (t.resRx.status = .ok → step s = .next (t.setAgenda a (.serviceRoute :: later)))
            ∧ (t.resRx.status ≠ .ok → step s = .next { t with
                diag := s.diag ++ [{ code := t.resRx.status, command := none }] }))
      ∧ (s.agenda a = .serviceRoute :: later → waits .rtRoute ready = false → step s = exec .rtRoute ready)

/-- The sending part of `write_reg` and `read_reg` (rules R286, R287; their grain is log entry 17). Three moves of the
client put the request frame on `TX_STREAM`, versioned, with the command byte and payload of the call, and the wait begins
with nothing used of its budget. "on TransportFailure: the call fails with it", after three moves, with the prefix that the
transport took on `TX_STREAM` (log entry 24). A frame that does not fit `TXB` makes the call fail with the
`PayloadTooLarge` of its `FRM.SEND`, after two moves and with `TXB` as it was. The checksum for parameters other than those
of rule R171 is log entry 26. -/
def Obligations.RegisterCallsTransmitTheirRequest : Prop :=
  ∀ (hc : Bool) (reg : BitVec 16) (value : BitVec 32) (a : Agent) (turns : List Turn) (later : List Activity) (s : State),
    s.Inv → s.turns = .move a :: .move a :: .move a :: turns →
    let sends := fun (command : Byte) (payload : List Byte) (call : Call) =>
      let wire := cobs (message s.cfg.crc true hc s.cfg.version command payload)
      let queuesStay := fun t : State => t.rdq = s.rdq ∧ t.waq = s.waq ∧ t.stq = s.stq
      (payload.length + frameOverhead true hc ≤ s.cfg.capTx →
        (∀ ws, s.txWrites = .completed :: ws →
          ∃ t, Host.Core.run core 3 s = .next t
            ∧ t.txStream = s.txStream ++ wire
            ∧ t.content .tx = [] ∧ t.agenda a = .callWait call 0 :: later ∧ t.turns = turns ∧ t.txWrites = ws
            ∧ queuesStay t ∧ t.callResults = s.callResults)
        ∧ (∀ taken ws, s.txWrites = .failed taken :: ws →
          ∃ t, Host.Core.run core 3 s = .next t
            ∧ t.txStream = s.txStream ++ wire.take taken
            ∧ t.content .tx = wire.drop taken ∧ t.agenda a = later ∧ t.turns = turns ∧ t.txWrites = ws
            ∧ queuesStay t ∧ t.callResults = s.callResults ++ [Reply.bad .transportFailure]))
      ∧ (s.cfg.capTx < payload.length + frameOverhead true hc →
          ∃ t, Host.Core.run core 2 s = .next t
            ∧ t.txStream = s.txStream
            ∧ t.txb = s.txb ∧ t.agenda a = later ∧ t.turns = .move a :: turns ∧ t.txWrites = s.txWrites
            ∧ queuesStay t ∧ t.callResults = s.callResults ++ [Reply.bad .payloadTooLarge])
    (s.agenda a = .readReg hc reg :: later → sends 0x01 (readReqPayload reg) (.read reg))
      ∧ (s.agenda a = .writeReg hc reg value :: later → s.cfg.regW = .w8 →
          sends 0x02 (write8Payload reg (value.extractLsb' 0 8)) (.write reg))
      ∧ (s.agenda a = .writeReg hc reg value :: later → s.cfg.regW = .w32 →
          sends 0x02 (write32Payload reg value) (.write reg))

/-- The waiting part of `write_reg` and `read_reg` (rules R286, R287, R288): the entry with the register of the call ends it,
another entry is dropped, a closed empty queue fails it with `Closed`, an open empty queue with `Timeout` once the budget
is used up, and else the wait goes on: longer by the next duration the environment gives, or with the same budget while it
gives none (log entry 17). -/
def Obligations.RegisterCallsWaitForTheirRegister : Prop :=
  ∀ (a : Agent) (turns : List Turn) (later : List Activity) (reg : BitVec 16) (waited : Nat) (s : State),
    s.turns = .move a :: turns →
    let ready := State.setAgenda { s with turns := turns } a later
    let ends := fun (u : State) (answer result : Reply) =>
      step s = .next { u.answered answer with callResults := s.callResults ++ [result] }
    let again := fun (u : State) (answer : Reply) (call : Call) (budget : Nat) =>
      step s = .next ((u.answered answer).setAgenda a (.callWait call budget :: later))
    let budget := if s.cfg.waitRestarts = true then 0 else waited
    let onEmpty := fun (call : Call) =>
      (s.rxClosed = true → ends ready (Reply.bad .closed) (Reply.bad .closed))
        ∧ (s.rxClosed = false → s.cfg.tWait ≤ waited → ends ready (Reply.bad .empty) (Reply.bad .timeout))
        ∧ (∀ d ds, s.rxClosed = false → waited < s.cfg.tWait → s.elapsed = d :: ds →
            again { ready with elapsed := ds } (Reply.bad .empty) call (waited + d))
        ∧ (s.rxClosed = false → waited < s.cfg.tWait → s.elapsed = [] → again ready (Reply.bad .empty) call waited)
    (s.agenda a = .callWait (.read reg) waited :: later →
        (∀ r value es, s.rdq = (r, value) :: es →
          (r = reg → ends { ready with rdq := es } (Reply.good (.regVal r value)) (Reply.good (.regVal r value)))
            ∧ (r ≠ reg → again { ready with rdq := es } (Reply.good (.regVal r value)) (.read reg) budget))
          ∧ (s.rdq = [] → onEmpty (.read reg)))
      ∧ (s.agenda a = .callWait (.write reg) waited :: later →
        (∀ r es, s.waq = r :: es →
          (r = reg → ends { ready with waq := es } (Reply.good (.reg r)) (Reply.good (.reg r)))
            ∧ (r ≠ reg → again { ready with waq := es } (Reply.good (.reg r)) (.write reg) budget))
          ∧ (s.waq = [] → onEmpty (.write reg)))

/-- The stream consumer (rule R292) is the loop `Q.POP STQ`, then `ST.UNPACK` of the entry; what it does on an empty and on
a closed queue, and that a payload it cannot unpack does not end it, is log entry 25. And streaming is independent: no line
of a `write_reg` or a `read_reg` changes `STQ`. -/
def Obligations.ConsumerUnpacksWhatItPops : Prop :=
  ∀ (a : Agent) (turns : List Turn) (later : List Activity) (s : State), s.turns = .move a :: turns →
    let ready := State.setAgenda { s with turns := turns } a later
    (s.agenda a = .streamPop :: later →
        (∀ cmd p es, s.stq = (cmd, p) :: es →
          step s = .next (State.setAgenda ({ ready with stq := es }.answered (Reply.good (.command cmd p))) a
            (.streamUnpack cmd p :: later)))
          ∧ (s.stq = [] → s.rxClosed = false →
            step s = .next ((ready.answered (Reply.bad .empty)).setAgenda a (.streamPop :: later)))
          ∧ (s.stq = [] → s.rxClosed = true → step s = .next (ready.answered (Reply.bad .closed))))
      ∧ (∀ cmd p, s.agenda a = .streamUnpack cmd p :: later →
          ∃ r, exec (.stUnpack cmd p) ready = .next (ready.answered r)
            ∧ step s = .next ((ready.answered r).setAgenda a (.streamPop :: later)))
      ∧ (∀ act t, s.agenda a = act :: later → act.isRegisterCall = true → step s = .next t → t.stq = s.stq)

end
end

