-- ==== Sys2Proof/Laws/Memory.lean ====
section
/-! SUPPORT. Storage: what a read gives after a write, and that every write keeps the canonical form. -/

namespace Sys2Proof.Machine

/-- In canonical form with every address at least `lo`: the shape the induction over a write needs. -/
theorem Memory.wf_cons {c : Host.Cell} {m : Memory} :
    Memory.wf (c :: m) ↔ (∀ d ∈ m, c.1 < d.1) ∧ c.2 ≠ Memory.unlisted ∧ Memory.wf m := by
  simp only [Memory.wf, List.pairwise_cons, List.mem_cons, forall_eq_or_imp]
  tauto

theorem Memory.wf_nil : Memory.wf [] := by simp [Memory.wf]

/-- An address below every listed one reads as unlisted. -/
theorem Memory.read_of_lt {m : Memory} {k : Nat} (h : ∀ c ∈ m, k < c.1) : Memory.read m k = Memory.unlisted := by
  induction m with
  | nil => rfl
  | cons c m ih =>
    obtain ⟨a, x⟩ := c
    have ha : k < a := h (a, x) (by simp)
    simp only [Memory.read, if_neg (by omega : ¬a = k)]
    exact ih fun d hd => h d (by simp [hd])

/-- What a write lists: the cell written, or cells that were listed. -/
theorem Memory.mem_write {m : Memory} {k : Nat} {v : Byte} {c : Host.Cell} (h : c ∈ Memory.write m k v) :
    c = (k, v) ∨ c ∈ m := by
  induction m with
  | nil => simp only [Memory.write] at h; split at h <;> simp_all
  | cons d m ih =>
    obtain ⟨a, x⟩ := d
    simp only [Memory.write] at h
    split at h
    · split at h <;> simp_all
    · split at h
      · (split at h <;> simp_all); tauto
      · rcases List.mem_cons.1 h with h | h
        · simp [h]
        · rcases ih h with h | h <;> simp [h]

/-- Every write keeps the canonical form. -/
theorem Memory.write_wf {m : Memory} (k : Nat) (v : Byte) (h : Memory.wf m) : Memory.wf (Memory.write m k v) := by
  induction m with
  | nil => simp only [Memory.write]; split <;> simp_all [Memory.wf]
  | cons c m ih =>
    obtain ⟨a, x⟩ := c
    obtain ⟨hlt, hx, hm⟩ := Memory.wf_cons.1 h
    simp only [Memory.write]
    split
    · split
      · exact h
      · refine Memory.wf_cons.2 ⟨fun d hd => ?_, ‹_›, h⟩
        rcases List.mem_cons.1 hd with rfl | hd
        · assumption
        · exact lt_trans ‹k < a› (hlt d hd)
    · split
      · subst k
        split
        · exact hm
        · exact Memory.wf_cons.2 ⟨hlt, ‹_›, hm⟩
      · refine Memory.wf_cons.2 ⟨fun d hd => ?_, hx, ih hm⟩
        rcases Memory.mem_write hd with rfl | hd
        · show a < k; omega
        · exact hlt d hd

/-- A write inside a bound stays inside it. -/
theorem Memory.write_below {m : Memory} {n k : Nat} {v : Byte} (h : Memory.below m n) (hk : k < n) :
    Memory.below (Memory.write m k v) n := by
  intro c hc
  rcases Memory.mem_write hc with rfl | hc
  · exact hk
  · exact h c hc

/-- A read after a write to the same place gives the value written. -/
@[simp] theorem Memory.read_write_same {m : Memory} (h : Memory.wf m) (k : Nat) (v : Byte) :
    Memory.read (Memory.write m k v) k = v := by
  induction m with
  | nil => simp only [Memory.write]; split <;> simp_all [Memory.read]
  | cons c m ih =>
    obtain ⟨a, x⟩ := c
    obtain ⟨hlt, hx, hm⟩ := Memory.wf_cons.1 h
    simp only [Memory.write]
    split
    · split
      · subst v
        refine Memory.read_of_lt fun c hc => ?_
        rcases List.mem_cons.1 hc with rfl | hc
        · assumption
        · exact lt_trans ‹k < a› (hlt c hc)
      · simp [Memory.read]
    · split
      · subst k
        split
        · subst v; exact Memory.read_of_lt fun c hc => hlt c hc
        · simp [Memory.read]
      · simp only [Memory.read, if_neg (by omega : ¬a = k)]
        exact ih hm

/-- A write leaves every other place alone. -/
theorem Memory.read_write_other (m : Memory) {k j : Nat} (v : Byte) (h : j ≠ k) :
    Memory.read (Memory.write m k v) j = Memory.read m j := by
  induction m with
  | nil =>
    simp only [Memory.write]; split
    · rfl
    · simp [Memory.read, Ne.symm h]
  | cons c m ih =>
    obtain ⟨a, x⟩ := c
    simp only [Memory.write]
    split
    · split
      · rfl
      · simp [Memory.read, Ne.symm h]
    · split
      · subst k
        split
        · simp [Memory.read, Ne.symm h]
        · simp [Memory.read, Ne.symm h]
      · simp only [Memory.read]; split
        · rfl
        · exact ih

/-- Both laws in one. -/
theorem Memory.read_write {m : Memory} (h : Memory.wf m) (k j : Nat) (v : Byte) :
    Memory.read (Memory.write m k v) j = if j = k then v else Memory.read m j := by
  split
  · subst j; exact Memory.read_write_same h k v
  · exact Memory.read_write_other m v ‹_›

/-- In canonical form, memories that read alike are equal. -/
theorem Memory.ext_of_read {m n : Memory} (hm : Memory.wf m) (hn : Memory.wf n)
    (h : ∀ k, Memory.read m k = Memory.read n k) : m = n := by
  induction m generalizing n with
  | nil =>
    cases n with
    | nil => rfl
    | cons d n =>
      obtain ⟨b, y⟩ := d
      have := h b
      simp only [Memory.read, if_true] at this
      exact absurd this.symm (Memory.wf_cons.1 hn).2.1
  | cons c m ih =>
    obtain ⟨a, x⟩ := c
    obtain ⟨ha, hx, hm'⟩ := Memory.wf_cons.1 hm
    cases n with
    | nil =>
      have := h a
      simp only [Memory.read, if_true] at this
      exact absurd this hx
    | cons d n =>
      obtain ⟨b, y⟩ := d
      obtain ⟨hb, hy, hn'⟩ := Memory.wf_cons.1 hn
      have hab : a = b := by
        by_contra hne
        rcases lt_or_gt_of_ne hne with hlt | hlt
        · have := h a
          simp only [Memory.read, if_true, if_neg (by omega : ¬b = a)] at this
          rw [Memory.read_of_lt fun e he => lt_trans hlt (hb e he)] at this
          exact hx this
        · have := h b
          simp only [Memory.read, if_true, if_neg (by omega : ¬a = b)] at this
          rw [Memory.read_of_lt fun e he => lt_trans hlt (ha e he)] at this
          exact hy this.symm
      subst hab
      have hxy : x = y := by simpa [Memory.read] using h a
      subst hxy
      congr 1
      refine ih hm' hn' fun k => ?_
      by_cases hk : a = k
      · subst hk
        rw [Memory.read_of_lt fun e he => ha e he, Memory.read_of_lt fun e he => hb e he]
      · simpa [Memory.read, hk] using h k

/-! Runs of bytes. -/

theorem Memory.writeSeq_wf {m : Memory} (k : Nat) (vs : List Byte) (h : Memory.wf m) :
    Memory.wf (Memory.writeSeq m k vs) := by
  induction vs generalizing m k with
  | nil => exact h
  | cons v vs ih => exact ih (k + 1) (Memory.write_wf k v h)

theorem Memory.writeSeq_below {m : Memory} {n k : Nat} {vs : List Byte} (h : Memory.below m n)
    (hk : k + vs.length ≤ n) : Memory.below (Memory.writeSeq m k vs) n := by
  induction vs generalizing m k with
  | nil => exact h
  | cons v vs ih =>
    simp only [List.length_cons] at hk
    exact ih (Memory.write_below h (by omega)) (by omega)

/-- Reading after a run was written: the run, and everything else as before. -/
theorem Memory.read_writeSeq {m : Memory} (h : Memory.wf m) (k : Nat) (vs : List Byte) (j : Nat) :
    Memory.read (Memory.writeSeq m k vs) j =
      if k ≤ j ∧ j < k + vs.length then vs.getD (j - k) Memory.unlisted else Memory.read m j := by
  induction vs generalizing m k with
  | nil => simp [Memory.writeSeq]
  | cons v vs ih =>
    rw [Memory.writeSeq, ih (Memory.write_wf k v h), Memory.read_write h]
    simp only [List.length_cons]
    by_cases hj : j = k
    · subst hj; simp
    · by_cases hin : k ≤ j ∧ j < k + (vs.length + 1)
      · obtain ⟨d, hd⟩ : ∃ d, j - k = d + 1 := ⟨j - k - 1, by omega⟩
        rw [if_pos (by omega), if_pos hin, hd, List.getD_cons_succ]
        congr 1; omega
      · rw [if_neg (by omega), if_neg hin, if_neg hj]

/-- A run reads back as written. -/
theorem Memory.readSeq_writeSeq {m : Memory} (h : Memory.wf m) (k : Nat) (vs : List Byte) :
    Memory.readSeq (Memory.writeSeq m k vs) k vs.length = vs := by
  refine List.ext_getElem (by simp [Memory.readSeq]) fun j h₁ h₂ => ?_
  simp only [Memory.readSeq, List.getElem_map, List.getElem_range, Memory.read_writeSeq h]
  rw [if_pos (by omega), Nat.add_sub_cancel_left, List.getD_eq_getElem _ _ h₂]

end Sys2Proof.Machine
end

