-- ==== Sys2Proof/Laws/Ring.lean ====
section
/-! SUPPORT. Ring buffers: what each operation does to the content (10_state.md rule R21), and that it keeps the buffer's
invariant. Everything outside these proofs speaks of the content and not of `S` and `head`. -/

namespace Sys2Proof.Machine

variable {cap : Nat} {r : Ring}

/-! Physical indices. -/

theorem Ring.phys_lt (h : 0 < cap) (i : Nat) : r.phys cap i < cap := Nat.mod_lt _ h

/-- Two logical indices below the capacity with the same physical index are equal (rule R50). -/
theorem Ring.phys_inj (h : r.head < cap) {i j : Nat} (hi : i < cap) (hj : j < cap)
    (he : r.phys cap i = r.phys cap j) : i = j := by
  simp only [Ring.phys] at he
  have key : ∀ k, k < cap → (r.head + k) % cap = if r.head + k < cap then r.head + k else r.head + k - cap := by
    intro k hk
    split
    · exact Nat.mod_eq_of_lt ‹_›
    · rw [Nat.mod_eq_sub_mod (by omega), Nat.mod_eq_of_lt (by omega)]
  rw [key i hi, key j hj] at he
  split at he <;> split at he <;> omega

/-! The content. -/

@[simp] theorem Ring.length_memRead (i n : Nat) : (r.memRead cap i n).length = n := by simp [Ring.memRead]

@[simp] theorem Ring.length_content : (r.content cap).length = r.len := by simp [Ring.content]

@[simp] theorem Ring.getElem_memRead (i n k : Nat) (h : k < (r.memRead cap i n).length) :
    (r.memRead cap i n)[k] = r.get cap (i + k) := by simp [Ring.memRead]

@[simp] theorem Ring.getElem_content (k : Nat) (h : k < (r.content cap).length) :
    (r.content cap)[k] = r.get cap k := by simp [Ring.content]

/-- A buffer's content is `l` when it has as many bytes and the same byte at every index. -/
theorem Ring.content_eq {l : List Byte} (hl : r.len = l.length) (h : ∀ k (hk : k < l.length), r.get cap k = l[k]) :
    r.content cap = l :=
  List.ext_getElem (by simpa using hl) fun k h₁ h₂ => by simpa using h k h₂

theorem Ring.get_eq_getElem {k : Nat} (h : k < r.len) : r.get cap k = (r.content cap)[k]'(by simpa using h) := by
  simp

/-- `MemRead` is a part of the content (rule R52). -/
theorem Ring.memRead_eq {i n : Nat} (h : i + n ≤ r.len) : r.memRead cap i n = ((r.content cap).drop i).take n :=
  List.ext_getElem (by simp; omega) fun k h₁ h₂ => by simp

theorem Ring.content_nil (h : r.len = 0) : r.content cap = [] := List.eq_nil_of_length_eq_zero (by simpa using h)

/-! `set`. -/

theorem Ring.Ok.cap_pos (h : Ring.Ok cap r) : 0 < cap := Nat.lt_of_le_of_lt (Nat.zero_le _) h.head_lt

theorem Ring.Ok.set (h : Ring.Ok cap r) (i : Nat) (v : Byte) : Ring.Ok cap (r.set cap i v) where
  head_lt := h.head_lt
  len_le  := h.len_le
  wf      := Memory.write_wf _ _ h.wf
  below   := Memory.write_below h.below (Ring.phys_lt h.cap_pos i)

@[simp] theorem Ring.set_len (i : Nat) (v : Byte) : (r.set cap i v).len = r.len := rfl
@[simp] theorem Ring.set_head (i : Nat) (v : Byte) : (r.set cap i v).head = r.head := rfl

theorem Ring.get_set (h : Ring.Ok cap r) {i j : Nat} (hi : i < cap) (hj : j < cap) (v : Byte) :
    (r.set cap i v).get cap j = if j = i then v else r.get cap j := by
  have hp : (r.set cap i v).phys cap j = r.phys cap j := rfl
  simp only [Ring.get, hp]
  rw [Ring.set, Memory.read_write h.wf]
  by_cases he : j = i
  · subst he; simp
  · rw [if_neg he, if_neg fun hc => he (Ring.phys_inj h.head_lt hj hi hc)]

theorem Ring.content_set (h : Ring.Ok cap r) {i : Nat} (hi : i < r.len) (v : Byte) :
    (r.set cap i v).content cap = (r.content cap).set i v := by
  refine Ring.content_eq (by simp) fun k hk => ?_
  have hk : k < r.len := by simpa using hk
  have := h.len_le
  rw [Ring.get_set h (by omega) (by omega), List.getElem_set]
  by_cases he : i = k
  · simp [he]
  · simp [he, Ne.symm he]

/-! `push_back`. -/

theorem Ring.backSlot_lt (h : Ring.Ok cap r) : r.backSlot cap < cap := by
  simp only [Ring.backSlot]; split
  · exact Nat.mod_lt _ h.cap_pos
  · exact h.head_lt

theorem Ring.Ok.pushBack (h : Ring.Ok cap r) (v : Byte) : Ring.Ok cap (r.pushBack cap v) := by
  have hw := Memory.write_wf (r.backSlot cap) v h.wf
  have hb := Memory.write_below (v := v) h.below (Ring.backSlot_lt h)
  simp only [Ring.pushBack]; split
  · exact ⟨h.head_lt, by show r.len + 1 ≤ cap; omega, hw, hb⟩
  · exact ⟨Nat.mod_lt _ h.cap_pos, h.len_le, hw, hb⟩

theorem Ring.len_pushBack (v : Byte) :
    (r.pushBack cap v).len = if r.len < cap then r.len + 1 else r.len := by
  simp only [Ring.pushBack]; split <;> rfl

/-- Rule R120 in terms of content: with room, appended. -/
theorem Ring.content_pushBack_room (h : Ring.Ok cap r) (hr : r.len < cap) (v : Byte) :
    (r.pushBack cap v).content cap = r.content cap ++ [v] := by
  have hlen : (r.pushBack cap v).len = r.len + 1 := by simp [Ring.len_pushBack, hr]
  refine Ring.content_eq (by simp [hlen]) fun k hk => ?_
  have hk : k < r.len + 1 := by simpa using hk
  have hget : (r.pushBack cap v).get cap k
      = Memory.read (Memory.write r.mem (r.phys cap r.len) v) (r.phys cap k) := by
    simp [Ring.get, Ring.pushBack, Ring.phys, Ring.backSlot, hr]
  rw [hget, Memory.read_write h.wf, List.getElem_append]
  by_cases he : k = r.len
  · simp [he]
  · rw [if_neg fun hc => he (Ring.phys_inj h.head_lt (by omega) hr hc)]
    simp [show k < r.len by omega, Ring.get]

/-- Rule R120 in terms of content: full, the front byte is lost. -/
theorem Ring.content_pushBack_full (h : Ring.Ok cap r) (hr : r.len = cap) (v : Byte) :
    (r.pushBack cap v).content cap = (r.content cap).tail ++ [v] := by
  have hlen : (r.pushBack cap v).len = r.len := by simp [Ring.len_pushBack, hr]
  have hpos := h.cap_pos
  refine Ring.content_eq (by simp [hlen]; omega) fun k hk => ?_
  have hk : k < r.len := by simp at hk; omega
  have hget : (r.pushBack cap v).get cap k
      = Memory.read (Memory.write r.mem (r.phys cap 0) v) (r.phys cap (k + 1)) := by
    have hs : r.backSlot cap = r.phys cap 0 := by
      simp [Ring.backSlot, Ring.phys, hr, Nat.mod_eq_of_lt h.head_lt]
    have hp : ((r.head + 1) % cap + k) % cap = r.phys cap (k + 1) := by
      simp [Ring.phys, Nat.mod_add_mod, Nat.add_assoc, Nat.add_comm 1 k]
    simp [Ring.get, Ring.pushBack, hr, hs]
    simp only [Ring.phys] at hp ⊢
    rw [hp]
  rw [hget, Memory.read_write h.wf, List.getElem_append]
  by_cases he : k + 1 = cap
  · have : r.phys cap (k + 1) = r.phys cap 0 := by simp [Ring.phys, he]
    simp [this, show ¬k < r.len - 1 by omega]
  · rw [if_neg fun hc => absurd (Ring.phys_inj h.head_lt (by omega) hpos hc) (by omega)]
    simp [show k < r.len - 1 by omega, Ring.get]

/-! `push_front`. -/

theorem Ring.frontSlot_lt (h : 0 < cap) : r.frontSlot cap < cap := Nat.mod_lt _ h

theorem Ring.Ok.pushFront (h : Ring.Ok cap r) (v : Byte) : Ring.Ok cap (r.pushFront cap v) where
  head_lt := Ring.frontSlot_lt h.cap_pos
  len_le  := by simp only [Ring.pushFront]; split <;> have := h.len_le <;> omega
  wf      := Memory.write_wf _ _ h.wf
  below   := Memory.write_below h.below (Ring.frontSlot_lt h.cap_pos)

theorem Ring.len_pushFront (v : Byte) :
    (r.pushFront cap v).len = if r.len < cap then r.len + 1 else r.len := rfl

/-- The physical indices after `push_front`: logical index `k + 1` is where `k` was. -/
theorem Ring.phys_pushFront_succ (h : Ring.Ok cap r) (v : Byte) (k : Nat) :
    (r.pushFront cap v).phys cap (k + 1) = r.phys cap k := by
  have := h.cap_pos
  simp only [Ring.phys, Ring.pushFront, Ring.frontSlot, Nat.mod_add_mod]
  rw [show r.head + cap - 1 + (k + 1) = r.head + k + cap by omega, Nat.add_mod_right]

theorem Ring.phys_pushFront_zero (v : Byte) :
    (r.pushFront cap v).phys cap 0 = r.frontSlot cap := by
  simp [Ring.phys, Ring.pushFront, Ring.frontSlot]

theorem Ring.get_pushFront (h : Ring.Ok cap r) (v : Byte) {k : Nat} (hk : k < cap) :
    (r.pushFront cap v).get cap k = if k = 0 then v else r.get cap (k - 1) := by
  have hok := Ring.Ok.pushFront h v
  have hslot := Ring.phys_pushFront_zero (cap := cap) (r := r) v
  have hread : (r.pushFront cap v).get cap k
      = Memory.read (Memory.write r.mem (r.frontSlot cap) v) ((r.pushFront cap v).phys cap k) := rfl
  rw [hread, Memory.read_write h.wf]
  by_cases hz : k = 0
  · subst hz; simp [hslot]
  · rw [if_neg hz, if_neg]
    · obtain ⟨j, rfl⟩ : ∃ j, k = j + 1 := ⟨k - 1, by omega⟩
      rw [Ring.phys_pushFront_succ h]; rfl
    · rw [← hslot]
      exact fun hc => hz (Ring.phys_inj hok.head_lt hk h.cap_pos hc)

/-- Rule R121 in terms of content: with room, put in front. -/
theorem Ring.content_pushFront_room (h : Ring.Ok cap r) (hr : r.len < cap) (v : Byte) :
    (r.pushFront cap v).content cap = v :: r.content cap := by
  refine Ring.content_eq (by simp [Ring.len_pushFront, hr]) fun k hk => ?_
  have hk : k < r.len + 1 := by simpa using hk
  rw [Ring.get_pushFront h v (by omega)]
  cases k <;> simp

/-- Rule R121 in terms of content: full, the back byte is lost. -/
theorem Ring.content_pushFront_full (h : Ring.Ok cap r) (hr : r.len = cap) (v : Byte) :
    (r.pushFront cap v).content cap = v :: (r.content cap).dropLast := by
  have hpos := h.cap_pos
  refine Ring.content_eq (by simp [Ring.len_pushFront, hr]; omega) fun k hk => ?_
  have hk : k < r.len := by simp at hk; omega
  rw [Ring.get_pushFront h v (by omega)]
  cases k <;> simp

/-! `pop_front`, `pop_back`, `clear`. -/

theorem Ring.Ok.popFront (h : Ring.Ok cap r) : Ring.Ok cap (r.popFront cap) :=
  ⟨Nat.mod_lt _ h.cap_pos, Nat.le_trans (Nat.sub_le _ _) h.len_le, h.wf, h.below⟩

theorem Ring.get_popFront (k : Nat) : (r.popFront cap).get cap k = r.get cap (k + 1) := by
  simp [Ring.get, Ring.phys, Ring.popFront, Nat.mod_add_mod, Nat.add_assoc, Nat.add_comm 1 k]

@[simp] theorem Ring.popFront_len : (r.popFront cap).len = r.len - 1 := rfl

/-- Rule R122 in terms of content. -/
theorem Ring.content_popFront : (r.popFront cap).content cap = (r.content cap).tail :=
  Ring.content_eq (by simp) fun k hk => by
    rw [Ring.get_popFront]
    simp

theorem Ring.front_eq_get (h : Ring.Ok cap r) : r.front = r.get cap 0 := by
  simp [Ring.front, Ring.get, Ring.phys, Nat.mod_eq_of_lt h.head_lt]

/-- The byte `pop_front` returns is the first of the content. -/
theorem Ring.content_eq_front_cons (h : Ring.Ok cap r) (hr : r.len ≠ 0) :
    r.content cap = r.front :: (r.content cap).tail := by
  have h0 : (r.content cap)[0]? = some (r.get cap 0) := by
    rw [List.getElem?_eq_getElem (by simp; omega)]; simp
  rw [Ring.front_eq_get h]
  cases hc : r.content cap with
  | nil       => simp [hc] at h0
  | cons x xs => simpa [hc, eq_comm] using h0

theorem Ring.Ok.popBack (h : Ring.Ok cap r) : Ring.Ok cap r.popBack :=
  ⟨h.head_lt, Nat.le_trans (Nat.sub_le _ _) h.len_le, h.wf, h.below⟩

/-- Rule R123 in terms of content. -/
theorem Ring.content_popBack : r.popBack.content cap = (r.content cap).dropLast :=
  Ring.content_eq (by simp [Ring.popBack]) fun k hk => by simp [Ring.popBack, Ring.get, Ring.phys]

/-- The byte `pop_back` returns is the last of the content. -/
theorem Ring.back_eq_get (hr : r.len ≠ 0) : r.back cap = r.get cap (r.len - 1) := by
  simp only [Ring.back, Ring.get, Ring.phys]
  rw [show r.head + r.len - 1 = r.head + (r.len - 1) by omega]

theorem Ring.Ok.clear (h : Ring.Ok cap r) {n : Nat} (hn : n < cap) : Ring.Ok cap (r.clear n) :=
  ⟨hn, Nat.zero_le _, h.wf, h.below⟩

@[simp] theorem Ring.content_clear (n : Nat) : (r.clear n).content cap = [] := Ring.content_nil rfl

@[simp] theorem Ring.clear_len (n : Nat) : (r.clear n).len = 0 := rfl

theorem Ring.Ok.fresh {n : Nat} (hn : n < cap) : Ring.Ok cap (Ring.fresh n) :=
  ⟨hn, Nat.zero_le _, Memory.wf_nil, by simp [Ring.fresh]⟩

/-! Repeated pops and pushes. -/

theorem Ring.Ok.popMany (h : Ring.Ok cap r) (n : Nat) : Ring.Ok cap (r.popMany cap n) := by
  induction n generalizing r with
  | zero => exact h
  | succ n ih => exact ih h.popFront

theorem Ring.content_popMany (n : Nat) : (r.popMany cap n).content cap = (r.content cap).drop n := by
  induction n generalizing r with
  | zero => rfl
  | succ n ih =>
    show (Ring.popMany cap n (r.popFront cap)).content cap = _
    rw [ih, Ring.content_popFront, ← List.drop_one, List.drop_drop, Nat.add_comm]

theorem Ring.len_popMany (n : Nat) : (r.popMany cap n).len = r.len - n := by
  simpa using congrArg List.length (Ring.content_popMany (cap := cap) (r := r) n)

theorem Ring.Ok.pushAll (h : Ring.Ok cap r) (bs : List Byte) : Ring.Ok cap (r.pushAll cap bs) := by
  induction bs generalizing r with
  | nil => exact h
  | cons x bs ih => exact ih (h.pushBack x)

/-- Pushes that fit are appended. -/
theorem Ring.content_pushAll_room (h : Ring.Ok cap r) {bs : List Byte} (hr : r.len + bs.length ≤ cap) :
    (r.pushAll cap bs).content cap = r.content cap ++ bs := by
  induction bs generalizing r with
  | nil => simp [Ring.pushAll]
  | cons x bs ih =>
    simp only [List.length_cons] at hr
    have hlen : (r.pushBack cap x).len = r.len + 1 := by simp [Ring.len_pushBack, show r.len < cap by omega]
    show ((r.pushBack cap x).pushAll cap bs).content cap = _
    rw [ih (h.pushBack x) (by omega), Ring.content_pushBack_room h (by omega)]
    simp

/-- `push_back` in terms of content, with room or full: the last `CAP` bytes of the content and the byte pushed. -/
theorem Ring.content_pushBack (h : Ring.Ok cap r) (v : Byte) :
    (r.pushBack cap v).content cap = (r.content cap ++ [v]).drop (r.len + 1 - cap) := by
  have := h.len_le
  by_cases hr : r.len < cap
  · rw [Ring.content_pushBack_room h hr, show r.len + 1 - cap = 0 by omega, List.drop_zero]
  · have hpos := h.cap_pos
    rw [Ring.content_pushBack_full h (by omega), show r.len + 1 - cap = 1 by omega, List.drop_append]
    simp [show 1 - r.len = 0 by omega]

/-- Any number of pushes in terms of content (rule R130). -/
theorem Ring.content_pushAll (h : Ring.Ok cap r) (bs : List Byte) :
    (r.pushAll cap bs).content cap = (r.content cap ++ bs).drop (r.len + bs.length - cap) := by
  induction bs generalizing r with
  | nil => have := h.len_le; simp [Ring.pushAll, show r.len - cap = 0 by omega]
  | cons x bs ih =>
    show ((r.pushBack cap x).pushAll cap bs).content cap = _
    have := h.len_le
    rw [ih (h.pushBack x), Ring.content_pushBack h, Ring.len_pushBack]
    have hsplit : r.content cap ++ x :: bs = (r.content cap ++ [x]) ++ bs := by simp
    rw [hsplit]
    by_cases hr : r.len < cap
    · rw [if_pos hr, show r.len + 1 - cap = 0 by omega, List.drop_zero, List.length_cons]
      congr 1; omega
    · rw [if_neg hr, show r.len + 1 - cap = 1 by omega, List.length_cons,
        show r.len + (bs.length + 1) - cap = 1 + (r.len + bs.length - cap) by omega, ← List.drop_drop]
      rw [List.drop_append_of_le_length (i := 1) (l₁ := r.content cap ++ [x]) (by simp)]

theorem Ring.head_popMany (h : r.head < cap) (n : Nat) : (r.popMany cap n).head = (r.head + n) % cap := by
  induction n generalizing r with
  | zero => simp [Ring.popMany, Nat.mod_eq_of_lt h]
  | succ n ih =>
    show (Ring.popMany cap n (r.popFront cap)).head = _
    rw [ih (Nat.mod_lt _ (by omega))]
    simp [Ring.popFront, Nat.mod_add_mod, Nat.add_assoc, Nat.add_comm 1 n]

theorem Ring.mem_popMany (n : Nat) : (r.popMany cap n).mem = r.mem := by
  induction n generalizing r with
  | zero => rfl
  | succ n ih => exact ih (r := r.popFront cap)

/-! Which storage a push touches (40_ring_buffer.md rule R135). -/

theorem Ring.storesAt_pushBack (h : Ring.Ok cap r) (v : Byte) :
    StoresAt (r.backSlot cap) v r (r.pushBack cap v) := by
  intro a
  simp only [Ring.pushBack]
  split <;> exact Memory.read_write h.wf _ _ _

theorem Ring.storesAt_pushFront (h : Ring.Ok cap r) (v : Byte) :
    StoresAt (r.frontSlot cap) v r (r.pushFront cap v) := fun _ => Memory.read_write h.wf _ _ _

theorem Ring.storesAt_set (h : Ring.Ok cap r) (i : Nat) (v : Byte) :
    StoresAt (r.phys cap i) v r (r.set cap i v) := fun _ => Memory.read_write h.wf _ _ _

/-- Full or not, `push_back` writes `len` places behind the head. -/
theorem Ring.backSlot_eq_phys (h : Ring.Ok cap r) : r.backSlot cap = r.phys cap r.len := by
  have := h.len_le
  have hh := h.head_lt
  simp only [Ring.backSlot, Ring.phys]
  split
  · rfl
  · rw [show r.len = cap by omega, Nat.add_mod_right, Nat.mod_eq_of_lt hh]

/-- Logical index `len` of the buffer after `push_back` is where logical index `len + 1` was. -/
theorem Ring.phys_len_pushBack (v : Byte) (j : Nat) :
    (r.pushBack cap v).phys cap ((r.pushBack cap v).len + j) = r.phys cap (r.len + 1 + j) := by
  simp only [Ring.pushBack, Ring.phys]
  split
  · rfl
  · simp only [Nat.mod_add_mod]
    congr 1; omega

/-- A run of pushes touches only the places behind the content. -/
theorem Ring.read_pushAll (h : Ring.Ok cap r) (bs : List Byte) {a : Nat}
    (ha : ∀ j, j < bs.length → r.phys cap (r.len + j) ≠ a) :
    Memory.read (r.pushAll cap bs).mem a = Memory.read r.mem a := by
  induction bs generalizing r with
  | nil => rfl
  | cons x bs ih =>
    have h0 := ha 0 (by simp)
    refine (ih (h.pushBack x) fun j hj => ?_).trans ?_
    · rw [Ring.phys_len_pushBack, Nat.add_assoc, Nat.add_comm 1 j]
      exact ha (j + 1) (by simpa using hj)
    · rw [Ring.storesAt_pushBack h x a, Ring.backSlot_eq_phys h, if_neg fun hc => h0 hc.symm]

/-- The two runs of rule R22: up to the end of storage, then from its beginning. -/
theorem Ring.content_slices (h : Ring.Ok cap r) :
    r.content cap = Memory.readSeq r.mem r.head (r.slices cap).1 ++ Memory.readSeq r.mem 0 (r.slices cap).2 := by
  have hh := h.head_lt
  have hl := h.len_le
  refine Ring.content_eq (by simp [Memory.readSeq, Ring.slices]) fun k hk => ?_
  have hk : k < r.len := by simp [Memory.readSeq, Ring.slices] at hk; omega
  rw [List.getElem_append]
  split
  · rename_i hf
    have hf : k < cap - r.head := by simp [Memory.readSeq, Ring.slices] at hf; omega
    simp [Memory.readSeq, Ring.get, Ring.phys, Nat.mod_eq_of_lt (show r.head + k < cap by omega)]
  · rename_i hf
    have hf : cap - r.head ≤ k := by simp [Memory.readSeq, Ring.slices] at hf; omega
    simp only [Memory.readSeq, Ring.get, Ring.phys, List.getElem_map, List.getElem_range, List.length_map,
      List.length_range, Ring.slices, Nat.zero_add]
    rw [Nat.mod_eq_sub_mod (by omega), Nat.mod_eq_of_lt (by omega)]
    congr 1
    omega

end Sys2Proof.Machine
end

