-- ==== Sys2Proof/Laws/Cobs.lean ====
section
/-! SUPPORT. The in-place encoder and decoder in terms of contents (41_cobs.md rules R153, R155, R159), and which storage
they touch. The encoding as a function: how it splits at a zero. -/

namespace Sys2Proof.Machine

variable {cap : Nat} {r : Ring}

/-! The encoding as a function. -/

@[simp] theorem length_stuff (xs : List Byte) : (stuff xs).length = xs.length + 1 := by
  induction xs with
  | nil => rfl
  | cons x xs ih => simp [stuff, ih]

@[simp] theorem length_cobs (m : List Byte) : (cobs m).length = m.length + 2 := by simp [cobs]

theorem stuff_append_nonzero {gap : List Byte} (h : ∀ x ∈ gap, x ≠ 0) (xs : List Byte) :
    stuff (gap ++ xs) = gap ++ stuff xs := by
  induction gap with
  | nil => rfl
  | cons x gap ih =>
    simp only [List.mem_cons, forall_eq_or_imp] at h
    rw [List.cons_append, stuff, if_neg h.1, ih h.2, List.cons_append]

theorem firstZero_append_nonzero {gap : List Byte} (h : ∀ x ∈ gap, x ≠ 0) (xs : List Byte) :
    firstZero (gap ++ xs) = gap.length + firstZero xs := by
  induction gap with
  | nil => simp
  | cons x gap ih =>
    simp only [List.mem_cons, forall_eq_or_imp] at h
    rw [List.cons_append, firstZero, if_neg h.1, ih h.2, List.length_cons]; omega

/-- A zero with `gap` before the next zero becomes the distance, and the gap is kept. -/
theorem stuff_zero_gap {gap : List Byte} (h : ∀ x ∈ gap, x ≠ 0) (xs : List Byte) (hx : firstZero xs = 0) :
    stuff (0 :: gap ++ xs) = BitVec.ofNat 8 (gap.length + 1) :: gap ++ stuff xs := by
  simp [stuff, firstZero_append_nonzero h, stuff_append_nonzero h, hx]

/-! The encoder. -/

theorem encodeScan_keeps (count i z : Nat) (r : Ring) :
    (encodeScan cap count i z r).head = r.head ∧ (encodeScan cap count i z r).len = r.len := by
  induction count generalizing i z r with
  | zero => exact ⟨rfl, rfl⟩
  | succ count ih =>
    simp only [encodeScan]
    split
    · exact ih (i + 1) i (r.set cap z _)
    · exact ih (i + 1) z r

theorem Ring.Ok.encodeScan (h : Ring.Ok cap r) (count i z : Nat) : Ring.Ok cap (encodeScan cap count i z r) := by
  induction count generalizing i z r with
  | zero => exact h
  | succ count ih =>
    simp only [Machine.encodeScan]
    split
    · exact ih (h.set z _) (i + 1) i
    · exact ih h (i + 1) z

/-- The scan touches only the places of the logical indices from `z` on that it passes. -/
theorem read_encodeScan (h : Ring.Ok cap r) {count i z n a : Nat} (hz : z < n) (hi : i + count ≤ n)
    (ha : ∀ k, k < n → r.phys cap k ≠ a) :
    Memory.read (encodeScan cap count i z r).mem a = Memory.read r.mem a := by
  induction count generalizing i z r with
  | zero => rfl
  | succ count ih =>
    simp only [encodeScan]
    split
    · refine (ih (h.set z _) (by omega) (by omega) ha).trans ?_
      rw [Ring.storesAt_set h z _ a, if_neg fun hc => ha z hz hc.symm]
    · exact ih h hz (by omega) ha

/-- The scan of rule R152 computes rule R150 (rule R153): with the last zero seen at `pre.length` and no zero in the gap
behind it, it leaves what lies before alone and encodes the rest. -/
theorem content_encodeScan (h : Ring.Ok cap r) (pre gap xs : List Byte) (hgap : ∀ x ∈ gap, x ≠ 0)
    (hc : r.content cap = pre ++ (0 :: gap ++ (xs ++ [0]))) :
    (encodeScan cap (xs.length + 1) (pre.length + gap.length + 1) pre.length r).content cap
      = pre ++ stuff (0 :: gap ++ xs) := by
  induction xs generalizing pre gap r with
  | nil =>
    have hlen : r.len = pre.length + gap.length + 2 := by
      rw [← Ring.length_content (cap := cap), hc]; simp; omega
    have hget : r.get cap (pre.length + gap.length + 1) = 0 := by
      rw [Ring.get_eq_getElem (by omega)]
      simp only [hc]
      rw [List.getElem_append_right (by omega)]
      simp [show pre.length + gap.length + 1 - pre.length = gap.length + 1 by omega]
    rw [List.length_nil, encodeScan, if_pos hget, encodeScan]
    rw [Ring.content_set h (by omega), hc, List.set_append_right _ _ (by omega)]
    have hs := stuff_zero_gap hgap [] rfl
    simp only [List.append_nil] at hs ⊢
    rw [hs]
    simp [stuff, show pre.length + gap.length + 1 - pre.length = gap.length + 1 by omega]
  | cons x xs ih =>
    have hlen : r.len = pre.length + gap.length + xs.length + 3 := by
      rw [← Ring.length_content (cap := cap), hc]; simp; omega
    have hget : r.get cap (pre.length + gap.length + 1) = x := by
      rw [Ring.get_eq_getElem (by omega)]
      simp only [hc]
      rw [List.getElem_append_right (by omega)]
      simp [show pre.length + gap.length + 1 - pre.length = gap.length + 1 by omega]
    by_cases hx : x = 0
    · subst hx
      rw [List.length_cons, encodeScan, if_pos hget]
      have hset := Ring.content_set h (i := pre.length) (by omega)
        (BitVec.ofNat 8 (pre.length + gap.length + 1 - pre.length))
      rw [hc, List.set_append_right _ _ (by omega)] at hset
      have hd : pre.length + gap.length + 1 - pre.length = gap.length + 1 := by omega
      rw [hd] at hset ⊢
      have := ih (h.set _ (BitVec.ofNat 8 (gap.length + 1))) (pre ++ BitVec.ofNat 8 (gap.length + 1) :: gap) []
        (by simp) (by rw [hset]; simp)
      simp only [List.length_append, List.length_cons, List.length_nil, Nat.add_zero] at this
      rw [show pre.length + gap.length + 1 + 1 = pre.length + (gap.length + 1) + 1 by omega,
        show pre.length + gap.length + 1 = pre.length + (gap.length + 1) by omega, this,
        stuff_zero_gap hgap (0 :: xs) rfl]
      simp
    · rw [List.length_cons, encodeScan, if_neg (by rw [hget]; exact hx)]
      have := ih h pre (gap ++ [x]) (by
        intro y hy
        rcases List.mem_append.1 hy with hy | hy
        · exact hgap y hy
        · rw [List.mem_singleton.1 hy]; exact hx) (by rw [hc]; simp)
      simp only [List.length_append, List.length_singleton] at this
      rw [show pre.length + gap.length + 1 + 1 = pre.length + (gap.length + 1) + 1 by omega, this]
      simp

/-- The buffer `COBS.ENC` leaves, when it succeeds. -/
theorem cobsEncode_done (h : Ring.Ok cap r) (hne : r.len ≠ 0) (hfit : r.len + 2 ≤ cap) :
    ∃ e, cobsEncode cap r = .done (r.len + 2) e ∧ Ring.Ok cap e ∧ e.content cap = cobs (r.content cap)
      ∧ e.head = r.frontSlot cap
      ∧ ∀ a, (∀ k, k < e.len → e.phys cap k ≠ a) → Memory.read e.mem a = Memory.read r.mem a := by
  have h₁ := h.pushFront 0
  have hl₁ : (r.pushFront cap 0).len = r.len + 1 := by simp [Ring.len_pushFront, show r.len < cap by omega]
  have h₂ := h₁.pushBack 0
  have hl₂ : ((r.pushFront cap 0).pushBack cap 0).len = r.len + 2 := by
    rw [Ring.len_pushBack, hl₁, if_pos (by omega)]
  have hc : ((r.pushFront cap 0).pushBack cap 0).content cap = 0 :: r.content cap ++ [0] := by
    rw [Ring.content_pushBack_room h₁ (by omega), Ring.content_pushFront_room h (by omega)]
  have hh : ((r.pushFront cap 0).pushBack cap 0).head = r.frontSlot cap := by
    simp only [Ring.pushBack]
    rw [if_pos (by omega)]; rfl
  refine ⟨encodeScan cap (r.len + 1) 1 0 ((r.pushFront cap 0).pushBack cap 0), ?_, h₂.encodeScan _ _ _, ?_, ?_, ?_⟩
  · rw [cobsEncode, if_neg hne, if_neg (by omega)]
  · have := content_encodeScan h₂ [] [] (r.content cap) (by simp) (by rw [hc]; simp)
    rw [Ring.length_content] at this
    exact this
  · rw [(encodeScan_keeps _ _ _ _).1, hh]
  · intro a ha
    have hlen : (encodeScan cap (r.len + 1) 1 0 ((r.pushFront cap 0).pushBack cap 0)).len = r.len + 2 := by
      rw [(encodeScan_keeps _ _ _ _).2, hl₂]
    have ha' : ∀ k, k < r.len + 2 → ((r.pushFront cap 0).pushBack cap 0).phys cap k ≠ a := by
      intro k hk
      have := ha k (by omega)
      simpa [Ring.phys, (encodeScan_keeps _ _ _ _).1] using this
    rw [read_encodeScan h₂ (n := r.len + 2) (by omega) (by omega) ha']
    rw [Ring.storesAt_pushBack h₁ 0 a, Ring.storesAt_pushFront h 0 a]
    have e₁ : (r.pushFront cap 0).backSlot cap = ((r.pushFront cap 0).pushBack cap 0).phys cap (r.len + 1) := by
      rw [Ring.backSlot_eq_phys h₁, hl₁, Ring.phys, Ring.phys, hh]
      rfl
    have e₂ : r.frontSlot cap = ((r.pushFront cap 0).pushBack cap 0).phys cap 0 := by
      rw [Ring.phys, hh, Nat.add_zero, Nat.mod_eq_of_lt (Ring.frontSlot_lt h.cap_pos)]
    rw [if_neg fun hc => ha' (r.len + 1) (by omega) (by rw [← e₁, hc]),
      if_neg fun hc => ha' 0 (by omega) (by rw [← e₂, hc])]

/-! The chain. -/

variable {w : List Byte}

/-- From a chain index, the next one is the least chain index above it. -/
theorem OnChain.gap {k : Nat} (hk : OnChain w k) {p : Nat} (hp : OnChain w p) (h : p < k) :
    ∃ v, w[p]? = some v ∧ v ≠ 0 ∧ p + v.toNat ≤ k := by
  induction k using Nat.strong_induction_on generalizing p with
  | _ k ih =>
    have pos : ∀ v : Byte, v ≠ 0 → 0 < v.toNat := fun v hv =>
      Nat.pos_of_ne_zero fun h0 => hv (BitVec.eq_of_toNat_eq (by simpa using h0))
    cases hk with
    | start => omega
    | @hop k' v' hk' hv' hne =>
      have := pos v' hne
      rcases lt_trichotomy p k' with hlt | heq | hgt
      · obtain ⟨v, hv, hv0, hle⟩ := ih k' (by omega) hk' hp hlt
        exact ⟨v, hv, hv0, by omega⟩
      · subst heq; exact ⟨v', hv', hne, Nat.le_refl _⟩
      · obtain ⟨v, hv, hv0, hle⟩ := ih p h hp hk' hgt
        rw [hv'] at hv
        cases hv
        omega

/-- Between a chain index and the next there is none. -/
theorem OnChain.not_between {p k : Nat} {v : Byte} (hp : OnChain w p) (hv : w[p]? = some v) (h₁ : p < k)
    (h₂ : k < p + v.toNat) : ¬OnChain w k := by
  intro hk
  obtain ⟨v', hv', -, hle⟩ := hk.gap hp h₁
  rw [hv] at hv'
  cases hv'
  omega

/-- Behind a chain index that holds zero, or that lies past the end, there is none. -/
theorem OnChain.last {p k : Nat} (hp : OnChain w p) (hv : w[p]? = some 0 ∨ w.length ≤ p) (hk : OnChain w k) : k ≤ p := by
  by_contra hlt
  obtain ⟨v, hv', hne, -⟩ := hk.gap hp (by omega)
  rcases hv with hv | hv
  · rw [hv] at hv'; cases hv'; exact hne rfl
  · rw [List.getElem?_eq_none hv] at hv'; cases hv'

/-! The decoder. -/

theorem decodeWalk_keeps (len steps p : Nat) (r : Ring) :
    ∀ r', (decodeWalk cap len steps p r = .ranOff r' ∨ ∃ q, decodeWalk cap len steps p r = .landed q r') →
      r'.head = r.head ∧ r'.len = r.len ∧ (Ring.Ok cap r → Ring.Ok cap r') := by
  induction steps generalizing p r with
  | zero =>
    intro r' h
    rcases h with h | ⟨q, h⟩ <;> simp only [decodeWalk] at h
    · cases h; exact ⟨rfl, rfl, id⟩
    · cases h
  | succ steps ih =>
    intro r' h
    simp only [decodeWalk] at h
    split at h
    · rcases h with h | ⟨q, h⟩ <;> cases h
      exact ⟨rfl, rfl, id⟩
    · split at h
      · rcases h with h | ⟨q, h⟩ <;> cases h
        exact ⟨rfl, rfl, fun hok => hok.set p 0⟩
      · obtain ⟨h₁, h₂, h₃⟩ := ih _ (r.set cap p 0) r' h
        exact ⟨h₁, h₂, fun hok => h₃ (hok.set p 0)⟩

/-- What the walk of rule R155 has reached: `r` is `r₀` with the chain indices below `p` zeroed. -/
structure Walked (cap : Nat) (r₀ r : Ring) (p : Nat) : Prop where
  head    : r.head = r₀.head
  len     : r.len = r₀.len
  ok      : Ring.Ok cap r
  on      : OnChain (r₀.content cap) p
  zeroed  : ∀ k, k < r₀.len → k < p → OnChain (r₀.content cap) k → r.get cap k = 0
  kept    : ∀ k, k < r₀.len → (p ≤ k ∨ ¬OnChain (r₀.content cap) k) → r.get cap k = r₀.get cap k
  storage : ∀ a, (∀ k, k < p → k < r₀.len → OnChain (r₀.content cap) k → r₀.phys cap k ≠ a) →
    Memory.read r.mem a = Memory.read r₀.mem a

theorem Walked.start (h : Ring.Ok cap r) : Walked cap r r 0 :=
  ⟨rfl, rfl, h, .start, fun _ _ hk => absurd hk (by omega), fun _ _ _ => rfl, fun _ _ => rfl⟩

theorem Walked.keepsOffChain {r₀ : Ring} {p : Nat} (h : Walked cap r₀ r p) :
    KeepsOffChain (r₀.content cap) p cap r₀ r :=
  fun a ha => h.storage a fun k hk _ ho => ha k hk ho

/-- Popping touches no storage. -/
theorem KeepsOffChain.popMany {w : List Byte} {n : Nat} {r₀ : Ring} (h : KeepsOffChain w n cap r₀ r) (k : Nat) :
    KeepsOffChain w n cap r₀ (r.popMany cap k) :=
  fun a ha => by rw [Ring.mem_popMany]; exact h a ha

/-- The walk goes on to the zero it lands on, or off the end, and has zeroed exactly the chain before it. -/
theorem decodeWalk_spec {r₀ : Ring} {steps p : Nat} (h : Walked cap r₀ r p) (hp : p < r₀.len)
    (hs : r₀.len ≤ p + steps) :
    (∃ q r', decodeWalk cap r₀.len steps p r = .landed q r' ∧ Walked cap r₀ r' q ∧ q < r₀.len
        ∧ (r₀.content cap)[q]? = some 0 ∧ p ≤ q)
      ∨ (∃ q r', decodeWalk cap r₀.len steps p r = .ranOff r' ∧ Walked cap r₀ r' q ∧ r₀.len ≤ q) := by
  induction steps generalizing p r with
  | zero => omega
  | succ steps ih =>
    have hget : r.get cap p = r₀.get cap p := h.kept p hp (.inl (Nat.le_refl _))
    have hle := h.ok.len_le
    have hlen := h.len
    have hsome : (r₀.content cap)[p]? = some (r₀.get cap p) := by
      rw [List.getElem?_eq_getElem (by simpa using hp)]; simp
    by_cases h0 : r₀.get cap p = 0
    · left
      refine ⟨p, r, ?_, h, hp, by rw [hsome, h0], Nat.le_refl _⟩
      rw [decodeWalk, if_pos (by rw [hget, h0])]
    · have hpos : 0 < (r₀.get cap p).toNat :=
        Nat.pos_of_ne_zero fun hz => h0 (BitVec.eq_of_toNat_eq (by simpa using hz))
      have hnext : Walked cap r₀ (r.set cap p 0) (p + (r₀.get cap p).toNat) := by
        refine ⟨h.head, h.len, h.ok.set p 0, h.on.hop hsome h0, ?_, ?_, ?_⟩
        · intro k hk hkp hon
          rw [Ring.get_set h.ok (by omega) (by omega)]
          split
          · rfl
          · rename_i hne
            by_cases hlt : k < p
            · exact h.zeroed k hk hlt hon
            · exact absurd hon (h.on.not_between hsome (by omega) hkp)
        · intro k hk hor
          have hne : k ≠ p := by
            rintro rfl
            rcases hor with hor | hor
            · omega
            · exact hor h.on
          rw [Ring.get_set h.ok (by omega) (by omega), if_neg hne]
          refine h.kept k hk ?_
          rcases hor with hor | hor
          · left; omega
          · right; exact hor
        · intro a ha
          rw [Ring.storesAt_set h.ok p 0 a, if_neg, h.storage a fun k hk hkl hon => ha k (by omega) hkl hon]
          intro hc
          refine ha p (by omega) hp h.on ?_
          rw [hc, Ring.phys, Ring.phys, h.head]
      rw [decodeWalk, if_neg (by rw [hget]; exact h0)]
      simp only [hget]
      by_cases hoff : r₀.len ≤ p + (r₀.get cap p).toNat
      · right
        exact ⟨_, _, if_pos hoff, hnext, hoff⟩
      · rw [if_neg hoff]
        rcases ih hnext (by omega) (by omega) with ⟨q, r', e, hw, hq, hz, hle'⟩ | ⟨q, r', e, hw, hq⟩
        · exact .inl ⟨q, r', e, hw, hq, hz, by omega⟩
        · exact .inr ⟨q, r', e, hw, hq⟩

/-- `COBS.DEC` on a content whose chain lands on a zero behind index 0. -/
theorem cobsDecode_done (h : Ring.Ok cap r) (h3 : 3 ≤ r.len) {d : Nat} (hd : 1 ≤ d)
    (hon : OnChain (r.content cap) d) (hz : (r.content cap)[d]? = some 0) :
    ∃ e, cobsDecode cap r = .done d (e.popFront cap) ∧ Walked cap r e d := by
  have hdl : d < r.len := by
    by_contra hlt
    rw [List.getElem?_eq_none (by simp; omega)] at hz
    cases hz
  rcases decodeWalk_spec (Walked.start h) (by omega : 0 < r.len) (by omega : r.len ≤ 0 + r.len) with
    ⟨q, e, he, hw, hq, hqz, -⟩ | ⟨q, e, he, hw, hq⟩
  · have hqd : q = d := Nat.le_antisymm (hon.last (.inl hz) hw.on) (hw.on.last (.inl hqz) hon)
    subst hqd
    refine ⟨e, ?_, hw⟩
    rw [cobsDecode, if_neg (by omega), he]
    cases q with
    | zero => omega
    | succ q => rfl
  · exact absurd (hon.last (.inl hz) hw.on) (by omega)

/-- `COBS.DEC` on a content that begins with zero. -/
theorem cobsDecode_emptyFrame (h3 : 3 ≤ r.len) (h0 : r.get cap 0 = 0) :
    cobsDecode cap r = .failed .emptyFrame (r.popFront cap) := by
  obtain ⟨n, hn⟩ : ∃ n, r.len = n + 1 := ⟨r.len - 1, by omega⟩
  rw [cobsDecode, if_neg (by omega), hn, decodeWalk, if_pos h0]

/-- `COBS.DEC` on a content whose chain leaves it. -/
theorem cobsDecode_noTerminator (h : Ring.Ok cap r) (h3 : 3 ≤ r.len) {q : Nat} (hon : OnChain (r.content cap) q)
    (hq : r.len ≤ q) : ∃ e, cobsDecode cap r = .failed .noTerminator e ∧ Walked cap r e q := by
  rcases decodeWalk_spec (Walked.start h) (by omega : 0 < r.len) (by omega : r.len ≤ 0 + r.len) with
    ⟨p, e, he, hw, hp, hpz, -⟩ | ⟨p, e, he, hw, hp⟩
  · exact absurd (hw.on.last (.inl hpz) hon) (by omega)
  · have hpq : p = q := Nat.le_antisymm (hon.last (.inr (by simpa using hq)) hw.on)
      (hw.on.last (.inr (by simpa using hp)) hon)
    subst hpq
    exact ⟨e, by rw [cobsDecode, if_neg (by omega), he], hw⟩

/-- Every content that is not empty has a chain that lands or leaves (rule R159 d). -/
theorem exists_chain_end (h : Ring.Ok cap r) (hne : r.len ≠ 0) :
    ∃ q, OnChain (r.content cap) q ∧ ((r.content cap)[q]? = some 0 ∨ r.len ≤ q) := by
  rcases decodeWalk_spec (Walked.start h) (by omega : 0 < r.len) (by omega : r.len ≤ 0 + r.len) with
    ⟨p, e, -, hw, -, hpz, -⟩ | ⟨p, e, -, hw, hp⟩
  · exact ⟨p, hw.on, .inl hpz⟩
  · exact ⟨p, hw.on, .inr hp⟩

/-- Whatever `COBS.DEC` does, the buffer it leaves is a buffer. -/
theorem Ring.Ok.cobsDecode (h : Ring.Ok cap r) :
    ∀ e, (∃ n, Machine.cobsDecode cap r = .done n e) ∨ (∃ f, Machine.cobsDecode cap r = .failed f e) →
      Ring.Ok cap e := by
  intro e he
  unfold Machine.cobsDecode at he
  split at he
  · rcases he with ⟨n, he⟩ | ⟨f, he⟩ <;> cases he; exact h
  · have hk := decodeWalk_keeps (cap := cap) r.len r.len 0 r
    split at he <;> rename_i hw
    · rcases he with ⟨n, he⟩ | ⟨f, he⟩ <;> cases he; exact (hk _ (.inl hw)).2.2 h
    · rcases he with ⟨n, he⟩ | ⟨f, he⟩ <;> cases he; exact ((hk _ (.inr ⟨_, hw⟩)).2.2 h).popFront
    · rcases he with ⟨n, he⟩ | ⟨f, he⟩ <;> cases he; exact ((hk _ (.inr ⟨_, hw⟩)).2.2 h).popFront

end Sys2Proof.Machine
end

