-- ==== Sys2Proof/Laws/State.lean ====
section
/-! SUPPORT. The fields of a state after each named update: one lemma per field and update, true by rfl. -/

namespace Sys2Proof.Machine

variable (s : State) (b : Half) (r : Ring) (x : Res)

@[simp] theorem State.ring_tx : s.ring .tx = s.txb := rfl
@[simp] theorem State.ring_rx : s.ring .rx = s.rxb := rfl
@[simp] theorem State.res_tx : s.res .tx = s.resTx := rfl
@[simp] theorem State.res_rx : s.res .rx = s.resRx := rfl
@[simp] theorem State.cap_tx : s.cap .tx = s.cfg.capTx := rfl
@[simp] theorem State.cap_rx : s.cap .rx = s.cfg.capRx := rfl
@[simp] theorem State.draws_tx : s.draws .tx = s.drawsTx := rfl
@[simp] theorem State.draws_rx : s.draws .rx = s.drawsRx := rfl
@[simp] theorem State.freeCount_tx : s.freeCount .tx = s.freeTx := rfl
@[simp] theorem State.freeCount_rx : s.freeCount .rx = s.freeRx := rfl
@[simp] theorem State.setRing_tx : s.setRing .tx r = { s with txb := r } := rfl
@[simp] theorem State.setRing_rx : s.setRing .rx r = { s with rxb := r } := rfl
@[simp] theorem State.setRes_tx : s.setRes .tx x = { s with resTx := x } := rfl
@[simp] theorem State.setRes_rx : s.setRes .rx x = { s with resRx := x } := rfl
@[simp] theorem State.useFree_tx : s.useFree .tx = { s with freeTx := s.freeTx + 1 } := rfl
@[simp] theorem State.useFree_rx : s.useFree .rx = { s with freeRx := s.freeRx + 1 } := rfl

@[simp] theorem State.setRing_cfg : (s.setRing b r).cfg = s.cfg := by cases b <;> rfl
@[simp] theorem State.setRes_cfg : (s.setRes b x).cfg = s.cfg := by cases b <;> rfl
@[simp] theorem State.useFree_cfg : (s.useFree b).cfg = s.cfg := by cases b <;> rfl
@[simp] theorem State.afterDraw_cfg : (s.afterDraw b).cfg = s.cfg := by
  cases b <;> simp only [State.afterDraw] <;> split <;> rfl
@[simp] theorem State.setRes_txb : (s.setRes b x).txb = s.txb := by cases b <;> rfl
@[simp] theorem State.useFree_txb : (s.useFree b).txb = s.txb := by cases b <;> rfl
@[simp] theorem State.afterDraw_txb : (s.afterDraw b).txb = s.txb := by
  cases b <;> simp only [State.afterDraw] <;> split <;> rfl
@[simp] theorem State.setRing_resTx : (s.setRing b r).resTx = s.resTx := by cases b <;> rfl
@[simp] theorem State.useFree_resTx : (s.useFree b).resTx = s.resTx := by cases b <;> rfl
@[simp] theorem State.afterDraw_resTx : (s.afterDraw b).resTx = s.resTx := by
  cases b <;> simp only [State.afterDraw] <;> split <;> rfl
@[simp] theorem State.setRes_rxb : (s.setRes b x).rxb = s.rxb := by cases b <;> rfl
@[simp] theorem State.useFree_rxb : (s.useFree b).rxb = s.rxb := by cases b <;> rfl
@[simp] theorem State.afterDraw_rxb : (s.afterDraw b).rxb = s.rxb := by
  cases b <;> simp only [State.afterDraw] <;> split <;> rfl
@[simp] theorem State.setRing_resRx : (s.setRing b r).resRx = s.resRx := by cases b <;> rfl
@[simp] theorem State.useFree_resRx : (s.useFree b).resRx = s.resRx := by cases b <;> rfl
@[simp] theorem State.afterDraw_resRx : (s.afterDraw b).resRx = s.resRx := by
  cases b <;> simp only [State.afterDraw] <;> split <;> rfl
@[simp] theorem State.setRing_outVersion : (s.setRing b r).outVersion = s.outVersion := by cases b <;> rfl
@[simp] theorem State.setRes_outVersion : (s.setRes b x).outVersion = s.outVersion := by cases b <;> rfl
@[simp] theorem State.useFree_outVersion : (s.useFree b).outVersion = s.outVersion := by cases b <;> rfl
@[simp] theorem State.afterDraw_outVersion : (s.afterDraw b).outVersion = s.outVersion := by
  cases b <;> simp only [State.afterDraw] <;> split <;> rfl
@[simp] theorem State.setRing_outCommand : (s.setRing b r).outCommand = s.outCommand := by cases b <;> rfl
@[simp] theorem State.setRes_outCommand : (s.setRes b x).outCommand = s.outCommand := by cases b <;> rfl
@[simp] theorem State.useFree_outCommand : (s.useFree b).outCommand = s.outCommand := by cases b <;> rfl
@[simp] theorem State.afterDraw_outCommand : (s.afterDraw b).outCommand = s.outCommand := by
  cases b <;> simp only [State.afterDraw] <;> split <;> rfl
@[simp] theorem State.setRing_outLen : (s.setRing b r).outLen = s.outLen := by cases b <;> rfl
@[simp] theorem State.setRes_outLen : (s.setRes b x).outLen = s.outLen := by cases b <;> rfl
@[simp] theorem State.useFree_outLen : (s.useFree b).outLen = s.outLen := by cases b <;> rfl
@[simp] theorem State.afterDraw_outLen : (s.afterDraw b).outLen = s.outLen := by
  cases b <;> simp only [State.afterDraw] <;> split <;> rfl
@[simp] theorem State.setRing_outData : (s.setRing b r).outData = s.outData := by cases b <;> rfl
@[simp] theorem State.setRes_outData : (s.setRes b x).outData = s.outData := by cases b <;> rfl
@[simp] theorem State.useFree_outData : (s.useFree b).outData = s.outData := by cases b <;> rfl
@[simp] theorem State.afterDraw_outData : (s.afterDraw b).outData = s.outData := by
  cases b <;> simp only [State.afterDraw] <;> split <;> rfl
@[simp] theorem State.setRing_outValid : (s.setRing b r).outValid = s.outValid := by cases b <;> rfl
@[simp] theorem State.setRes_outValid : (s.setRes b x).outValid = s.outValid := by cases b <;> rfl
@[simp] theorem State.useFree_outValid : (s.useFree b).outValid = s.outValid := by cases b <;> rfl
@[simp] theorem State.afterDraw_outValid : (s.afterDraw b).outValid = s.outValid := by
  cases b <;> simp only [State.afterDraw] <;> split <;> rfl
@[simp] theorem State.setRing_rdq : (s.setRing b r).rdq = s.rdq := by cases b <;> rfl
@[simp] theorem State.setRes_rdq : (s.setRes b x).rdq = s.rdq := by cases b <;> rfl
@[simp] theorem State.useFree_rdq : (s.useFree b).rdq = s.rdq := by cases b <;> rfl
@[simp] theorem State.afterDraw_rdq : (s.afterDraw b).rdq = s.rdq := by
  cases b <;> simp only [State.afterDraw] <;> split <;> rfl
@[simp] theorem State.setRing_waq : (s.setRing b r).waq = s.waq := by cases b <;> rfl
@[simp] theorem State.setRes_waq : (s.setRes b x).waq = s.waq := by cases b <;> rfl
@[simp] theorem State.useFree_waq : (s.useFree b).waq = s.waq := by cases b <;> rfl
@[simp] theorem State.afterDraw_waq : (s.afterDraw b).waq = s.waq := by
  cases b <;> simp only [State.afterDraw] <;> split <;> rfl
@[simp] theorem State.setRing_stq : (s.setRing b r).stq = s.stq := by cases b <;> rfl
@[simp] theorem State.setRes_stq : (s.setRes b x).stq = s.stq := by cases b <;> rfl
@[simp] theorem State.useFree_stq : (s.useFree b).stq = s.stq := by cases b <;> rfl
@[simp] theorem State.afterDraw_stq : (s.afterDraw b).stq = s.stq := by
  cases b <;> simp only [State.afterDraw] <;> split <;> rfl
@[simp] theorem State.setRing_rxClosed : (s.setRing b r).rxClosed = s.rxClosed := by cases b <;> rfl
@[simp] theorem State.setRes_rxClosed : (s.setRes b x).rxClosed = s.rxClosed := by cases b <;> rfl
@[simp] theorem State.useFree_rxClosed : (s.useFree b).rxClosed = s.rxClosed := by cases b <;> rfl
@[simp] theorem State.afterDraw_rxClosed : (s.afterDraw b).rxClosed = s.rxClosed := by
  cases b <;> simp only [State.afterDraw] <;> split <;> rfl
@[simp] theorem State.setRing_diag : (s.setRing b r).diag = s.diag := by cases b <;> rfl
@[simp] theorem State.setRes_diag : (s.setRes b x).diag = s.diag := by cases b <;> rfl
@[simp] theorem State.useFree_diag : (s.useFree b).diag = s.diag := by cases b <;> rfl
@[simp] theorem State.afterDraw_diag : (s.afterDraw b).diag = s.diag := by
  cases b <;> simp only [State.afterDraw] <;> split <;> rfl
@[simp] theorem State.setRing_rxReads : (s.setRing b r).rxReads = s.rxReads := by cases b <;> rfl
@[simp] theorem State.setRes_rxReads : (s.setRes b x).rxReads = s.rxReads := by cases b <;> rfl
@[simp] theorem State.useFree_rxReads : (s.useFree b).rxReads = s.rxReads := by cases b <;> rfl
@[simp] theorem State.afterDraw_rxReads : (s.afterDraw b).rxReads = s.rxReads := by
  cases b <;> simp only [State.afterDraw] <;> split <;> rfl
@[simp] theorem State.setRing_txWrites : (s.setRing b r).txWrites = s.txWrites := by cases b <;> rfl
@[simp] theorem State.setRes_txWrites : (s.setRes b x).txWrites = s.txWrites := by cases b <;> rfl
@[simp] theorem State.useFree_txWrites : (s.useFree b).txWrites = s.txWrites := by cases b <;> rfl
@[simp] theorem State.afterDraw_txWrites : (s.afterDraw b).txWrites = s.txWrites := by
  cases b <;> simp only [State.afterDraw] <;> split <;> rfl
@[simp] theorem State.setRing_txStream : (s.setRing b r).txStream = s.txStream := by cases b <;> rfl
@[simp] theorem State.setRes_txStream : (s.setRes b x).txStream = s.txStream := by cases b <;> rfl
@[simp] theorem State.useFree_txStream : (s.useFree b).txStream = s.txStream := by cases b <;> rfl
@[simp] theorem State.afterDraw_txStream : (s.afterDraw b).txStream = s.txStream := by
  cases b <;> simp only [State.afterDraw] <;> split <;> rfl
@[simp] theorem State.setRing_replies : (s.setRing b r).replies = s.replies := by cases b <;> rfl
@[simp] theorem State.setRes_replies : (s.setRes b x).replies = s.replies := by cases b <;> rfl
@[simp] theorem State.useFree_replies : (s.useFree b).replies = s.replies := by cases b <;> rfl
@[simp] theorem State.afterDraw_replies : (s.afterDraw b).replies = s.replies := by
  cases b <;> simp only [State.afterDraw] <;> split <;> rfl
@[simp] theorem State.setRing_client : (s.setRing b r).client = s.client := by cases b <;> rfl
@[simp] theorem State.setRes_client : (s.setRes b x).client = s.client := by cases b <;> rfl
@[simp] theorem State.useFree_client : (s.useFree b).client = s.client := by cases b <;> rfl
@[simp] theorem State.afterDraw_client : (s.afterDraw b).client = s.client := by
  cases b <;> simp only [State.afterDraw] <;> split <;> rfl
@[simp] theorem State.setRing_receiver : (s.setRing b r).receiver = s.receiver := by cases b <;> rfl
@[simp] theorem State.setRes_receiver : (s.setRes b x).receiver = s.receiver := by cases b <;> rfl
@[simp] theorem State.useFree_receiver : (s.useFree b).receiver = s.receiver := by cases b <;> rfl
@[simp] theorem State.afterDraw_receiver : (s.afterDraw b).receiver = s.receiver := by
  cases b <;> simp only [State.afterDraw] <;> split <;> rfl
@[simp] theorem State.setRing_consumer : (s.setRing b r).consumer = s.consumer := by cases b <;> rfl
@[simp] theorem State.setRes_consumer : (s.setRes b x).consumer = s.consumer := by cases b <;> rfl
@[simp] theorem State.useFree_consumer : (s.useFree b).consumer = s.consumer := by cases b <;> rfl
@[simp] theorem State.afterDraw_consumer : (s.afterDraw b).consumer = s.consumer := by
  cases b <;> simp only [State.afterDraw] <;> split <;> rfl
@[simp] theorem State.setRing_turns : (s.setRing b r).turns = s.turns := by cases b <;> rfl
@[simp] theorem State.setRes_turns : (s.setRes b x).turns = s.turns := by cases b <;> rfl
@[simp] theorem State.useFree_turns : (s.useFree b).turns = s.turns := by cases b <;> rfl
@[simp] theorem State.afterDraw_turns : (s.afterDraw b).turns = s.turns := by
  cases b <;> simp only [State.afterDraw] <;> split <;> rfl
@[simp] theorem State.setRing_elapsed : (s.setRing b r).elapsed = s.elapsed := by cases b <;> rfl
@[simp] theorem State.setRes_elapsed : (s.setRes b x).elapsed = s.elapsed := by cases b <;> rfl
@[simp] theorem State.useFree_elapsed : (s.useFree b).elapsed = s.elapsed := by cases b <;> rfl
@[simp] theorem State.afterDraw_elapsed : (s.afterDraw b).elapsed = s.elapsed := by
  cases b <;> simp only [State.afterDraw] <;> split <;> rfl
@[simp] theorem State.setRing_callResults : (s.setRing b r).callResults = s.callResults := by cases b <;> rfl
@[simp] theorem State.setRes_callResults : (s.setRes b x).callResults = s.callResults := by cases b <;> rfl
@[simp] theorem State.useFree_callResults : (s.useFree b).callResults = s.callResults := by cases b <;> rfl
@[simp] theorem State.afterDraw_callResults : (s.afterDraw b).callResults = s.callResults := by
  cases b <;> simp only [State.afterDraw] <;> split <;> rfl
@[simp] theorem State.setRing_drawsTx : (s.setRing b r).drawsTx = s.drawsTx := by cases b <;> rfl
@[simp] theorem State.setRes_drawsTx : (s.setRes b x).drawsTx = s.drawsTx := by cases b <;> rfl
@[simp] theorem State.useFree_drawsTx : (s.useFree b).drawsTx = s.drawsTx := by cases b <;> rfl
@[simp] theorem State.setRing_drawsRx : (s.setRing b r).drawsRx = s.drawsRx := by cases b <;> rfl
@[simp] theorem State.setRes_drawsRx : (s.setRes b x).drawsRx = s.drawsRx := by cases b <;> rfl
@[simp] theorem State.useFree_drawsRx : (s.useFree b).drawsRx = s.drawsRx := by cases b <;> rfl
@[simp] theorem State.setRing_freeTx : (s.setRing b r).freeTx = s.freeTx := by cases b <;> rfl
@[simp] theorem State.setRes_freeTx : (s.setRes b x).freeTx = s.freeTx := by cases b <;> rfl
@[simp] theorem State.setRing_freeRx : (s.setRing b r).freeRx = s.freeRx := by cases b <;> rfl
@[simp] theorem State.setRes_freeRx : (s.setRes b x).freeRx = s.freeRx := by cases b <;> rfl
@[simp] theorem State.setAgenda_cfg (a : Agent) (l : List Activity) : (s.setAgenda a l).cfg = s.cfg := by
  cases a <;> rfl
@[simp] theorem State.setAgenda_txb (a : Agent) (l : List Activity) : (s.setAgenda a l).txb = s.txb := by
  cases a <;> rfl
@[simp] theorem State.setAgenda_resTx (a : Agent) (l : List Activity) : (s.setAgenda a l).resTx = s.resTx := by
  cases a <;> rfl
@[simp] theorem State.setAgenda_rxb (a : Agent) (l : List Activity) : (s.setAgenda a l).rxb = s.rxb := by
  cases a <;> rfl
@[simp] theorem State.setAgenda_resRx (a : Agent) (l : List Activity) : (s.setAgenda a l).resRx = s.resRx := by
  cases a <;> rfl
@[simp] theorem State.setAgenda_outVersion (a : Agent) (l : List Activity) : (s.setAgenda a l).outVersion = s.outVersion := by
  cases a <;> rfl
@[simp] theorem State.setAgenda_outCommand (a : Agent) (l : List Activity) : (s.setAgenda a l).outCommand = s.outCommand := by
  cases a <;> rfl
@[simp] theorem State.setAgenda_outLen (a : Agent) (l : List Activity) : (s.setAgenda a l).outLen = s.outLen := by
  cases a <;> rfl
@[simp] theorem State.setAgenda_outData (a : Agent) (l : List Activity) : (s.setAgenda a l).outData = s.outData := by
  cases a <;> rfl
@[simp] theorem State.setAgenda_outValid (a : Agent) (l : List Activity) : (s.setAgenda a l).outValid = s.outValid := by
  cases a <;> rfl
@[simp] theorem State.setAgenda_rdq (a : Agent) (l : List Activity) : (s.setAgenda a l).rdq = s.rdq := by
  cases a <;> rfl
@[simp] theorem State.setAgenda_waq (a : Agent) (l : List Activity) : (s.setAgenda a l).waq = s.waq := by
  cases a <;> rfl
@[simp] theorem State.setAgenda_stq (a : Agent) (l : List Activity) : (s.setAgenda a l).stq = s.stq := by
  cases a <;> rfl
@[simp] theorem State.setAgenda_rxClosed (a : Agent) (l : List Activity) : (s.setAgenda a l).rxClosed = s.rxClosed := by
  cases a <;> rfl
@[simp] theorem State.setAgenda_diag (a : Agent) (l : List Activity) : (s.setAgenda a l).diag = s.diag := by
  cases a <;> rfl
@[simp] theorem State.setAgenda_rxReads (a : Agent) (l : List Activity) : (s.setAgenda a l).rxReads = s.rxReads := by
  cases a <;> rfl
@[simp] theorem State.setAgenda_txWrites (a : Agent) (l : List Activity) : (s.setAgenda a l).txWrites = s.txWrites := by
  cases a <;> rfl
@[simp] theorem State.setAgenda_txStream (a : Agent) (l : List Activity) : (s.setAgenda a l).txStream = s.txStream := by
  cases a <;> rfl
@[simp] theorem State.setAgenda_replies (a : Agent) (l : List Activity) : (s.setAgenda a l).replies = s.replies := by
  cases a <;> rfl
@[simp] theorem State.setAgenda_turns (a : Agent) (l : List Activity) : (s.setAgenda a l).turns = s.turns := by
  cases a <;> rfl
@[simp] theorem State.setAgenda_elapsed (a : Agent) (l : List Activity) : (s.setAgenda a l).elapsed = s.elapsed := by
  cases a <;> rfl
@[simp] theorem State.setAgenda_callResults (a : Agent) (l : List Activity) : (s.setAgenda a l).callResults = s.callResults := by
  cases a <;> rfl
@[simp] theorem State.setAgenda_drawsTx (a : Agent) (l : List Activity) : (s.setAgenda a l).drawsTx = s.drawsTx := by
  cases a <;> rfl
@[simp] theorem State.setAgenda_drawsRx (a : Agent) (l : List Activity) : (s.setAgenda a l).drawsRx = s.drawsRx := by
  cases a <;> rfl
@[simp] theorem State.setAgenda_freeTx (a : Agent) (l : List Activity) : (s.setAgenda a l).freeTx = s.freeTx := by
  cases a <;> rfl
@[simp] theorem State.setAgenda_freeRx (a : Agent) (l : List Activity) : (s.setAgenda a l).freeRx = s.freeRx := by
  cases a <;> rfl

/-! Reading back what an update wrote, and what it left alone, for any half. -/

@[simp] theorem State.setRing_ring_same : (s.setRing b r).ring b = r := by cases b <;> rfl
@[simp] theorem State.setRing_ring_tx_rx : (s.setRing .tx r).ring .rx = s.ring .rx := rfl
@[simp] theorem State.setRing_ring_rx_tx : (s.setRing .rx r).ring .tx = s.ring .tx := rfl
@[simp] theorem State.setRes_res_same : (s.setRes b x).res b = x := by cases b <;> rfl
@[simp] theorem State.setRes_ring (c : Half) : (s.setRes b x).ring c = s.ring c := by cases b <;> cases c <;> rfl
@[simp] theorem State.setRing_res (c : Half) : (s.setRing b r).res c = s.res c := by cases b <;> cases c <;> rfl
@[simp] theorem State.setRing_cap (c : Half) : (s.setRing b r).cap c = s.cap c := by cases b <;> cases c <;> rfl
@[simp] theorem State.setRes_cap (c : Half) : (s.setRes b x).cap c = s.cap c := by cases b <;> cases c <;> rfl
@[simp] theorem State.useFree_ring (c : Half) : (s.useFree b).ring c = s.ring c := by cases b <;> cases c <;> rfl
@[simp] theorem State.useFree_res (c : Half) : (s.useFree b).res c = s.res c := by cases b <;> cases c <;> rfl
@[simp] theorem State.useFree_cap (c : Half) : (s.useFree b).cap c = s.cap c := by cases b <;> cases c <;> rfl
@[simp] theorem State.afterDraw_ring (c : Half) : (s.afterDraw b).ring c = s.ring c := by
  cases b <;> cases c <;> simp only [State.afterDraw] <;> split <;> rfl
@[simp] theorem State.afterDraw_res (c : Half) : (s.afterDraw b).res c = s.res c := by
  cases b <;> cases c <;> simp only [State.afterDraw] <;> split <;> rfl
@[simp] theorem State.afterDraw_cap (c : Half) : (s.afterDraw b).cap c = s.cap c := by
  cases b <;> cases c <;> simp only [State.afterDraw] <;> split <;> rfl

theorem State.setRing_setRes (y : Ring) : (s.setRes b x).setRing b y = (s.setRing b y).setRes b x := by
  cases b <;> rfl

/-- The agenda of an agent after it is set. -/
@[simp] theorem State.setAgenda_agenda_same (a : Agent) (l : List Activity) : (s.setAgenda a l).agenda a = l := by
  cases a <;> rfl

end Sys2Proof.Machine
end

