-- ==== Sys2Proof/Laws/Outcome.lean ====
section
/-! SUPPORT. The ways an operation ends (60_exceptions.md rule R260): one lemma per shared ending. -/

namespace Sys2Proof.Machine

variable {s t : State} {b : Half} {k : Result}

theorem raise_eq (f : Status) :
    raise b f s = .next ((s.useFree b).setRes b { status := f, val := Config.freeResVal b (s.freeCount b) }) := rfl

/-- A failure that nothing preceded leaves everything but the status, the open value and its counter. -/
theorem raise_failsUnchanged (b : Half) (f : Status) (s : State) : ∃ t, raise b f s = .next t ∧ FailsUnchanged b f s t :=
  ⟨_, rfl, by simp [FailsUnchanged]⟩

/-- Everything a failure can do. -/
theorem raise_next {f : Status} (h : raise b f s = .next t) :
    FailsUnchanged b f s t ∧ (t.res b).val = Config.freeResVal b (s.freeCount b) := by
  rw [raise_eq] at h
  cases h
  simp [FailsUnchanged]

theorem finish_next {v : ResVal} (h : finish b v s = .next t) : t = s.setRes b { status := .ok, val := v } := by
  cases h; rfl

theorem finishKeep_next (h : finishKeep b s = .next t) : t = s.setRes b { status := .ok, val := (s.res b).val } := by
  cases h; rfl

theorem answer_next {r : Reply} (h : answer r s = .next t) : t = s.answered r := by cases h; rfl

/-- A pure result always goes to the issuer, and nowhere else. -/
theorem answerWith_eq (r : Except Status RetVal) (s : State) :
    answerWith r s = .next (s.answered (match r with | .ok v => Reply.good v | .error f => Reply.bad f)) := by
  cases r <;> rfl

/-- Everything a request that is no operation can do: `BadOperation`, to the half its operand `b` names or to its issuer. -/
theorem badRequest_next {bytes : List Byte} (h : badRequest bytes s = .next t) :
    (∃ b, operandB bytes = some b ∧ FailsUnchanged b .badOperation s t)
      ∨ (operandB bytes = none ∧ t = s.answered (Reply.bad .badOperation)) := by
  unfold badRequest at h
  split at h
  · rename_i b hb; exact .inl ⟨b, hb, (raise_next h).1⟩
  · rename_i hb; cases h; exact .inr ⟨hb, rfl⟩

/-- An operation of a half that accepts operations is not refused. -/
theorem whenOpen_accepts (h : s.accepts b) (k : Result) : whenOpen b s k = k :=
  if_neg fun hc => by simp [h hc.1] at hc

theorem whenOpen_tx (s : State) (k : Result) : whenOpen .tx s k = k := if_neg (by simp)

theorem whenOpen_closed (h : s.rxClosed = true) (k : Result) : whenOpen .rx s k = raise .rx .closed s :=
  if_pos ⟨rfl, h⟩

/-- Everything a guarded operation can do: it is refused, or it runs. -/
theorem whenOpen_next (h : whenOpen b s k = .next t) :
    (b = .rx ∧ s.rxClosed = true ∧ raise .rx .closed s = .next t) ∨ (s.accepts b ∧ k = .next t) := by
  unfold whenOpen at h
  split at h
  · rename_i hc; obtain ⟨rfl, hc⟩ := hc; exact .inl ⟨rfl, hc, h⟩
  · rename_i hc; exact .inr ⟨fun hb => by simpa [hb] using hc, h⟩

theorem State.accepts_tx (s : State) : s.accepts .tx := nofun

theorem State.accepts_rx : s.accepts .rx ↔ s.rxClosed = false := by simp [State.accepts]

/-- A named update of the buffer and the result register of one half is what `OnlyBuffer` says. -/
theorem onlyBuffer_setRing_setRes (b : Half) (r : Ring) (x : Res) (s : State) :
    OnlyBuffer b s ((s.setRing b r).setRes b x) := by
  cases b <;> rfl

end Sys2Proof.Machine
end

