-- ==== Sys2Proof/Laws/PerInstr.lean ====
section
/-! SUPPORT. One lemma per instruction: the request of a well-formed instruction has between one byte and
`longestRequest` bytes, so what State.withFetchWord lays out holds every instruction whole. -/

namespace Sys2Proof.Laws.RequestLength

def Statement (i : Instr) : Prop :=
  i.wellFormed = true → 1 ≤ (encode i).length ∧ (encode i).length ≤ longestRequest

theorem encodeSeq_length (p : List Byte) : (encodeSeq p).length = p.length + 1 := rfl

theorem rbPushBack (b : Half) (v : Byte) : Statement (.rbPushBack b v) :=
  fun _ => ⟨Nat.le_of_ble_eq_true rfl, Nat.le_of_ble_eq_true rfl⟩

theorem rbPushFront (b : Half) (v : Byte) : Statement (.rbPushFront b v) :=
  fun _ => ⟨Nat.le_of_ble_eq_true rfl, Nat.le_of_ble_eq_true rfl⟩

theorem rbPopFront (b : Half) : Statement (.rbPopFront b) :=
  fun _ => ⟨Nat.le_of_ble_eq_true rfl, Nat.le_of_ble_eq_true rfl⟩

theorem rbPopBack (b : Half) : Statement (.rbPopBack b) :=
  fun _ => ⟨Nat.le_of_ble_eq_true rfl, Nat.le_of_ble_eq_true rfl⟩

theorem rbGet (b : Half) (i : Nat) : Statement (.rbGet b i) :=
  fun _ => ⟨Nat.le_of_ble_eq_true rfl, Nat.le_of_ble_eq_true rfl⟩

theorem rbSet (b : Half) (i : Nat) (v : Byte) : Statement (.rbSet b i v) :=
  fun _ => ⟨Nat.le_of_ble_eq_true rfl, Nat.le_of_ble_eq_true rfl⟩

theorem rbLen (b : Half) : Statement (.rbLen b) :=
  fun _ => ⟨Nat.le_of_ble_eq_true rfl, Nat.le_of_ble_eq_true rfl⟩

theorem rbCap (b : Half) : Statement (.rbCap b) :=
  fun _ => ⟨Nat.le_of_ble_eq_true rfl, Nat.le_of_ble_eq_true rfl⟩

theorem rbIsFull (b : Half) : Statement (.rbIsFull b) :=
  fun _ => ⟨Nat.le_of_ble_eq_true rfl, Nat.le_of_ble_eq_true rfl⟩

theorem rbClear (b : Half) : Statement (.rbClear b) :=
  fun _ => ⟨Nat.le_of_ble_eq_true rfl, Nat.le_of_ble_eq_true rfl⟩

theorem rbSlices (b : Half) : Statement (.rbSlices b) :=
  fun _ => ⟨Nat.le_of_ble_eq_true rfl, Nat.le_of_ble_eq_true rfl⟩

theorem rbExtend (b : Half) : Statement (.rbExtend b) :=
  fun _ => ⟨Nat.le_of_ble_eq_true rfl, Nat.le_of_ble_eq_true rfl⟩

theorem rbDrain (b : Half) : Statement (.rbDrain b) :=
  fun _ => ⟨Nat.le_of_ble_eq_true rfl, Nat.le_of_ble_eq_true rfl⟩

theorem cobsEnc (b : Half) : Statement (.cobsEnc b) :=
  fun _ => ⟨Nat.le_of_ble_eq_true rfl, Nat.le_of_ble_eq_true rfl⟩

theorem cobsDec (b : Half) : Statement (.cobsDec b) :=
  fun _ => ⟨Nat.le_of_ble_eq_true rfl, Nat.le_of_ble_eq_true rfl⟩

theorem crcCalc (b : Half) (n : Nat) : Statement (.crcCalc b n) :=
  fun _ => ⟨Nat.le_of_ble_eq_true rfl, Nat.le_of_ble_eq_true rfl⟩

theorem frmSend (hasVersion hasCrc : Bool) (version command : Byte) (data : List Byte) : Statement (.frmSend hasVersion hasCrc version command data) := by
  intro h
  have := of_decide_eq_true h
  simp [encode, encodeSeq_length, longestRequest]
  omega

theorem frmRecv (hasVersion hasCrc : Bool) (dstCap : Nat) : Statement (.frmRecv hasVersion hasCrc dstCap) :=
  fun _ => ⟨Nat.le_of_ble_eq_true rfl, Nat.le_of_ble_eq_true rfl⟩

theorem pkReadReq (reg : BitVec 16) (dstCap : Nat) : Statement (.pkReadReq reg dstCap) :=
  fun _ => ⟨Nat.le_of_ble_eq_true rfl, Nat.le_of_ble_eq_true rfl⟩

theorem pkWrite8 (reg : BitVec 16) (v8 : Byte) (dstCap : Nat) : Statement (.pkWrite8 reg v8 dstCap) :=
  fun _ => ⟨Nat.le_of_ble_eq_true rfl, Nat.le_of_ble_eq_true rfl⟩

theorem pkWrite32 (reg : BitVec 16) (v32 : BitVec 32) (dstCap : Nat) : Statement (.pkWrite32 reg v32 dstCap) :=
  fun _ => ⟨Nat.le_of_ble_eq_true rfl, Nat.le_of_ble_eq_true rfl⟩

theorem unpkReadReq (p : List Byte) : Statement (.unpkReadReq p) := by
  intro h
  have := of_decide_eq_true h
  simp [encode, encodeSeq_length, longestRequest]
  omega

theorem unpkRegval (p : List Byte) : Statement (.unpkRegval p) := by
  intro h
  have := of_decide_eq_true h
  simp [encode, encodeSeq_length, longestRequest]
  omega

theorem unpkAck (p : List Byte) : Statement (.unpkAck p) := by
  intro h
  have := of_decide_eq_true h
  simp [encode, encodeSeq_length, longestRequest]
  omega

theorem hpClassify (cmd : Byte) : Statement (.hpClassify cmd) :=
  fun _ => ⟨Nat.le_of_ble_eq_true rfl, Nat.le_of_ble_eq_true rfl⟩

theorem rtRoute : Statement .rtRoute :=
  fun _ => ⟨Nat.le_of_ble_eq_true rfl, Nat.le_of_ble_eq_true rfl⟩

theorem rtClose : Statement .rtClose :=
  fun _ => ⟨Nat.le_of_ble_eq_true rfl, Nat.le_of_ble_eq_true rfl⟩

theorem qPop (q : BitVec 2) : Statement (.qPop q) :=
  fun _ => ⟨Nat.le_of_ble_eq_true rfl, Nat.le_of_ble_eq_true rfl⟩

theorem stFormat (cmd : Byte) : Statement (.stFormat cmd) :=
  fun _ => ⟨Nat.le_of_ble_eq_true rfl, Nat.le_of_ble_eq_true rfl⟩

theorem stUnpack (cmd : Byte) (p : List Byte) : Statement (.stUnpack cmd p) := by
  intro h
  have := of_decide_eq_true h
  simp [encode, encodeSeq_length, longestRequest]
  omega

theorem cmdInvalid0 : Statement .cmdInvalid0 :=
  fun _ => ⟨Nat.le_of_ble_eq_true rfl, Nat.le_of_ble_eq_true rfl⟩

theorem cmdRegisterRead : Statement .cmdRegisterRead :=
  fun _ => ⟨Nat.le_of_ble_eq_true rfl, Nat.le_of_ble_eq_true rfl⟩

theorem cmdRegisterWrite : Statement .cmdRegisterWrite :=
  fun _ => ⟨Nat.le_of_ble_eq_true rfl, Nat.le_of_ble_eq_true rfl⟩

theorem cmdReserved03 : Statement .cmdReserved03 :=
  fun _ => ⟨Nat.le_of_ble_eq_true rfl, Nat.le_of_ble_eq_true rfl⟩

theorem cmdReserved04_07 (low : BitVec 2) : Statement (.cmdReserved04_07 low) :=
  fun _ => ⟨Nat.le_of_ble_eq_true rfl, Nat.le_of_ble_eq_true rfl⟩

theorem cmdReserved08_0F (low : BitVec 3) : Statement (.cmdReserved08_0F low) :=
  fun _ => ⟨Nat.le_of_ble_eq_true rfl, Nat.le_of_ble_eq_true rfl⟩

theorem cmdReserved10_1F (low : BitVec 4) : Statement (.cmdReserved10_1F low) :=
  fun _ => ⟨Nat.le_of_ble_eq_true rfl, Nat.le_of_ble_eq_true rfl⟩

theorem cmdReserved20_3F (low : BitVec 5) : Statement (.cmdReserved20_3F low) :=
  fun _ => ⟨Nat.le_of_ble_eq_true rfl, Nat.le_of_ble_eq_true rfl⟩

theorem cmdReserved40_7F (low : BitVec 6) : Statement (.cmdReserved40_7F low) :=
  fun _ => ⟨Nat.le_of_ble_eq_true rfl, Nat.le_of_ble_eq_true rfl⟩

theorem cmdStream (descriptor : BitVec 7) : Statement (.cmdStream descriptor) :=
  fun _ => ⟨Nat.le_of_ble_eq_true rfl, Nat.le_of_ble_eq_true rfl⟩

/-- For every instruction. -/
theorem all (i : Instr) : Statement i := by
  cases i with
  | rbPushBack b v => exact rbPushBack b v
  | rbPushFront b v => exact rbPushFront b v
  | rbPopFront b => exact rbPopFront b
  | rbPopBack b => exact rbPopBack b
  | rbGet b i => exact rbGet b i
  | rbSet b i v => exact rbSet b i v
  | rbLen b => exact rbLen b
  | rbCap b => exact rbCap b
  | rbIsFull b => exact rbIsFull b
  | rbClear b => exact rbClear b
  | rbSlices b => exact rbSlices b
  | rbExtend b => exact rbExtend b
  | rbDrain b => exact rbDrain b
  | cobsEnc b => exact cobsEnc b
  | cobsDec b => exact cobsDec b
  | crcCalc b n => exact crcCalc b n
  | frmSend hasVersion hasCrc version command data => exact frmSend hasVersion hasCrc version command data
  | frmRecv hasVersion hasCrc dstCap => exact frmRecv hasVersion hasCrc dstCap
  | pkReadReq reg dstCap => exact pkReadReq reg dstCap
  | pkWrite8 reg v8 dstCap => exact pkWrite8 reg v8 dstCap
  | pkWrite32 reg v32 dstCap => exact pkWrite32 reg v32 dstCap
  | unpkReadReq p => exact unpkReadReq p
  | unpkRegval p => exact unpkRegval p
  | unpkAck p => exact unpkAck p
  | hpClassify cmd => exact hpClassify cmd
  | rtRoute => exact rtRoute
  | rtClose => exact rtClose
  | qPop q => exact qPop q
  | stFormat cmd => exact stFormat cmd
  | stUnpack cmd p => exact stUnpack cmd p
  | cmdInvalid0 => exact cmdInvalid0
  | cmdRegisterRead => exact cmdRegisterRead
  | cmdRegisterWrite => exact cmdRegisterWrite
  | cmdReserved03 => exact cmdReserved03
  | cmdReserved04_07 low => exact cmdReserved04_07 low
  | cmdReserved08_0F low => exact cmdReserved08_0F low
  | cmdReserved10_1F low => exact cmdReserved10_1F low
  | cmdReserved20_3F low => exact cmdReserved20_3F low
  | cmdReserved40_7F low => exact cmdReserved40_7F low
  | cmdStream descriptor => exact cmdStream descriptor

end Sys2Proof.Laws.RequestLength
end

