-- ==== Sys2Proof/Tests/Slice0.lean ====
section
/-! SUPPORT. Tests of the model, their expected results taken from 95_test_vectors.md (named at each test) or worked out
by hand from the rule; then a witness for the hypotheses of each statement. -/

section

set_option Elab.async false

namespace Sys2Proof.Tests

open Sys2Proof Sys2Proof.Machine

/-! Well-formedness: an ill-formed term for each check. -/

theorem test_wf_get : (Instr.rbGet .rx 256).wellFormed = false := by decide
theorem test_wf_set : (Instr.rbSet .tx 256 0).wellFormed = false := by decide
theorem test_wf_crc : (Instr.crcCalc .tx 256).wellFormed = false := by decide
theorem test_wf_send : (Instr.frmSend true true 1 2 (List.replicate 256 0)).wellFormed = false := by decide +kernel
theorem test_wf_recv : (Instr.frmRecv true true 256).wellFormed = false := by decide
theorem test_wf_readReq : (Instr.pkReadReq 42 256).wellFormed = false := by decide
theorem test_wf_write8 : (Instr.pkWrite8 42 7 256).wellFormed = false := by decide
theorem test_wf_write32 : (Instr.pkWrite32 42 7 256).wellFormed = false := by decide
theorem test_wf_unpkReadReq : (Instr.unpkReadReq (List.replicate 256 0)).wellFormed = false := by decide +kernel
theorem test_wf_unpkRegval : (Instr.unpkRegval (List.replicate 256 0)).wellFormed = false := by decide +kernel
theorem test_wf_unpkAck : (Instr.unpkAck (List.replicate 256 0)).wellFormed = false := by decide +kernel
theorem test_wf_stUnpack : (Instr.stUnpack 0x85 (List.replicate 256 0)).wellFormed = false := by decide +kernel

/-! Decoding: requests written out from rules R100 and R101 (the column `enc` of 95_test_vectors.md section 8, with the
packing of log entry 2), and command bytes from rule R90. -/

theorem test_decode_ringBuffer :
    decode .op [0x10, 0, 0x41] = .ok (.rbPushBack .tx 0x41) ∧ decode .op [0x11, 1, 0x42] = .ok (.rbPushFront .rx 0x42)
      ∧ decode .op [0x12, 1] = .ok (.rbPopFront .rx) ∧ decode .op [0x13, 0] = .ok (.rbPopBack .tx)
      ∧ decode .op [0x14, 1, 0x0C] = .ok (.rbGet .rx 12) ∧ decode .op [0x15, 0, 3, 0x77] = .ok (.rbSet .tx 3 0x77)
      ∧ decode .op [0x16, 0] = .ok (.rbLen .tx) ∧ decode .op [0x17, 1] = .ok (.rbCap .rx)
      ∧ decode .op [0x18, 0] = .ok (.rbIsFull .tx) ∧ decode .op [0x19, 1] = .ok (.rbClear .rx)
      ∧ decode .op [0x1A, 0] = .ok (.rbSlices .tx) ∧ decode .op [0x1B, 1] = .ok (.rbExtend .rx)
      ∧ decode .op [0x1C, 0] = .ok (.rbDrain .tx) := by decide

theorem test_decode_codecs :
    decode .op [0x20, 0] = .ok (.cobsEnc .tx) ∧ decode .op [0x21, 1] = .ok (.cobsDec .rx)
      ∧ decode .op [0x30, 1, 4] = .ok (.crcCalc .rx 4)
      ∧ decode .op [0x40, 1, 1, 0x01, 0x02, 3, 0x00, 0x2A, 0x07] = .ok (.frmSend true true 1 2 [0x00, 0x2A, 0x07])
      ∧ decode .op [0x41, 0, 1, 0x0B] = .ok (.frmRecv false true 11) := by decide

theorem test_decode_packers :
    decode .op [0x50, 0x00, 0x2A, 2] = .ok (.pkReadReq 42 2)
      ∧ decode .op [0x51, 0x00, 0x2A, 0x07, 3] = .ok (.pkWrite8 42 7 3)
      ∧ decode .op [0x52, 0x00, 0x2A, 1, 2, 3, 4, 6] = .ok (.pkWrite32 42 0x01020304 6)
      ∧ decode .op [0x53, 2, 0x00, 0x2A] = .ok (.unpkReadReq [0x00, 0x2A])
      ∧ decode .op [0x54, 3, 0x00, 0x2A, 0x07] = .ok (.unpkRegval [0x00, 0x2A, 0x07])
      ∧ decode .op [0x55, 0] = .ok (.unpkAck []) := by decide

theorem test_decode_router :
    decode .op [0x60, 0x85] = .ok (.hpClassify 0x85) ∧ decode .op [0x61] = .ok .rtRoute
      ∧ decode .op [0x62] = .ok .rtClose ∧ decode .op [0x63, 2] = .ok (.qPop 2)
      ∧ decode .op [0x64, 0x86] = .ok (.stFormat 0x86)
      ∧ decode .op [0x65, 0x85, 2, 0x0A, 0x0B] = .ok (.stUnpack 0x85 [0x0A, 0x0B]) := by decide

theorem test_decode_commands :
    decode .cmd [0x00] = .ok .cmdInvalid0 ∧ decode .cmd [0x01] = .ok .cmdRegisterRead
      ∧ decode .cmd [0x02] = .ok .cmdRegisterWrite ∧ decode .cmd [0x03] = .ok .cmdReserved03
      ∧ decode .cmd [0x07] = .ok (.cmdReserved04_07 3) ∧ decode .cmd [0x08] = .ok (.cmdReserved08_0F 0)
      ∧ decode .cmd [0x1F] = .ok (.cmdReserved10_1F 15) ∧ decode .cmd [0x20] = .ok (.cmdReserved20_3F 0)
      ∧ decode .cmd [0x7F] = .ok (.cmdReserved40_7F 63) ∧ decode .cmd [0x80] = .ok (.cmdStream 0)
      ∧ decode .cmd [0xFF] = .ok (.cmdStream 127) := by decide

/-- One request for each way of being rejected. -/
theorem test_decode_rejects :
    decode .op [] = .error .emptyRequest ∧ decode .op [0x1D, 0] = .error (.unknownSelector 0x1D)
      ∧ decode .op [0x10, 0] = .error .missingOperand ∧ decode .op [0x12, 2] = .error (.operandTooWide 2)
      ∧ decode .op [0x63, 4] = .error (.operandTooWide 4) ∧ decode .op [0x61, 0] = .error .trailingBytes
      ∧ decode .op [0x53, 2, 0x00] = .error .missingOperand ∧ decode .cmd [] = .error .notOneCommandByte
      ∧ decode .cmd [1, 1] = .error .notOneCommandByte := by decide

/-- Words of the opcode table: a selector, with operand bytes of zeros, and a command byte. -/
theorem test_table_words :
    decodeTableWord 8 0x10 = some (.rbPushBack .tx 0) ∧ decodeTableWord 8 0x61 = some .rtRoute
      ∧ decodeTableWord 8 0x65 = some (.stUnpack 0 []) ∧ decodeTableWord 8 0x02 = some .cmdRegisterWrite
      ∧ decodeTableWord 8 0x80 = some (.cmdStream 0) ∧ decodeTableWord 16 0x0112 = some (.rbPopFront .rx) := by
  decide +kernel

/-! Single operations. `after i s` is the state after `i`. -/

def after (i : Instr) (s : State) : State :=
  match exec i s with
  | .next t                => t
  | .fault _ | .refused _ => s

/-- The state after one step. -/
def stepped (s : State) : State :=
  match step s with
  | .next t                => t
  | .fault _ | .refused _ => s

/-- Capacity 4, as in table T-RB-1. -/
def tiny : Config :=
  { Config.default with capTx := 4, capRx := 4, admissible := by decide }

/-- A tiny block whose `TXB` has its front at `head` and holds `bytes`. -/
def tinyTx (head : Nat) (bytes : List Byte) : State :=
  let s := State.resetWith tiny head 0
  { s with txb := s.txb.pushAll 4 bytes }

/-- Capacity 16; `TXB` with its front at `head`, holding `bytes`. -/
def withTx (head : Nat) (bytes : List Byte) : State :=
  let s := State.resetWith Config.default head 0
  { s with txb := s.txb.pushAll 16 bytes }

/-- Capacity 16; `RXB` with its front at 13, across the seam, holding `bytes`; two head draws are supplied. -/
def withRx (bytes : List Byte) : State :=
  let s := State.resetWith Config.default 0 13
  { s with rxb := s.rxb.pushAll 16 bytes, drawsTx := [12], drawsRx := [5] }

/-- The frame of 95_test_vectors.md EX2: a register-read response for register 42, value 7. -/
def frame : List Byte := [0x02, 0x01, 0x05, 0x2A, 0x07, 0x39, 0xD5, 0x00]

/-- A frame in the latches. -/
def latched (command : Byte) (payload : List Byte) : State :=
  { State.reset with
    outCommand := command, outLen := payload.length, outData := Memory.writeSeq [] 0 payload, outValid := true }

/-- One entry on the stream queue, and the consumer about to move. -/
def consuming (act : Activity) : State :=
  { State.reset with stq := [(0x85, [0, 0, 0, 0])], consumer := [act], turns := [.move .consumer] }

-- T-RB-1
theorem test_pushBack_full : (after (.rbPushBack .tx 5) (tinyTx 2 [1, 2, 3, 4])).txb
    = { mem := [(0, 3), (1, 4), (2, 5), (3, 2)], head := 3, len := 4 } := by decide +kernel
theorem test_pushBack_wraps : (after (.rbPushBack .tx 3) (tinyTx 2 [1, 2])).txb
    = { mem := [(0, 3), (2, 1), (3, 2)], head := 2, len := 3 } := by decide +kernel
theorem test_pushFront_full : (after (.rbPushFront .tx 9) (tinyTx 3 [2, 3, 4, 5])).content .tx = [9, 2, 3, 4] := by
  decide +kernel
theorem test_pushFront_wraps : (after (.rbPushFront .tx 9) (tinyTx 0 [2])).txb
    = { mem := [(0, 2), (3, 9)], head := 3, len := 2 } := by decide +kernel
theorem test_popFront : (after (.rbPopFront .tx) (tinyTx 3 [9, 2, 3])).content .tx = [2, 3]
    ∧ (after (.rbPopFront .tx) (tinyTx 3 [9, 2, 3])).resTx = { status := .ok, val := .num 9 } := by decide +kernel
theorem test_popFront_empty : (after (.rbPopFront .tx) (tinyTx 1 [])).resTx.status = .noSuchElement := by decide +kernel
theorem test_popBack : (after (.rbPopBack .tx) (tinyTx 3 [2, 3, 4])).content .tx = [2, 3]
    ∧ (after (.rbPopBack .tx) (tinyTx 3 [2, 3, 4])).resTx = { status := .ok, val := .num 4 } := by decide +kernel
theorem test_popBack_empty : (after (.rbPopBack .tx) (tinyTx 1 [])).resTx.status = .noSuchElement := by decide +kernel
theorem test_get : (after (.rbGet .tx 1) (tinyTx 3 [2, 3])).resTx = { status := .ok, val := .num 3 } := by decide +kernel
theorem test_get_past_len : (after (.rbGet .tx 2) (tinyTx 3 [2, 3])).resTx.status = .noSuchElement := by decide +kernel
theorem test_set : (after (.rbSet .tx 0 0x77) (tinyTx 3 [2, 3])).txb
    = { mem := [(0, 3), (3, 0x77)], head := 3, len := 2 } := by decide +kernel
theorem test_set_past_len : (after (.rbSet .tx 2 0) (tinyTx 3 [2, 3])).content .tx = [2, 3] := by decide +kernel
theorem test_len : (after (.rbLen .tx) (tinyTx 2 [6, 7, 3])).resTx.val = .num 3 := by decide +kernel
theorem test_cap : (after (.rbCap .rx) (tinyTx 2 [6, 7, 3])).resRx.val = .num 4 := by decide +kernel
theorem test_isFull : (after (.rbIsFull .tx) (tinyTx 2 [1, 2, 3])).resTx.val = .num 0
    ∧ (after (.rbIsFull .tx) (tinyTx 2 [1, 2, 3, 4])).resTx.val = .num 1 := by decide +kernel
theorem test_clear : (after (.rbClear .tx) { tinyTx 1 [7] with drawsTx := [3] }).txb
    = { mem := [(1, 7)], head := 3, len := 0 } := by decide +kernel
-- T-RB-2
theorem test_slices : (after (.rbSlices .tx) (withTx 12 [1, 2, 3, 4, 5, 6, 7, 8])).resTx.val = .pair 4 4 := by
  decide +kernel
theorem test_slices_at_top : (after (.rbSlices .tx) (withTx 12 [1, 2, 3, 4])).resTx.val = .pair 4 0 := by decide +kernel
-- T-RB-3
theorem test_extend : (after (.rbExtend .rx)
      { withRx [0xAA, 0xBB, 0xCC] with rxReads := [.bytes 1 [2, 3, 4, 5, 6, 7, 8, 9, 10, 11, 12, 13, 14, 15]] }).content .rx
    = [0xCC, 1, 2, 3, 4, 5, 6, 7, 8, 9, 10, 11, 12, 13, 14, 15] := by decide +kernel
theorem test_extend_failed : (after (.rbExtend .rx) { withRx [1] with rxReads := [.failed] }).rxClosed = false
    ∧ (after (.rbExtend .rx) { withRx [1] with rxReads := [.failed] }).resRx.status = .transportFailure := by
  decide +kernel
-- T-RB-4
theorem test_drain : (after (.rbDrain .tx) { withTx 14 [2, 2, 4, 0x2A, 0x76, 0x15, 0] with txWrites := [.completed] }).txStream
    = [2, 2, 4, 0x2A, 0x76, 0x15, 0] := by decide +kernel
theorem test_drain_failed :
    (after (.rbDrain .tx) { withTx 14 [2, 2, 4, 0x2A] with txWrites := [.failed 3] }).content .tx = [0x2A] := by
  decide +kernel
-- T-COBS-1
theorem test_enc : (after (.cobsEnc .tx) (withTx 15 [0x11, 0x22, 0x00, 0x33])).txb
    = { mem := [(0, 0x22), (1, 0x02), (2, 0x33), (14, 0x03), (15, 0x11)], head := 14, len := 6 } := by decide +kernel
theorem test_enc_overflow : (after (.cobsEnc .tx) (tinyTx 0 [1, 2, 3])).resTx.status = .cobsOverflow := by decide +kernel
-- T-COBS-2
theorem test_dec : (after (.cobsDec .rx) (withRx [3, 0x11, 0x22, 2, 0x33, 0, 0xAA])).content .rx
      = [0x11, 0x22, 0, 0x33, 0, 0xAA]
    ∧ (after (.cobsDec .rx) (withRx [3, 0x11, 0x22, 2, 0x33, 0, 0xAA])).resRx.val = .num 5 := by decide +kernel
theorem test_dec_noTerminator : (after (.cobsDec .rx) (withRx [3, 1, 2, 4, 9, 9])).content .rx = [0, 1, 2, 0, 9, 9]
    ∧ (after (.cobsDec .rx) (withRx [0xFF, 1, 0])).resRx.status = .noTerminator := by decide +kernel
-- T-CRC-2
theorem test_crc : (after (.crcCalc .tx 4) (withTx 14 [0x02, 0x00, 0x2A, 0x07, 0x33, 0x94])).resTx.val = .num 0x3394 := by
  decide +kernel
theorem test_crc_past_len : (after (.crcCalc .tx 7) (withTx 14 [2, 0, 0x2A, 7, 0x33, 0x94])).resTx.status
    = .noSuchElement := by decide +kernel
-- P1 line 2, and T-FRM-1
theorem test_send : (after (.frmSend true true 0x01 0x02 [0x00, 0x2A, 0x07]) (withRx [])).txb
    = { mem := [(0, 0x07), (1, 0x10), (2, 0x92), (11, 0x03), (12, 0x01), (13, 0x02), (14, 0x05), (15, 0x2A)],
        head := 11, len := 9 } := by decide +kernel
theorem test_send_maximum : (after (.frmSend false false 0 2 (List.replicate 13 0xAA)) (withRx [])).resTx.val = .num 16
    ∧ (after (.frmSend false false 0 2 (List.replicate 14 0xAA)) (withRx [])).resTx.status = .payloadTooLarge := by
  decide +kernel
-- T-FRM-2
theorem test_recv : (after (.frmRecv false true 11) (withRx (frame ++ [0xAA, 0xBB]))).payload = [0x00, 0x2A, 0x07]
    ∧ (after (.frmRecv false true 11) (withRx (frame ++ [0xAA, 0xBB]))).content .rx = [0xAA, 0xBB] := by decide +kernel
theorem test_recv_flipped : (after (.frmRecv false true 11) (withRx (frame.set 3 0x2B))).resRx.status = .checksumMismatch
    ∧ (after (.frmRecv false true 11) (withRx (frame.set 3 0x2B))).outValid = false := by decide +kernel
-- T-PK-1
theorem test_pkReadReq : (after (.pkReadReq 0xABCD 2) State.reset).replies = [Reply.good (.bytes [0xAB, 0xCD])]
    ∧ (after (.pkReadReq 42 1) State.reset).replies = [Reply.bad .destTooSmall] := by decide +kernel
theorem test_pkWrite8 : (after (.pkWrite8 42 7 3) State.reset).replies = [Reply.good (.bytes [0x00, 0x2A, 0x07])]
    ∧ (after (.pkWrite8 42 7 2) State.reset).replies = [Reply.bad .destTooSmall] := by decide +kernel
theorem test_pkWrite32 : (after (.pkWrite32 42 0x01020304 6) State.reset).replies
      = [Reply.good (.bytes [0x00, 0x2A, 0x01, 0x02, 0x03, 0x04])]
    ∧ (after (.pkWrite32 42 7 5) State.reset).replies = [Reply.bad .destTooSmall] := by decide +kernel
theorem test_unpkReadReq : (after (.unpkReadReq [0x00, 0x2A]) State.reset).replies = [Reply.good (.reg 42)]
    ∧ (after (.unpkReadReq [0x00, 0x2A, 0x07]) State.reset).replies = [Reply.bad .malformedPayload] := by decide +kernel
theorem test_unpkRegval : (after (.unpkRegval [0x00, 0x2A, 0xFF]) State.reset).replies = [Reply.good (.regVal 42 255)]
    ∧ (after (.unpkRegval [0xAB, 0xCD, 0xDE, 0xAD, 0xBE, 0xEF]) State.reset).replies
      = [Reply.good (.regVal 0xABCD 0xDEADBEEF)] := by decide +kernel
theorem test_unpkAck : (after (.unpkAck [0x00, 0x2A, 0x07]) State.reset).replies = [Reply.good (.reg 42)]
    ∧ (after (.unpkAck [0x00]) State.reset).replies = [Reply.bad .malformedPayload] := by decide +kernel
-- T-RT-1
theorem test_classify : (after (.hpClassify 0x7F) State.reset).replies = [Reply.good (.cls .reserved)]
    ∧ (after (.hpClassify 0x80) State.reset).replies = [Reply.good (.cls .stream)] := by decide +kernel
-- T-RT-2
theorem test_route : (after .rtRoute (latched 0x01 [0x00, 0x2A, 0x07])).rdq = [(42, 7)]
    ∧ (after .rtRoute (latched 0x01 [0x00, 0x2A, 0x07])).outValid = false := by decide +kernel
theorem test_route_malformed : (after .rtRoute (latched 0x02 [0x00])).diag
      = [{ code := .malformedPayload, command := some 0x02 }]
    ∧ (after .rtRoute (latched 0x02 [0x00])).resRx = { status := .malformedPayload, val := .num 2 } := by decide +kernel
-- P6 line 6
theorem test_close : (after .rtClose (withRx frame)).rxClosed = true
    ∧ (after (.rbLen .rx) (after .rtClose (withRx frame))).resRx.status = .closed := by decide +kernel
-- T-RT-3
theorem test_pop : (after (.qPop 0) { State.reset with rdq := [(42, 7), (43, 8)] }).rdq = [(43, 8)]
    ∧ (after (.qPop 0) { State.reset with rdq := [(42, 7), (43, 8)] }).replies = [Reply.good (.regVal 42 7)] := by
  decide +kernel
theorem test_pop_empty : (after (.qPop 1) State.reset).replies = [Reply.bad .empty]
    ∧ (after (.qPop 2) { State.reset with rxClosed := true }).replies = [Reply.bad .closed] := by decide +kernel
-- T-ST-1
theorem test_format : (after (.stFormat 0x86) State.reset).replies = [Reply.good (.format 16 1)]
    ∧ (after (.stFormat 0x89) State.reset).replies = [Reply.bad .unsupportedFormat] := by decide +kernel
theorem test_unpack : (after (.stUnpack 0x86 [0x12, 0x34, 0x56, 0x78]) State.reset).replies
      = [Reply.good (.samples [0x1234, 0x5678])]
    ∧ (after (.stUnpack 0x86 [0x12, 0x34, 0x56]) State.reset).replies = [Reply.bad .malformedPayload] := by decide +kernel
-- rule R271: an unknown selector, addressed to a half by `b` and not
theorem test_badRequest : (stepped (State.issueNext (withRx frame) .client [0x66, 1])).resRx.status = .badOperation
    ∧ (stepped (State.issueNext (withRx frame) .client [0x66])).replies = [Reply.bad .badOperation] := by decide +kernel
-- rule R249: the consumer's loop on the entry of the source's example
theorem test_streamPop : (stepped (consuming .streamPop)).agenda .consumer = [.streamUnpack 0x85 [0, 0, 0, 0]]
    ∧ (stepped (consuming .streamPop)).stq = [] := by decide +kernel
theorem test_streamUnpack : (stepped (consuming (.streamUnpack 0x85 [0, 0, 0, 0]))).replies
      = [Reply.good (.samples [0, 0, 0, 0])]
    ∧ (stepped (consuming (.streamUnpack 0x85 [0, 0, 0, 0]))).agenda .consumer = [.streamPop] := by decide +kernel
-- rule R90, last column
theorem test_cmdInvalid0 : (after .cmdInvalid0 (latched 0x00 [])).diag
    = [{ code := .unexpectedCommand, command := some 0x00 }] := by decide +kernel
theorem test_cmdRegisterRead : (after .cmdRegisterRead (latched 0x01 [0x00, 0x2A, 0, 0, 0, 7])).rdq = [(42, 7)] := by
  decide +kernel
theorem test_cmdRegisterWrite : (after .cmdRegisterWrite (latched 0x02 [0x00, 0x2A])).waq = [42] := by decide +kernel
theorem test_cmdReserved :
    (after .cmdReserved03 (latched 0x03 [1])).resRx = { status := .unexpectedCommand, val := .num 3 }
      ∧ (after (.cmdReserved04_07 1) (latched 0x05 [])).diag = [{ code := .unexpectedCommand, command := some 0x05 }]
      ∧ (after (.cmdReserved08_0F 7) (latched 0x0F [])).diag = [{ code := .unexpectedCommand, command := some 0x0F }]
      ∧ (after (.cmdReserved10_1F 0) (latched 0x10 [])).diag = [{ code := .unexpectedCommand, command := some 0x10 }]
      ∧ (after (.cmdReserved20_3F 31) (latched 0x3F [])).diag = [{ code := .unexpectedCommand, command := some 0x3F }]
      ∧ (after (.cmdReserved40_7F 63) (latched 0x7F [])).diag
        = [{ code := .unexpectedCommand, command := some 0x7F }] := by decide +kernel
theorem test_cmdStream : (after (.cmdStream 5) (latched 0x85 [0, 0, 0, 0])).stq = [(0x85, [0, 0, 0, 0])] := by
  decide +kernel

/-! Witnesses. Each shows states and operands that meet the hypotheses of the statement it is named after, clause by
clause, at the ends of the ranges. -/

/-- The invariant as a check that can be evaluated. -/
abbrev InvCheck (s : State) : Prop :=
  (s.txb.head < s.cfg.capTx ∧ s.txb.len ≤ s.cfg.capTx ∧ Memory.wf s.txb.mem ∧ Memory.below s.txb.mem s.cfg.capTx)
    ∧ (s.rxb.head < s.cfg.capRx ∧ s.rxb.len ≤ s.cfg.capRx ∧ Memory.wf s.rxb.mem ∧ Memory.below s.rxb.mem s.cfg.capRx)
    ∧ s.outLen + 3 ≤ s.cfg.capRx ∧ Memory.wf s.outData ∧ Memory.below s.outData (s.cfg.capRx - 3)
    ∧ (∀ e ∈ s.stq, e.2.length + 3 ≤ s.cfg.capRx)
    ∧ s.cfg.qDepth.all (fun d => decide (s.rdq.length ≤ d)) = true
    ∧ s.cfg.qDepth.all (fun d => decide (s.waq.length ≤ d)) = true
    ∧ s.cfg.qDepth.all (fun d => decide (s.stq.length ≤ d)) = true

theorem fits_of {q : Option Nat} {n : Nat} (h : q.all (fun d => decide (n ≤ d)) = true) : fitsDepth q n := by
  intro d hd
  subst hd
  exact of_decide_eq_true h

theorem inv_of {s : State} (h : InvCheck s) : s.Inv := by
  obtain ⟨⟨a, b, c, d⟩, ⟨e, f, g, i⟩, j, k, l, m, n, o, p⟩ := h
  exact ⟨⟨a, b, c, d⟩, ⟨e, f, g, i⟩, j, k, l, m, fits_of n, fits_of o, fits_of p⟩

theorem accepts_tx (s : State) : s.accepts .tx := nofun

/-- Whether a result is a next state. -/
def isNext : Result → Bool
  | .next _                => true
  | .fault _ | .refused _ => false

theorem next_of {i : Instr} {s : State} (h : isNext (exec i s) = true) : exec i s = .next (after i s) := by
  unfold after
  cases he : exec i s with
  | next t => rfl
  | fault r => exact nomatch r
  | refused r => rw [he] at h; exact nomatch h

theorem stepped_of {s : State} (h : isNext (step s) = true) : step s = .next (stepped s) := by
  unfold stepped
  cases he : step s with
  | next t => rfl
  | fault r => exact nomatch r
  | refused r => rw [he] at h; exact nomatch h

/-- The chain of `w` from index `p`, in at most `steps` steps. -/
def chainFrom (w : List Byte) : Nat → Nat → List Nat
  | 0, _         => []
  | steps + 1, p =>
    match w[p]? with
    | none   => [p]
    | some v => if v = 0 then [p] else p :: chainFrom w steps (p + v.toNat)

/-- The chain ends within `steps` steps. -/
def chainEnds (w : List Byte) : Nat → Nat → Bool
  | 0, _         => false
  | steps + 1, p =>
    match w[p]? with
    | none   => true
    | some v => if v = 0 then true else chainEnds w steps (p + v.toNat)

theorem onChain_of_mem {w : List Byte} {steps p k : Nat} (hp : OnChain w p) (h : k ∈ chainFrom w steps p) :
    OnChain w k := by
  induction steps generalizing p with
  | zero => exact nomatch h
  | succ steps ih =>
    simp only [chainFrom] at h
    split at h
    · rw [List.mem_singleton.1 h]; exact hp
    · rename_i v hv
      split at h
      · rw [List.mem_singleton.1 h]; exact hp
      · rename_i hne
        rcases List.mem_cons.1 h with rfl | h
        · exact hp
        · exact ih (hp.hop hv hne) h

theorem chain_closed {w : List Byte} {steps p k : Nat} {v : Byte} (he : chainEnds w steps p = true)
    (hk : k ∈ chainFrom w steps p) (hv : w[k]? = some v) (hne : v ≠ 0) : k + v.toNat ∈ chainFrom w steps p := by
  induction steps generalizing p with
  | zero => exact nomatch hk
  | succ steps ih =>
    simp only [chainFrom, chainEnds] at he hk ⊢
    split at hk
    · rename_i hn
      rw [List.mem_singleton.1 hk, hn] at hv
      exact nomatch hv
    · rename_i u hu
      simp only [hu] at he ⊢
      split at hk
      · rename_i h0
        rw [List.mem_singleton.1 hk, hu, h0] at hv
        exact absurd (Option.some.inj hv).symm hne
      · rename_i h0
        rw [if_neg h0] at he ⊢
        rcases List.mem_cons.1 hk with rfl | hk
        · rw [hu] at hv
          cases hv
          cases steps with
          | zero => exact nomatch he
          | succ steps =>
            refine List.mem_cons_of_mem _ ?_
            simp only [chainFrom]
            split
            · exact List.mem_singleton.2 rfl
            · split
              · exact List.mem_singleton.2 rfl
              · exact List.mem_cons_self
        · exact List.mem_cons_of_mem _ (ih he hk)

theorem onChain_iff {w : List Byte} {steps : Nat} (he : chainEnds w steps 0 = true) (k : Nat) :
    OnChain w k ↔ k ∈ chainFrom w steps 0 := by
  refine ⟨fun h => ?_, onChain_of_mem .start⟩
  induction h with
  | start =>
    cases steps with
    | zero => exact nomatch he
    | succ steps =>
      simp only [chainFrom]
      split
      · exact List.mem_singleton.2 rfl
      · split
        · exact List.mem_singleton.2 rfl
        · exact List.mem_cons_self
  | hop _ hv hne ih => exact chain_closed he ih hv hne

/-- `Decodes` as a check that can be evaluated. -/
theorem decodes_of {w m rest : List Byte} (steps : Nat)
    (h : chainEnds w steps 0 = true ∧ m.length + 1 ∈ chainFrom w steps 0 ∧ w[m.length + 1]? = some 0
      ∧ (∀ k, k < m.length → m[k]? = if k + 1 ∈ chainFrom w steps 0 then some 0 else w[k + 1]?)
      ∧ rest = w.drop (m.length + 2)) : Decodes w m rest := by
  obtain ⟨he, hl, hz, hm, hr⟩ := h
  refine ⟨(onChain_iff he _).2 hl, hz, fun k hk ho => ?_, fun k hk ho => ?_, hr⟩
  · rw [hm k hk, if_pos ((onChain_iff he _).1 ho)]
  · rw [hm k hk, if_neg fun hc => ho ((onChain_iff he _).2 hc)]

/-! Encoding and the machine as a whole. -/

theorem witness_EncodedInstructionsDecodeToThemselves :
    (Instr.rbGet .rx 255).wellFormed = true ∧ (Instr.frmSend true false 0 0 (List.replicate 255 0xFF)).wellFormed = true
      ∧ (Instr.cmdStream 127).wellFormed = true ∧ (Instr.rbGet .rx 255).format = .op := by decide +kernel

theorem witness_DecodedBytesAreTheEncoding :
    decode .op [0x14, 0x01, 0xFF] = .ok (.rbGet .rx 255) ∧ decode .cmd [0xFF] = .ok (.cmdStream 127) := by decide

theorem witness_ResetLeavesTheBlockEmpty : 15 < Config.default.capTx ∧ 3 < tiny.capTx ∧ 0 < tiny.capRx := by decide

theorem witness_EveryStepKeepsInvariant :
    (tinyTx 2 [1, 2, 3, 4]).Inv
      ∧ exec (.rbPushBack .tx 5) (tinyTx 2 [1, 2, 3, 4]) = .next (after (.rbPushBack .tx 5) (tinyTx 2 [1, 2, 3, 4]))
      ∧ step (State.issueNext (tinyTx 2 [1, 2, 3, 4]) .client [0x10, 0, 5])
        = .next (stepped (State.issueNext (tinyTx 2 [1, 2, 3, 4]) .client [0x10, 0, 5]))
      ∧ (State.issueNext (tinyTx 2 [1, 2, 3, 4]) .client [0x10, 0, 5]).Inv :=
  ⟨inv_of (by decide +kernel), next_of (by decide +kernel), stepped_of (by decide +kernel), inv_of (by decide +kernel)⟩

/-- A request that runs, one that waits, and no turn. -/
theorem witness_StepRunsTheDecodedOperation :
    (State.issueNext State.reset .client [0x16, 0]).turns = [.move .client]
      ∧ (State.issueNext State.reset .client [0x16, 0]).agenda .client = [.request [0x16, 0]]
      ∧ decode .op [0x16, 0] = .ok (.rbLen .tx) ∧ waits (.rbLen .tx) State.reset = false
      ∧ decode .op [0x1B, 1] = .ok (.rbExtend .rx) ∧ waits (.rbExtend .rx) State.reset = true
      ∧ State.reset.turns = [] := by decide +kernel

/-- A block whose queues hold at most one entry. -/
def narrow : Config := { Config.default with qDepth := some 1, admissible := by decide }

/-- All queues of a narrow block are full. -/
def fullQueues (command : Byte) (payload : List Byte) : State :=
  { latched command payload with cfg := narrow, rdq := [(1, 2)], waq := [3], stq := [(0x80, [])] }

theorem witness_WaitingChangesNothing :
    waits (.rbExtend .rx) State.reset = true ∧ waits (.rbDrain .tx) (tinyTx 0 [1]) = true
      ∧ (fullQueues 0x01 [0, 42, 7]).rxClosed = false ∧ (fullQueues 0x01 [0, 42, 7]).outValid = true
      ∧ waits .rtRoute (fullQueues 0x01 [0, 42, 7]) = true ∧ waits .rtRoute (fullQueues 0x02 [0, 42]) = true
      ∧ waits .rtRoute (fullQueues 0x80 []) = true ∧ waits .rtRoute (fullQueues 0x7F []) = false
      ∧ waits .rtRoute (fullQueues 0x01 [0, 42]) = false
      ∧ State.reset.rxClosed = false ∧ State.reset.rxReads = []
      ∧ (tinyTx 0 [1]).content .tx ≠ [] ∧ (tinyTx 0 [1]).txWrites = []
      ∧ (Instr.rbDrain .tx).format = .op ∧ Instr.rtRoute.format = .op := by decide +kernel

theorem witness_ResetEventRestoresTheBlock : { withRx frame with turns := [.reset] }.turns = .reset :: [] := rfl

theorem witness_HalvesCommute :
    let s := { tinyTx 2 [1, 2] with rxReads := [.bytes 7 []] }
    Instr.half (.rbPushBack .tx 3) = some .tx ∧ Instr.half (.rbExtend .rx) = some .rx
      ∧ exec (.rbPushBack .tx 3) s = .next (after (.rbPushBack .tx 3) s)
      ∧ exec (.rbExtend .rx) (after (.rbPushBack .tx 3) s)
        = .next (after (.rbExtend .rx) (after (.rbPushBack .tx 3) s)) :=
  ⟨rfl, rfl, next_of (by decide +kernel), next_of (by decide +kernel)⟩

theorem witness_OperationsStayInTheirHalf :
    Instr.half (.rbLen .tx) = some .tx ∧ isNext (exec (.rbLen .tx) State.reset) = true
      ∧ Instr.half (.frmRecv true true 10) = some .rx ∧ isNext (exec (.frmRecv true true 10) State.reset) = true
      ∧ Instr.half (.hpClassify 0) = none ∧ isNext (exec (.hpClassify 0) State.reset) = true
      ∧ isNext (exec (.qPop 2) State.reset) = true := by decide +kernel

theorem witness_QueuesAreFifo :
    exec .rtRoute (latched 0x85 [0]) = .next (after .rtRoute (latched 0x85 [0]))
      ∧ exec (.qPop 2) (after .rtRoute (latched 0x85 [0])) = .next (after (.qPop 2) (after .rtRoute (latched 0x85 [0]))) :=
  ⟨next_of (by decide +kernel), next_of (by decide +kernel)⟩

theorem witness_OutValidMarksAReceivedFrame :
    (withRx frame).rxClosed = false ∧ isNext (exec (.frmRecv false true 11) (withRx frame)) = true
      ∧ (latched 0x85 [0]).rxClosed = false ∧ waits .rtRoute (latched 0x85 [0]) = false
      ∧ isNext (exec .rtRoute (latched 0x85 [0])) = true
      ∧ isNext (exec (.rbLen .rx) (latched 0x85 [0])) = true ∧ (Instr.rbLen .rx).format = .op := by decide +kernel

/-- The same content with its front at 0 and at 3, across the seam. -/
theorem witness_SeamIsInvisible :
    Alike (tinyTx 0 [1, 2]) (tinyTx 3 [1, 2]) ∧ (∀ b, Instr.rbPopFront .tx ≠ .rbSlices b)
      ∧ exec (.rbPopFront .tx) (tinyTx 0 [1, 2]) = .next (after (.rbPopFront .tx) (tinyTx 0 [1, 2]))
      ∧ exec (.rbPopFront .tx) (tinyTx 3 [1, 2]) = .next (after (.rbPopFront .tx) (tinyTx 3 [1, 2])) :=
  ⟨⟨inv_of (by decide +kernel), inv_of (by decide +kernel), by decide +kernel, fun b => by cases b <;> decide +kernel⟩,
    nofun, next_of (by decide +kernel), next_of (by decide +kernel)⟩

/-! Requests that are refused. -/

/-- The ends of every range of selectors outside the table; requests that name a half, and two that name none. -/
theorem witness_UnknownRequestsChangeNothing :
    (State.issueNext State.reset .client [0x66]).turns = .move .client :: []
      ∧ (State.issueNext State.reset .client [0x66]).agenda .client = .request (0x66 :: []) :: []
      ∧ (∀ sel ∈ [0x00, 0x0F, 0x1D, 0x1F, 0x22, 0x2F, 0x31, 0x3F, 0x42, 0x4F, 0x56, 0x5F, 0x66, (0xFF : Byte)],
          sel.toNat < 0x10 ∨ (0x1D ≤ sel.toNat ∧ sel.toNat < 0x20) ∨ (0x22 ≤ sel.toNat ∧ sel.toNat < 0x30)
            ∨ (0x31 ≤ sel.toNat ∧ sel.toNat < 0x40) ∨ (0x42 ≤ sel.toNat ∧ sel.toNat < 0x50)
            ∨ (0x56 ≤ sel.toNat ∧ sel.toNat < 0x60) ∨ 0x66 ≤ sel.toNat)
      ∧ (State.issueNext State.reset .client [0x00, 0, 9]).agenda .client = .request (0x00 :: [0, 9]) :: []
      ∧ ([0, 9] : List Byte).head? = some 0 ∧ ([1] : List Byte).head? = some 1
      ∧ ([] : List Byte).head? ≠ some 0 ∧ ([2] : List Byte).head? ≠ some 1 := by decide +kernel

/-- A closed receive half with entries in its queues. -/
def closedHalf : State :=
  { withRx frame with
    rxClosed := true, rdq := [(42, 7)], waq := [42], stq := [(0x85, [])], turns := [.move .receiver]
    receiver := [.rxService false true 11] }

theorem witness_ClosedHalfRefuses :
    closedHalf.rxClosed = true ∧ Instr.half (.rbLen .rx) = some .rx ∧ closedHalf.turns = .move .receiver :: []
      ∧ closedHalf.agenda .receiver = .rxService false true 11 :: []
      ∧ closedHalf.rdq = (42, 7) :: [] ∧ closedHalf.waq = 42 :: [] ∧ closedHalf.stq = (0x85, []) :: []
      ∧ { State.reset with rxClosed := true }.rdq = [] ∧ { State.reset with rxClosed := true }.waq = []
      ∧ { State.reset with rxClosed := true }.stq = []
      ∧ Instr.half (.rbLen .tx) = some .tx ∧ isNext (exec (.rbLen .tx) State.reset) = true
      ∧ Instr.half (.hpClassify 1) = none ∧ isNext (exec (.hpClassify 1) State.reset) = true := by decide +kernel

theorem witness_ClosedStateIsPermanent :
    isNext (exec (.rbLen .rx) State.reset) = true ∧ closedHalf.rxClosed = true
      ∧ closedHalf.turns.head? ≠ some .reset ∧ isNext (step closedHalf) = true
      ∧ { closedHalf with turns := [.reset] }.turns.head? = some .reset
      ∧ isNext (step { closedHalf with turns := [.reset] }) = true := by decide +kernel

/-! Ring buffer operations, on an empty, a partly filled and a full buffer. -/

theorem witness_buffers :
    (tinyTx 3 []).Inv ∧ (tinyTx 3 []).accepts .tx ∧ (tinyTx 3 []).content .tx = []
      ∧ (tinyTx 3 [1, 2, 3]).Inv ∧ (tinyTx 3 [1, 2, 3]).accepts .tx
      ∧ ((tinyTx 3 [1, 2, 3]).ring .tx).len < (tinyTx 3 [1, 2, 3]).cap .tx
      ∧ (tinyTx 3 [1, 2, 3, 4]).Inv ∧ (tinyTx 3 [1, 2, 3, 4]).accepts .tx
      ∧ ((tinyTx 3 [1, 2, 3, 4]).ring .tx).len = (tinyTx 3 [1, 2, 3, 4]).cap .tx
      ∧ (withRx frame).Inv ∧ (withRx frame).accepts .rx ∧ (withRx frame).content .rx = frame :=
  ⟨inv_of (by decide +kernel), accepts_tx _, by decide +kernel, inv_of (by decide +kernel), accepts_tx _,
    by decide +kernel, inv_of (by decide +kernel), accepts_tx _, by decide +kernel, inv_of (by decide +kernel),
    fun _ => rfl, by decide +kernel⟩

theorem witness_PushBackAppends :
    (tinyTx 3 [1, 2, 3]).Inv ∧ (tinyTx 3 [1, 2, 3]).accepts .tx
      ∧ ((tinyTx 3 [1, 2, 3]).ring .tx).len < (tinyTx 3 [1, 2, 3]).cap .tx
      ∧ (tinyTx 3 [1, 2, 3, 4]).Inv ∧ (tinyTx 3 [1, 2, 3, 4]).accepts .tx
      ∧ ((tinyTx 3 [1, 2, 3, 4]).ring .tx).len = (tinyTx 3 [1, 2, 3, 4]).cap .tx :=
  let ⟨_, _, _, h⟩ := witness_buffers
  let ⟨a, b, c, d, e, f, _⟩ := h
  ⟨a, b, c, d, e, f⟩

theorem witness_PushFrontPrepends :
    (tinyTx 3 [1, 2, 3]).Inv ∧ (tinyTx 3 [1, 2, 3]).accepts .tx
      ∧ ((tinyTx 3 [1, 2, 3]).ring .tx).len < (tinyTx 3 [1, 2, 3]).cap .tx
      ∧ (tinyTx 3 [1, 2, 3, 4]).Inv ∧ (tinyTx 3 [1, 2, 3, 4]).accepts .tx
      ∧ ((tinyTx 3 [1, 2, 3, 4]).ring .tx).len = (tinyTx 3 [1, 2, 3, 4]).cap .tx :=
  witness_PushBackAppends

theorem witness_PopFrontRemovesTheFirstByte :
    (tinyTx 3 []).Inv ∧ (tinyTx 3 []).accepts .tx ∧ (tinyTx 3 []).content .tx = []
      ∧ (tinyTx 3 [1]).Inv ∧ (tinyTx 3 [1]).accepts .tx ∧ (tinyTx 3 [1]).content .tx = 1 :: [] :=
  ⟨inv_of (by decide +kernel), accepts_tx _, by decide +kernel, inv_of (by decide +kernel), accepts_tx _,
    by decide +kernel⟩

theorem witness_PopBackRemovesTheLastByte :
    (tinyTx 3 []).Inv ∧ (tinyTx 3 []).accepts .tx ∧ (tinyTx 3 []).content .tx = []
      ∧ (tinyTx 3 [1]).Inv ∧ (tinyTx 3 [1]).accepts .tx ∧ (tinyTx 3 [1]).content .tx = [] ++ [1] :=
  witness_PopFrontRemovesTheFirstByte

/-- The last index of the content, and the one behind it. -/
theorem witness_GetReadsTheIndexedByte :
    (tinyTx 3 [1, 2]).accepts .tx ∧ ((tinyTx 3 [1, 2]).content .tx).length ≤ 2
      ∧ ((tinyTx 3 [1, 2]).content .tx)[1]? = some 2 :=
  ⟨accepts_tx _, by decide +kernel, by decide +kernel⟩

theorem witness_SetOverwritesTheIndexedByte :
    (tinyTx 3 [1, 2]).Inv ∧ (tinyTx 3 [1, 2]).accepts .tx ∧ ((tinyTx 3 [1, 2]).ring .tx).len ≤ 2
      ∧ 1 < ((tinyTx 3 [1, 2]).ring .tx).len :=
  ⟨inv_of (by decide +kernel), accepts_tx _, by decide +kernel, by decide +kernel⟩

theorem witness_LengthCapacityAndFullness :
    (withRx frame).accepts .rx ∧ (withRx frame).Inv
      ∧ exec (.rbLen .rx) (withRx frame) = .next (after (.rbLen .rx) (withRx frame)) :=
  ⟨fun _ => rfl, inv_of (by decide +kernel), next_of (by decide +kernel)⟩

theorem witness_ClearEmptiesTheBuffer :
    (withRx frame).Inv ∧ (withRx frame).accepts .rx ∧ (withRx frame).draws .rx = 5 :: []
      ∧ 5 < (withRx frame).cap .rx :=
  ⟨inv_of (by decide +kernel), fun _ => rfl, by decide +kernel, by decide +kernel⟩

theorem witness_PushesKeepTheLastBytes :
    (tinyTx 3 [1, 2]).Inv ∧ (tinyTx 3 [1, 2]).accepts .tx
      ∧ (tinyTx 3 [1, 2]).cap .tx ≤ ([5, 6, 7, 8] : List Byte).length :=
  ⟨inv_of (by decide +kernel), accepts_tx _, by decide +kernel⟩

theorem witness_SlicesCoverTheContent :
    (tinyTx 2 [1, 2]).Inv ∧ (tinyTx 2 [1, 2]).accepts .tx
      ∧ ((tinyTx 2 [1, 2]).ring .tx).head + ((tinyTx 2 [1, 2]).ring .tx).len ≤ (tinyTx 2 [1, 2]).cap .tx
      ∧ ((tinyTx 2 [1, 2]).ring .tx).len ≠ 0 :=
  ⟨inv_of (by decide +kernel), accepts_tx _, by decide +kernel, by decide +kernel⟩

theorem witness_ExtendPushesWhatTheReadDelivers :
    let bad := { withRx frame with rxReads := [.failed] }
    let good := { withRx frame with rxReads := [.bytes 1 []] }
    bad.rxClosed = false ∧ bad.rxReads = .failed :: [] ∧ good.Inv ∧ good.rxClosed = false
      ∧ good.rxReads = .bytes 1 [] :: [] :=
  ⟨rfl, rfl, inv_of (by decide +kernel), rfl, rfl⟩

theorem witness_DrainWritesTheContent :
    let good := { tinyTx 3 [1, 2] with txWrites := [.completed] }
    let bad := { tinyTx 3 [1, 2] with txWrites := [.failed 1] }
    (tinyTx 3 []).content .tx = [] ∧ good.Inv ∧ good.content .tx ≠ [] ∧ good.txWrites = .completed :: []
      ∧ bad.Inv ∧ bad.content .tx ≠ [] ∧ bad.txWrites = .failed 1 :: [] :=
  ⟨by decide +kernel, inv_of (by decide +kernel), by decide +kernel, rfl, inv_of (by decide +kernel),
    by decide +kernel, rfl⟩

/-! COBS. -/

/-- `[0] ++ m ++ [0]` for `m = [1, 0, 2]`: the zeros at 2 and 4, and the byte at 3. -/
theorem witness_CobsReplacesZerosByDistances :
    let m : List Byte := [1, 0, 2]
    let a := 0 :: m ++ [0]
    m ≠ [] ∧ 2 ≤ m.length ∧ a[2]? = some 0 ∧ a[4]? = some 0 ∧ (∀ l, 2 < l → l < 4 → a[l]? ≠ some 0)
      ∧ 3 ≤ m.length ∧ a[3]? = some 2 ∧ (2 : Byte) ≠ 0 :=
  ⟨by decide, by decide, by decide, by decide, fun l h₁ h₂ => by
    have : l = 3 := by omega
    subst this; decide, by decide, by decide, by decide⟩

/-- The longest message that fits any buffer. -/
theorem witness_CobsHidesEveryZero : (List.replicate 254 (1 : Byte)).length + 2 ≤ 256 := by decide +kernel

theorem witness_CobsEncWritesTheEncoding :
    (tinyTx 3 []).Inv ∧ (tinyTx 3 []).accepts .tx ∧ (tinyTx 3 []).content .tx = []
      ∧ (tinyTx 3 [1, 0, 2]).Inv ∧ (tinyTx 3 [1, 0, 2]).accepts .tx ∧ (tinyTx 3 [1, 0, 2]).content .tx ≠ []
      ∧ (tinyTx 3 [1, 0, 2]).cap .tx < ((tinyTx 3 [1, 0, 2]).content .tx).length + 2
      ∧ (tinyTx 3 [1, 0]).Inv ∧ (tinyTx 3 [1, 0]).accepts .tx ∧ (tinyTx 3 [1, 0]).content .tx ≠ []
      ∧ ((tinyTx 3 [1, 0]).content .tx).length + 2 ≤ (tinyTx 3 [1, 0]).cap .tx :=
  ⟨inv_of (by decide +kernel), accepts_tx _, by decide +kernel, inv_of (by decide +kernel), accepts_tx _,
    by decide +kernel, by decide +kernel, inv_of (by decide +kernel), accepts_tx _, by decide +kernel,
    by decide +kernel⟩

/-- The chain of `frame` is 0, 2, 7. -/
theorem onChain_frame (k : Nat) : OnChain frame k ↔ k ∈ [0, 2, 7] :=
  onChain_iff (steps := 8) (by decide +kernel) k

theorem content_frame : (withRx frame).content .rx = frame := by decide +kernel

theorem witness_CobsDecUndoesTheChain :
    (withRx frame).Inv ∧ (withRx frame).accepts .rx ∧ 3 ≤ ((withRx frame).content .rx).length ∧ 1 ≤ 7
      ∧ OnChain ((withRx frame).content .rx) 7 ∧ ((withRx frame).content .rx)[7]? = some 0
      ∧ 1 + 1 < ((withRx frame).content .rx).length ∧ OnChain ((withRx frame).content .rx) (1 + 1)
      ∧ ¬OnChain ((withRx frame).content .rx) (0 + 1) := by
  rw [content_frame]
  exact ⟨inv_of (by decide +kernel), fun _ => rfl, by decide, by decide, (onChain_frame 7).2 (by decide), rfl,
    by decide, (onChain_frame 2).2 (by decide), fun h => absurd ((onChain_frame 1).1 h) (by decide)⟩

/-- The chain of `09 01 02` leaves it at index 9. -/
theorem onChain_ranOff (k : Nat) : OnChain [9, 1, 2] k ↔ k ∈ [0, 9] :=
  onChain_iff (steps := 3) (by decide +kernel) k

theorem witness_CobsDecFailsOnWhatIsNoFrame :
    (withRx [1, 2]).Inv ∧ (withRx [1, 2]).accepts .rx ∧ ((withRx [1, 2]).content .rx).length < 3
      ∧ (withRx [0, 5, 6]).Inv ∧ (withRx [0, 5, 6]).content .rx = 0 :: [5, 6] ∧ 2 ≤ ([5, 6] : List Byte).length
      ∧ (withRx [9, 1, 2]).Inv ∧ 3 ≤ ((withRx [9, 1, 2]).content .rx).length
      ∧ OnChain ((withRx [9, 1, 2]).content .rx) 9 ∧ ((withRx [9, 1, 2]).content .rx).length ≤ 9
      ∧ 0 < ((withRx [9, 1, 2]).content .rx).length ∧ OnChain ((withRx [9, 1, 2]).content .rx) 0
      ∧ ¬OnChain ((withRx [9, 1, 2]).content .rx) 1 ∧ (withRx [9, 1, 2]).content .rx ≠ [] := by
  rw [show (withRx [9, 1, 2]).content .rx = [9, 1, 2] by decide +kernel]
  exact ⟨inv_of (by decide +kernel), fun _ => rfl, by decide +kernel, inv_of (by decide +kernel), by decide +kernel,
    by decide, inv_of (by decide +kernel), by decide, (onChain_ranOff 9).2 (by decide), by decide, by decide, .start,
    fun h => absurd ((onChain_ranOff 1).1 h) (by decide), by decide⟩

theorem witness_CobsRoundTrip :
    (withRx [0x11, 0x00]).Inv ∧ (withRx [0x11, 0x00]).accepts .rx ∧ ([0x11, 0x00] : List Byte) ≠ []
      ∧ 2 + 2 + 12 ≤ (withRx [0x11, 0x00]).cap .rx ∧ (withRx [0x11, 0x00]).content .rx = [0x11, 0x00]
      ∧ (withRx (cobs [0x11, 0x00] ++ List.replicate 12 7)).Inv
      ∧ (withRx (cobs [0x11, 0x00] ++ List.replicate 12 7)).content .rx
        = cobs [0x11, 0x00] ++ List.replicate 12 7 :=
  ⟨inv_of (by decide +kernel), fun _ => rfl, by decide, by decide +kernel, by decide +kernel,
    inv_of (by decide +kernel), by decide +kernel⟩

/-! Checksum and frames. -/

theorem witness_CrcCalcReadsTheFirstBytes :
    (withRx frame).accepts .rx ∧ ((withRx frame).content .rx).length < 9 ∧ 8 ≤ ((withRx frame).content .rx).length
      ∧ (withRx frame).cfg.crc = CrcParams.dnp :=
  ⟨fun _ => rfl, by decide +kernel, by decide +kernel, rfl⟩

/-- Byte 3 of `frame` changed from 0x2A to 0. -/
theorem witness_OneChangedByteIsDetected :
    let w := cobs (message CrcParams.dnp false true 0 0x01 [0x00, 0x2A, 0x07])
    (withRx (w.set 3 0 ++ [9])).Inv ∧ (withRx (w.set 3 0 ++ [9])).rxClosed = false
      ∧ (withRx (w.set 3 0 ++ [9])).cfg.crc = CrcParams.dnp
      ∧ (withRx (w.set 3 0 ++ [9])).cfg.capRx ≤ 11 + frameOverhead false true
      ∧ 3 + 1 < w.length ∧ ¬OnChain w 3 ∧ w[3]? ≠ some 0
      ∧ (withRx (w.set 3 0 ++ [9])).content .rx = w.set 3 0 ++ [9] := by
  have h : cobs (message CrcParams.dnp false true 0 0x01 [0x00, 0x2A, 0x07]) = frame := by decide +kernel
  simp only [h]
  exact ⟨inv_of (by decide +kernel), rfl, rfl, by decide, by decide,
    fun hc => absurd ((onChain_frame 3).1 hc) (by decide), by decide, by decide +kernel⟩

theorem witness_SendBuildsTheFrame :
    (withRx []).Inv ∧ (withRx []).cfg.capTx < 11 + frameOverhead true true
      ∧ 10 + frameOverhead true true ≤ (withRx []).cfg.capTx ∧ 10 + frameOverhead true true = (withRx []).cfg.capTx :=
  ⟨inv_of (by decide +kernel), by decide, by decide, by decide⟩

theorem decodes_frame (rest : List Byte) (h : rest = ([0xAA, 0xBB] : List Byte)) :
    Decodes (frame ++ rest) (messageBody false 0 0x01 [0x00, 0x2A, 0x07] ++ [0x39, 0xD5]) rest := by
  subst h
  exact decodes_of 10 (by decide +kernel)

theorem witness_RecvDeliversTheFrame :
    let s := withRx (frame ++ [0xAA, 0xBB])
    s.Inv ∧ s.rxClosed = false ∧ s.cfg.capRx ≤ 11 + frameOverhead false true
      ∧ Decodes (s.content .rx)
        (messageBody false 0 0x01 [0x00, 0x2A, 0x07]
          ++ checksumBytes s.cfg.crc true (messageBody false 0 0x01 [0x00, 0x2A, 0x07])) [0xAA, 0xBB] := by
  refine ⟨inv_of (by decide +kernel), rfl, by decide, ?_⟩
  rw [show (withRx (frame ++ [0xAA, 0xBB])).content .rx = frame ++ [0xAA, 0xBB] by decide +kernel,
    show checksumBytes (withRx (frame ++ [0xAA, 0xBB])).cfg.crc true (messageBody false 0 0x01 [0x00, 0x2A, 0x07])
      = [0x39, 0xD5] by decide +kernel]
  exact decodes_frame _ rfl

/-- Each failure: closed; a destination one short; one byte short; a chain that leaves the content; a leading zero; a
message one short; a wrong checksum. -/
theorem witness_RecvFailuresLeaveWhatTheTableSays :
    closedHalf.rxClosed = true
      ∧ (withRx frame).rxClosed = false ∧ 10 + frameOverhead false true < (withRx frame).cfg.capRx
      ∧ (withRx [9, 1, 2, 3]).Inv ∧ (withRx [9, 1, 2, 3]).cfg.capRx ≤ 11 + frameOverhead false true
      ∧ ((withRx [9, 1, 2, 3]).content .rx).length < frameOverhead false true
      ∧ (withRx [9, 1, 2, 3, 4]).Inv ∧ frameOverhead false true ≤ ((withRx [9, 1, 2, 3, 4]).content .rx).length
      ∧ OnChain ((withRx [9, 1, 2, 3, 4]).content .rx) 9 ∧ ((withRx [9, 1, 2, 3, 4]).content .rx).length ≤ 9
      ∧ (withRx [0, 1, 2, 3, 4]).Inv ∧ (withRx [0, 1, 2, 3, 4]).content .rx = 0 :: [1, 2, 3, 4]
      ∧ (withRx [3, 1, 2, 0, 4]).Inv ∧ Decodes ((withRx [3, 1, 2, 0, 4]).content .rx) [1, 2] [4]
      ∧ ([1, 2] : List Byte).length < hdr false + crcLen true
      ∧ (withRx (frame.set 3 0x2B ++ [0xAA])).Inv
      ∧ Decodes ((withRx (frame.set 3 0x2B ++ [0xAA])).content .rx)
        (messageBody false 0 0x01 [0x00, 0x2B, 0x07] ++ [0x39, 0xD5]) [0xAA]
      ∧ ([0x39, 0xD5] : List Byte)
        ≠ bytes16 (crc16 (withRx (frame.set 3 0x2B ++ [0xAA])).cfg.crc (messageBody false 0 0x01 [0x00, 0x2B, 0x07])) := by
  rw [show (withRx [9, 1, 2, 3, 4]).content .rx = [9, 1, 2, 3, 4] by decide +kernel,
    show (withRx [3, 1, 2, 0, 4]).content .rx = [3, 1, 2, 0, 4] by decide +kernel,
    show (withRx (frame.set 3 0x2B ++ [0xAA])).content .rx = frame.set 3 0x2B ++ [0xAA] by decide +kernel]
  exact ⟨rfl, rfl, by decide, inv_of (by decide +kernel), by decide, by decide +kernel, inv_of (by decide +kernel),
    by decide, onChain_of_mem (steps := 5) .start (by decide +kernel), by decide, inv_of (by decide +kernel),
    by decide +kernel, inv_of (by decide +kernel), decodes_of 5 (by decide +kernel), by decide,
    inv_of (by decide +kernel), decodes_of 9 (by decide +kernel), by decide +kernel⟩

/-- The largest payload, whose frame fills both buffers. -/
theorem witness_FramesSurviveTheRoundTrip :
    let data := List.replicate 10 (0xAA : Byte)
    let i := Instr.frmSend true true 1 2 data
    (withRx []).Inv ∧ data.length + frameOverhead true true ≤ (withRx []).cfg.capTx
      ∧ exec i (withRx []) = .next (after i (withRx []))
      ∧ (withRx ((after i (withRx [])).content .tx)).Inv
      ∧ (withRx ((after i (withRx [])).content .tx)).rxClosed = false
      ∧ (withRx ((after i (withRx [])).content .tx)).cfg.crc = (withRx []).cfg.crc
      ∧ (withRx ((after i (withRx [])).content .tx)).cfg.capRx ≤ 10 + frameOverhead true true
      ∧ (withRx ((after i (withRx [])).content .tx)).content .rx = (after i (withRx [])).content .tx ++ [] :=
  ⟨inv_of (by decide +kernel), by decide +kernel, next_of (by decide +kernel), inv_of (by decide +kernel), rfl, rfl,
    by decide, by decide +kernel⟩

theorem witness_FramesArriveInOrder :
    let w := cobs (message CrcParams.dnp false true 0 0x85 []) ++ cobs (message CrcParams.dnp false true 0 0x01 [])
    (withRx (w ++ [3])).Inv ∧ (withRx (w ++ [3])).rxClosed = false
      ∧ (withRx (w ++ [3])).cfg.capRx ≤ 11 + frameOverhead false true
      ∧ (withRx (w ++ [3])).content .rx
        = cobs (message (withRx (w ++ [3])).cfg.crc false true 0 0x85 [])
          ++ cobs (message (withRx (w ++ [3])).cfg.crc false true 0 0x01 []) ++ [3] :=
  ⟨inv_of (by decide +kernel), rfl, by decide, by decide +kernel⟩

/-- One byte below the minimum, and all of a frame but its terminator. -/
theorem witness_TruncatedFramesAreNotDelivered :
    (withRx [2, 1, 5, 0x2A]).Inv ∧ (withRx [2, 1, 5, 0x2A]).rxClosed = false
      ∧ (withRx [2, 1, 5, 0x2A]).cfg.capRx ≤ 11 + frameOverhead false true
      ∧ ((withRx [2, 1, 5, 0x2A]).content .rx).length < frameOverhead false true
      ∧ (withRx (frame.take 7)).Inv ∧ ([1, 0, 0x2A, 7, 0x39, 0xD5] : List Byte).length + 2 ≤ 256
      ∧ ([0] : List Byte) ≠ [] ∧ cobs [1, 0, 0x2A, 7, 0x39, 0xD5] = (withRx (frame.take 7)).content .rx ++ [0]
      ∧ frameOverhead false true ≤ ((withRx (frame.take 7)).content .rx).length :=
  ⟨inv_of (by decide +kernel), rfl, by decide, by decide +kernel, inv_of (by decide +kernel), by decide, by decide,
    by decide +kernel, by decide +kernel⟩

/-! Packers, router, queues, stream functions. -/

theorem witness_PackersAndUnpackersFollowTheLayout :
    ([1, 2, 3] : List Byte).length ≠ 2 ∧ ([1, 2] : List Byte).length ≠ 3 ∧ ([1, 2] : List Byte).length ≠ 6
      ∧ ([] : List Byte).length + 2 ∈ State.reset.cfg.ackLengths ∧ [1, 2, 3, 4].length + 2 ∈ State.reset.cfg.ackLengths
      ∧ [1].length ∉ State.reset.cfg.ackLengths := by decide

theorem witness_UnpackingUndoesPacking : State.reset.cfg.ackLengths = [2, 3, 6] := rfl

/-- The ends of the two ranges of command bytes. -/
theorem witness_ClassifyCoversAllCommandBytes :
    0x03 ≤ (0x03 : Byte).toNat ∧ (0x03 : Byte).toNat ≤ 0x7F ∧ 0x03 ≤ (0x7F : Byte).toNat ∧ (0x7F : Byte).toNat ≤ 0x7F
      ∧ 0x80 ≤ (0x80 : Byte).toNat ∧ 0x80 ≤ (0xFF : Byte).toNat := by decide

/-- A frame for each clause; the queues of the narrow block have room for one entry. -/
theorem witness_RouteDispatchesByCommand :
    closedHalf.rxClosed = true ∧ State.reset.rxClosed = false ∧ State.reset.outValid = false
      ∧ (latched 0x00 []).rxClosed = false ∧ (latched 0x00 []).outValid = true ∧ (latched 0x00 []).outCommand.toNat = 0
      ∧ 3 ≤ (latched 0x03 []).outCommand.toNat ∧ (latched 0x7F []).outCommand.toNat ≤ 0x7F
      ∧ (latched 0x01 [1]).outCommand.toNat = 1 ∧ (latched 0x01 [1]).payload.length ≠ 3
      ∧ (latched 0x01 [1]).payload.length ≠ 6
      ∧ (latched 0x02 [1]).outCommand.toNat = 2 ∧ (latched 0x02 [1]).payload.length ∉ (latched 0x02 [1]).cfg.ackLengths
      ∧ (latched 0x01 [0, 42, 7]).payload = [0, 42, 7] ∧ (latched 0x01 [0, 42, 0, 0, 0, 7]).payload = [0, 42, 0, 0, 0, 7]
      ∧ (latched 0x02 [0, 42]).payload = 0 :: 42 :: []
      ∧ (latched 0x02 [0, 42]).payload.length ∈ (latched 0x02 [0, 42]).cfg.ackLengths
      ∧ 0x80 ≤ (latched 0x80 []).outCommand.toNat := by decide +kernel

theorem witness_hasRoom (n : Nat) : (∀ d, (latched 0 []).cfg.qDepth = some d → n < d) ∧ (∀ d, narrow.qDepth = some d → 0 < d) :=
  ⟨nofun, fun d h => by cases h; decide⟩

theorem witness_CommandRowsSayWhatTheRouterDoes :
    State.reset.rxClosed = false ∧ State.reset.outValid = false
      ∧ (latched 0x01 [0, 42, 7]).rxClosed = false ∧ (latched 0x01 [0, 42, 7]).outValid = true
      ∧ (latched 0x01 [0, 42, 7]).payload = [0, 42, 7] ∧ (latched 0x01 [0, 42, 0, 0, 0, 7]).payload = [0, 42, 0, 0, 0, 7]
      ∧ (latched 0x02 [0, 42, 7]).payload = 0 :: 42 :: [7]
      ∧ (latched 0x02 [0, 42, 7]).payload.length ∈ (latched 0x02 [0, 42, 7]).cfg.ackLengths
      ∧ (latched 0x02 [1]).payload.length ≠ 3 ∧ (latched 0x02 [1]).payload.length ≠ 6
      ∧ (latched 0x02 [1]).payload.length ∉ (latched 0x02 [1]).cfg.ackLengths := by decide +kernel

theorem witness_PopDeliversTheHeadEntry :
    State.reset.rdq = [] ∧ State.reset.waq = [] ∧ State.reset.stq = [] ∧ closedHalf.rdq = (42, 7) :: []
      ∧ closedHalf.waq = 42 :: [] ∧ closedHalf.stq = (0x85, []) :: [] := by decide +kernel

theorem witness_StreamFormatDecodesTheDescriptor : State.reset.cfg.streamFormat = .layout := rfl

/-- No format; whole samples and a ragged payload, for samples of two bytes. -/
theorem witness_StreamPayloadsUnpackBigEndian :
    streamFormat State.reset.cfg.streamFormat 0x84 = none ∧ streamFormat State.reset.cfg.streamFormat 0x86 = some .w16
      ∧ 8 * 2 = SampleWidth.bits .w16 ∧ ([1, 2, 3] : List Byte).length % 2 ≠ 0
      ∧ ([1, 2, 3, 4] : List Byte).length % 2 = 0 ∧ 1 < ([0x0102, 0x0304] : List Nat).length := by decide

/-! Pseudo-operations. -/

/-- The receiver is at `act`, with two more moves to come. -/
def servicing (act : Activity) (read : ReadOutcome) : State :=
  { withRx frame with
    rxReads := [read], receiver := [act], turns := [.move .receiver, .move .receiver, .move .receiver] }

theorem witness_ServiceRunsOneTurnOfTheLoop :
    closedHalf.turns = .move .receiver :: [] ∧ closedHalf.rxClosed = true
      ∧ closedHalf.agenda .receiver = .rxService false true 11 :: []
      ∧ (servicing (.rxService false true 11) (.bytes 1 [2])).turns
        = .move .receiver :: [.move .receiver, .move .receiver]
      ∧ (servicing (.rxService false true 11) (.bytes 1 [2])).rxClosed = false
      ∧ (servicing (.rxService false true 11) (.bytes 1 [2])).rxReads = .bytes 1 [2] :: []
      ∧ (servicing (.rxService false true 11) (.bytes 1 [2])).agenda .receiver = .rxService false true 11 :: []
      ∧ (servicing (.rxService false true 11) .failed).rxReads = .failed :: []
      ∧ (servicing (.serviceRecv false true 11) .failed).agenda .receiver = .serviceRecv false true 11 :: []
      ∧ (servicing .serviceRoute .failed).agenda .receiver = .serviceRoute :: []
      ∧ waits .rtRoute (State.setAgenda
          { servicing .serviceRoute .failed with turns := [.move .receiver, .move .receiver] } .receiver []) = false := by
  decide +kernel

/-- The client is at `act`, with three moves to come and one write that will complete. -/
def calling (width : RegWidth) (act : Activity) : State :=
  { withRx [] with
    cfg := { Config.default with regW := width, admissible := by cases width <;> decide }
    client := [act], turns := [.move .client, .move .client, .move .client], txWrites := [.completed] }

/-- The client is at `act` with a `TXB` that no frame of a call fits. -/
def cramped (act : Activity) : State :=
  { tinyTx 0 [1] with client := [act], turns := [.move .client, .move .client, .move .client] }

/-- Each call with a write that completes; one with a write that fails; one whose frame does not fit. -/
theorem witness_RegisterCallsTransmitTheirRequest :
    ((calling .w8 (.readReg true 42)).Inv ∧ (calling .w8 (.writeReg true 42 7)).Inv
        ∧ (calling .w32 (.writeReg true 42 7)).Inv ∧ (cramped (.readReg true 42)).Inv)
      ∧ (calling .w8 (.readReg true 42)).turns = .move .client :: .move .client :: .move .client :: []
      ∧ (calling .w8 (.readReg true 42)).txWrites = .completed :: []
      ∧ { calling .w8 (.readReg true 42) with txWrites := [.failed 3] }.txWrites = .failed 3 :: []
      ∧ (calling .w8 (.readReg true 42)).agenda .client = .readReg true 42 :: []
      ∧ (readReqPayload 42).length + frameOverhead true true ≤ (calling .w8 (.readReg true 42)).cfg.capTx
      ∧ (calling .w8 (.writeReg true 42 7)).agenda .client = .writeReg true 42 7 :: []
      ∧ (calling .w8 (.writeReg true 42 7)).cfg.regW = .w8
      ∧ (write8Payload 42 7).length + frameOverhead true true ≤ (calling .w8 (.writeReg true 42 7)).cfg.capTx
      ∧ (calling .w32 (.writeReg true 42 7)).agenda .client = .writeReg true 42 7 :: []
      ∧ (calling .w32 (.writeReg true 42 7)).cfg.regW = .w32
      ∧ (write32Payload 42 7).length + frameOverhead true true ≤ (calling .w32 (.writeReg true 42 7)).cfg.capTx
      ∧ (cramped (.readReg true 42)).turns = .move .client :: .move .client :: .move .client :: []
      ∧ (cramped (.readReg true 42)).agenda .client = .readReg true 42 :: []
      ∧ (cramped (.readReg true 42)).cfg.capTx < (readReqPayload 42).length + frameOverhead true true := by
  refine ⟨?_, by decide +kernel⟩
  constructor
  on_goal 2 => constructor
  on_goal 3 => constructor
  all_goals exact inv_of (by decide +kernel)

/-- The client waits, with the queues, the closed flag and the durations given; the wait budget is 1. -/
def waiting (call : Call) (waited : Nat) (closed : Bool) (durations : List Nat) : State :=
  { State.reset with
    client := [.callWait call waited], turns := [.move .client], rxClosed := closed, elapsed := durations }

theorem witness_RegisterCallsWaitForTheirRegister :
    (waiting (.read 42) 0 false [1]).turns = .move .client :: []
      ∧ (waiting (.read 42) 0 false [1]).agenda .client = .callWait (.read 42) 0 :: []
      ∧ (waiting (.write 42) 0 false [1]).agenda .client = .callWait (.write 42) 0 :: []
      ∧ { waiting (.read 42) 0 false [] with rdq := [(42, 7)] }.rdq = (42, 7) :: []
      ∧ { waiting (.write 42) 0 false [] with waq := [43] }.waq = 43 :: []
      ∧ (43 : BitVec 16) ≠ 42
      ∧ (waiting (.read 42) 0 true []).rxClosed = true ∧ (waiting (.read 42) 0 true []).rdq = []
      ∧ (waiting (.read 42) 1 false []).rxClosed = false ∧ (waiting (.read 42) 1 false []).cfg.tWait ≤ 1
      ∧ 0 < (waiting (.read 42) 0 false [1]).cfg.tWait ∧ (waiting (.read 42) 0 false [1]).elapsed = 1 :: []
      ∧ (waiting (.write 42) 0 false [1]).waq = []
      ∧ (waiting (.write 42) 0 false []).rxClosed = false ∧ 0 < (waiting (.write 42) 0 false []).cfg.tWait
      ∧ (waiting (.write 42) 0 false []).elapsed = [] := by decide +kernel

/-- An entry to pop and one to unpack; an empty queue, open and closed; a line of a register call. -/
theorem witness_ConsumerUnpacksWhatItPops :
    (consuming .streamPop).turns = .move .consumer :: []
      ∧ (consuming .streamPop).agenda .consumer = .streamPop :: []
      ∧ (consuming .streamPop).stq = (0x85, [0, 0, 0, 0]) :: []
      ∧ { consuming .streamPop with stq := [] }.stq = [] ∧ (consuming .streamPop).rxClosed = false
      ∧ { consuming .streamPop with stq := [], rxClosed := true }.rxClosed = true
      ∧ (consuming (.streamUnpack 0x84 [1])).agenda .consumer = .streamUnpack 0x84 [1] :: []
      ∧ (waiting (.read 42) 0 false []).turns = .move .client :: []
      ∧ (waiting (.read 42) 0 false []).agenda .client = .callWait (.read 42) 0 :: []
      ∧ (Activity.callWait (.read 42) 0).isRegisterCall = true
      ∧ step (waiting (.read 42) 0 false []) = .next (stepped (waiting (.read 42) 0 false [])) :=
  ⟨rfl, rfl, rfl, rfl, rfl, rfl, rfl, rfl, rfl, rfl, stepped_of (by decide +kernel)⟩

end Sys2Proof.Tests

end
end

section
/-! SUPPORT. Which fields an operation can write at all (00_scope.md rule R10; 10_state.md rules R24, R30, R35, R41): the
frame of a half, the endings that keep to it, and from them every operation. -/

namespace Sys2Proof.Machine

/-- From `s` to `t` nothing changes but the fields of half `b`, its port, and its draws and free values. -/
def WritesOnly (b : Half) (s t : State) : Prop :=
  match b with
  | .tx => t = { s with
      txb := t.txb, resTx := t.resTx, txWrites := t.txWrites, txStream := t.txStream, drawsTx := t.drawsTx,
      freeTx := t.freeTx }
  | .rx => t = { s with
      rxb := t.rxb, resRx := t.resRx, outVersion := t.outVersion, outCommand := t.outCommand, outLen := t.outLen,
      outData := t.outData, outValid := t.outValid, rdq := t.rdq, waq := t.waq, stq := t.stq, rxClosed := t.rxClosed,
      diag := t.diag, rxReads := t.rxReads, drawsRx := t.drawsRx, freeRx := t.freeRx }

/-- Every next state that `k` can be is `s` but for the fields of half `b`. -/
def StaysIn (b : Half) (s : State) (k : Result) : Prop := ∀ t, k = .next t → WritesOnly b s t

variable {b : Half} {s t u : State} {k l : Result}

/-! The updates of a half. -/

theorem WritesOnly.refl (b : Half) (s : State) : WritesOnly b s s := by cases b <;> rfl

theorem WritesOnly.trans (h : WritesOnly b s u) (h' : WritesOnly b u t) : WritesOnly b s t := by
  cases b
  all_goals
    rcases s; rcases u; rcases t
    simp_all [WritesOnly]

theorem WritesOnly.setRing (h : WritesOnly b s u) (r : Ring) : WritesOnly b s (u.setRing b r) :=
  h.trans (by cases b <;> rfl)

theorem WritesOnly.setRes (h : WritesOnly b s u) (x : Res) : WritesOnly b s (u.setRes b x) :=
  h.trans (by cases b <;> rfl)

theorem WritesOnly.useFree (h : WritesOnly b s u) : WritesOnly b s (u.useFree b) :=
  h.trans (by cases b <;> rfl)

theorem WritesOnly.afterDraw (h : WritesOnly b s u) : WritesOnly b s (u.afterDraw b) :=
  h.trans (by cases b <;> simp only [State.afterDraw] <;> split <;> rfl)

/-! The endings of an operation. -/

theorem StaysIn.next (h : WritesOnly b s u) : StaysIn b s (.next u) := by
  intro t ht
  cases ht
  exact h

theorem StaysIn.raise (h : WritesOnly b s u) (f : Status) : StaysIn b s (raise b f u) := .next (h.useFree.setRes _)

theorem StaysIn.finish (h : WritesOnly b s u) (v : ResVal) : StaysIn b s (finish b v u) := .next (h.setRes _)

theorem StaysIn.finishKeep (h : WritesOnly b s u) : StaysIn b s (finishKeep b u) := .next (h.setRes _)

theorem StaysIn.finishRing (h : WritesOnly b s u) (r : Ring) (v : ResVal) : StaysIn b s (finishRing b r v u) :=
  .finish (h.setRing r) v

theorem StaysIn.finishRingKeep (h : WritesOnly b s u) (r : Ring) : StaysIn b s (finishRingKeep b r u) :=
  .finishKeep (h.setRing r)

theorem StaysIn.finishCodec (h : WritesOnly b s u) (c : Codec) : StaysIn b s (finishCodec b c u) := by
  cases c with
  | done n r => exact .finishRing h r _
  | failed f r => exact .raise (h.setRing r) f

theorem StaysIn.ite {p : Prop} [Decidable p] (hk : StaysIn b s k) (hl : StaysIn b s l) :
    StaysIn b s (if p then k else l) := by
  split
  · exact hk
  · exact hl

theorem StaysIn.whenOpen (h : StaysIn b s k) : StaysIn b s (whenOpen b s k) := .ite (.raise (.refl b s) .closed) h

/-- An operation that fails without a change, or runs. -/
theorem StaysIn.raiseOr {p : Prop} [Decidable p] (f : Status) (h : StaysIn b s k) :
    StaysIn b s (if p then Machine.raise b f s else k) :=
  .ite (.raise (.refl b s) f) h

/-! The operations with a course of their own. -/

theorem reject_staysIn (h : WritesOnly .rx s u) (f : Status) (cls : CmdClass) (cmd : Byte) :
    StaysIn .rx s (reject f cls cmd u) :=
  .next ((h.trans (by rfl)).setRes _)

theorem dispatchFrame_staysIn (cls : CmdClass) (cmd : Byte) (s : State) : StaysIn .rx s (dispatchFrame cls cmd s) := by
  have consumed : WritesOnly .rx s { s with outValid := false } := rfl
  cases cls with
  | invalid0 => exact reject_staysIn consumed _ _ _
  | reserved => exact reject_staysIn consumed _ _ _
  | registerRead =>
    simp only [dispatchFrame]
    split
    · exact reject_staysIn consumed _ _ _
    · exact .finish (by rfl) _
  | registerWrite =>
    simp only [dispatchFrame]
    split
    · exact reject_staysIn consumed _ _ _
    · exact .finish (by rfl) _
  | stream => exact .finish (by rfl) _

theorem route_staysIn (cls : CmdClass) (cmd : Byte) (s : State) : StaysIn .rx s (route cls cmd s) :=
  .whenOpen (.raiseOr _ (.ite (.next (.refl _ s)) (dispatchFrame_staysIn cls cmd s)))

theorem deliver_staysIn (h : WritesOnly .rx s u) (hasVersion hasCrc : Bool) (plen : Nat) (r : Ring) :
    StaysIn .rx s (deliver hasVersion hasCrc plen r u) :=
  .ite (.raise (h.trans (by rfl)) _) (.finish (h.trans (by rfl)) _)

theorem receive_staysIn (h : WritesOnly .rx s u) (hasVersion hasCrc : Bool) (dstCap : Nat) :
    StaysIn .rx s (receive hasVersion hasCrc dstCap u) := by
  refine .ite (.raise h _) (.ite (.raise h _) ?_)
  split
  · exact .raise (h.trans (by rfl)) _
  · exact .ite (.raise (h.trans (by rfl)) _) (deliver_staysIn h _ _ _ _)

theorem execFrmSend_staysIn (hasVersion hasCrc : Bool) (version command : Byte) (data : List Byte) (s : State) :
    StaysIn .tx s (execFrmSend hasVersion hasCrc version command data s) :=
  .raiseOr _ (.finishCodec (.afterDraw (.refl _ s)) _)

theorem execRbExtend_staysIn (b : Half) (s : State) : StaysIn b s (execRbExtend b s) := by
  cases b with
  | tx => exact .raise (.refl _ s) _
  | rx =>
    refine .whenOpen ?_
    split
    · exact .next (.refl _ s)
    · exact .raise (by rfl) _
    · exact .finishRing (by rfl) _ _

theorem execRbDrain_staysIn (b : Half) (s : State) : StaysIn b s (execRbDrain b s) := by
  cases b with
  | rx => exact .raise (.refl _ s) _
  | tx =>
    refine .ite (.finish (.refl _ s) _) ?_
    split
    · exact .next (.refl _ s)
    · exact .finishRing (by rfl) _ _
    · exact .raise (by rfl) _

/-! Every operation. -/

/-- An operation of a half writes only that half and its port. -/
theorem exec_staysIn (s : State) : ∀ {i : Instr} {b : Half}, i.half = some b → StaysIn b s (exec i s)
  | .rbPushBack _ _, _, rfl => .whenOpen (.finishRingKeep (.refl _ s) _)
  | .rbPushFront _ _, _, rfl => .whenOpen (.finishRingKeep (.refl _ s) _)
  | .rbPopFront _, _, rfl => .whenOpen (.raiseOr _ (.finishRing (.refl _ s) _ _))
  | .rbPopBack _, _, rfl => .whenOpen (.raiseOr _ (.finishRing (.refl _ s) _ _))
  | .rbGet _ _, _, rfl => .whenOpen (.raiseOr _ (.finish (.refl _ s) _))
  | .rbSet _ _ _, _, rfl => .whenOpen (.raiseOr _ (.finishRingKeep (.refl _ s) _))
  | .rbLen _, _, rfl => .whenOpen (.finish (.refl _ s) _)
  | .rbCap _, _, rfl => .whenOpen (.finish (.refl _ s) _)
  | .rbIsFull _, _, rfl => .whenOpen (.finish (.refl _ s) _)
  | .rbClear _, _, rfl => .whenOpen (.finishRingKeep (.afterDraw (.refl _ s)) _)
  | .rbSlices _, _, rfl => .whenOpen (.finish (.refl _ s) _)
  | .rbExtend b, _, rfl => execRbExtend_staysIn b s
  | .rbDrain b, _, rfl => execRbDrain_staysIn b s
  | .cobsEnc _, _, rfl => .whenOpen (.finishCodec (.refl _ s) _)
  | .cobsDec _, _, rfl => .whenOpen (.finishCodec (.refl _ s) _)
  | .crcCalc _ _, _, rfl => .whenOpen (.raiseOr _ (.finish (.refl _ s) _))
  | .frmSend .., _, rfl => execFrmSend_staysIn _ _ _ _ _ s
  | .frmRecv .., _, rfl => .whenOpen (receive_staysIn (by rfl) _ _ _)
  | .rtClose, _, rfl => .finishKeep rfl
  | .rtRoute, _, rfl => route_staysIn _ _ s
  | .cmdInvalid0, _, rfl => route_staysIn _ _ s
  | .cmdRegisterRead, _, rfl => route_staysIn _ _ s
  | .cmdRegisterWrite, _, rfl => route_staysIn _ _ s
  | .cmdReserved03, _, rfl => route_staysIn _ _ s
  | .cmdReserved04_07 _, _, rfl => route_staysIn _ _ s
  | .cmdReserved08_0F _, _, rfl => route_staysIn _ _ s
  | .cmdReserved10_1F _, _, rfl => route_staysIn _ _ s
  | .cmdReserved20_3F _, _, rfl => route_staysIn _ _ s
  | .cmdReserved40_7F _, _, rfl => route_staysIn _ _ s
  | .cmdStream _, _, rfl => route_staysIn _ _ s

/-- An operation of no half, other than `Q.POP`, answers its issuer and does nothing else. -/
theorem exec_pure (s : State) : ∀ {i : Instr}, i.half = none → (∀ q, i ≠ .qPop q) →
    ∃ r, exec i s = .next (s.answered r)
  | .pkReadReq .., _, _ => ⟨_, answerWith_eq ..⟩
  | .pkWrite8 .., _, _ => ⟨_, answerWith_eq ..⟩
  | .pkWrite32 .., _, _ => ⟨_, answerWith_eq ..⟩
  | .unpkReadReq _, _, _ => ⟨_, answerWith_eq ..⟩
  | .unpkRegval _, _, _ => ⟨_, answerWith_eq ..⟩
  | .unpkAck _, _, _ => ⟨_, answerWith_eq ..⟩
  | .hpClassify cmd, _, _ => ⟨.good (.cls (classify cmd)), rfl⟩
  | .stFormat _, _, _ => ⟨_, answerWith_eq ..⟩
  | .stUnpack .., _, _ => ⟨_, answerWith_eq ..⟩
  | .qPop q, _, hq => absurd rfl (hq q)

/-- `Q.POP` answers its issuer, and besides writes the queues alone. -/
theorem execQPop_next {q : BitVec 2} (h : execQPop q s = .next t) :
    ∃ r, t = { s.answered r with rdq := t.rdq, waq := t.waq, stq := t.stq } := by
  unfold execQPop at h
  split at h
  · cases h; exact ⟨_, rfl⟩
  all_goals
    split at h <;> (cases h; exact ⟨_, rfl⟩)

end Sys2Proof.Machine

section

open Sys2Proof Sys2Proof.Machine

/-- Settles O13: the half's operations by `exec_staysIn`, the pure ones by `exec_pure`, `Q.POP` by its own lemma. -/
theorem operationsStayInTheirHalf : Obligations.OperationsStayInTheirHalf := by
  intro i s t h
  refine ⟨fun hi => exec_staysIn s hi t h, fun hi => exec_staysIn s hi t h, fun hi hq => ?_, ?_⟩
  · obtain ⟨r, hr⟩ := exec_pure s hi hq
    exact ⟨r, Host.Outcome.next.inj (h.symm.trans hr)⟩
  · rintro q rfl
    exact execQPop_next h

end
end

section
/-! SUPPORT. The seam (10_state.md rules R21, R23): buffers with the same content, wherever in storage it lies, stay so
under every buffer operation, and every byte an operation reads is one of the content. -/

namespace Sys2Proof.Machine

/-- Two buffers of capacity `cap` that hold the same content, whatever their heads and the storage outside it. -/
structure SameContent (cap : Nat) (r r' : Ring) : Prop where
  left  : Ring.Ok cap r
  right : Ring.Ok cap r'
  equal : r'.content cap = r.content cap

variable {cap : Nat} {r r' q q' : Ring}

theorem Ring.Ok.same (h : Ring.Ok cap r) : SameContent cap r r := ⟨h, h, rfl⟩

theorem SameContent.len (h : SameContent cap r r') : r'.len = r.len := by
  simpa using congrArg List.length h.equal

/-! What is read. -/

theorem SameContent.get (h : SameContent cap r r') {i : Nat} (hi : i < r.len) : r'.get cap i = r.get cap i := by
  have hi' : i < r'.len := h.len ▸ hi
  simp only [Ring.get_eq_getElem hi, Ring.get_eq_getElem hi', h.equal]

theorem SameContent.memRead (h : SameContent cap r r') {i n : Nat} (hn : i + n ≤ r.len) :
    r'.memRead cap i n = r.memRead cap i n := by
  rw [Ring.memRead_eq hn, Ring.memRead_eq (h.len ▸ hn), h.equal]

theorem SameContent.front (h : SameContent cap r r') (hr : r.len ≠ 0) : r'.front = r.front := by
  rw [Ring.front_eq_get h.left, Ring.front_eq_get h.right, h.get (Nat.pos_of_ne_zero hr)]

theorem SameContent.back (h : SameContent cap r r') (hr : r.len ≠ 0) : r'.back cap = r.back cap := by
  rw [Ring.back_eq_get hr, Ring.back_eq_get (h.len ▸ hr), h.len, h.get (by omega)]

/-! What is written. -/

theorem SameContent.pushBack (h : SameContent cap r r') (v : Byte) :
    SameContent cap (r.pushBack cap v) (r'.pushBack cap v) :=
  ⟨h.left.pushBack v, h.right.pushBack v, by
    rw [Ring.content_pushBack h.left, Ring.content_pushBack h.right, h.equal, h.len]⟩

theorem SameContent.pushAll (h : SameContent cap r r') (bs : List Byte) :
    SameContent cap (r.pushAll cap bs) (r'.pushAll cap bs) :=
  ⟨h.left.pushAll bs, h.right.pushAll bs, by
    rw [Ring.content_pushAll h.left, Ring.content_pushAll h.right, h.equal, h.len]⟩

theorem SameContent.pushFront (h : SameContent cap r r') (v : Byte) :
    SameContent cap (r.pushFront cap v) (r'.pushFront cap v) := by
  refine ⟨h.left.pushFront v, h.right.pushFront v, ?_⟩
  rcases Nat.lt_or_eq_of_le h.left.len_le with hr | hr
  · rw [Ring.content_pushFront_room h.left hr, Ring.content_pushFront_room h.right (h.len ▸ hr), h.equal]
  · rw [Ring.content_pushFront_full h.left hr, Ring.content_pushFront_full h.right (h.len ▸ hr), h.equal]

theorem SameContent.popFront (h : SameContent cap r r') : SameContent cap (r.popFront cap) (r'.popFront cap) :=
  ⟨h.left.popFront, h.right.popFront, by rw [Ring.content_popFront, Ring.content_popFront, h.equal]⟩

theorem SameContent.popBack (h : SameContent cap r r') : SameContent cap r.popBack r'.popBack :=
  ⟨h.left.popBack, h.right.popBack, by rw [Ring.content_popBack, Ring.content_popBack, h.equal]⟩

theorem SameContent.popMany (h : SameContent cap r r') (n : Nat) :
    SameContent cap (r.popMany cap n) (r'.popMany cap n) :=
  ⟨h.left.popMany n, h.right.popMany n, by rw [Ring.content_popMany, Ring.content_popMany, h.equal]⟩

theorem SameContent.set (h : SameContent cap r r') {i : Nat} (hi : i < r.len) (v : Byte) :
    SameContent cap (r.set cap i v) (r'.set cap i v) :=
  ⟨h.left.set i v, h.right.set i v, by
    rw [Ring.content_set h.left hi, Ring.content_set h.right (h.len ▸ hi), h.equal]⟩

theorem SameContent.clear (h : SameContent cap r r') {n : Nat} (hn : n < cap) :
    SameContent cap (r.clear n) (r'.clear n) :=
  ⟨h.left.clear hn, h.right.clear hn, by simp⟩

theorem SameContent.ite (c : Bool) (h : SameContent cap r r') (hq : SameContent cap q q') :
    SameContent cap (if c then r else q) (if c then r' else q') := by
  cases c
  · exact hq
  · exact h

/-! The codecs. -/

/-- Two codec runs end alike: with the same length or the same failure, and buffers with the same content. -/
inductive SameCodec (cap : Nat) : Codec → Codec → Prop where
  | done (n : Nat) {r r' : Ring} (h : SameContent cap r r') : SameCodec cap (.done n r) (.done n r')
  | failed (f : Status) {r r' : Ring} (h : SameContent cap r r') : SameCodec cap (.failed f r) (.failed f r')

/-- Two walks of the decoder end alike. -/
inductive SameWalk (cap : Nat) : Walk → Walk → Prop where
  | landed (p : Nat) {r r' : Ring} (h : SameContent cap r r') : SameWalk cap (.landed p r) (.landed p r')
  | ranOff {r r' : Ring} (h : SameContent cap r r') : SameWalk cap (.ranOff r) (.ranOff r')

theorem SameContent.encodeScan (h : SameContent cap r r') {count i z : Nat} (hz : z < r.len)
    (hi : i + count ≤ r.len) :
    SameContent cap (encodeScan cap count i z r) (encodeScan cap count i z r') := by
  induction count generalizing i z r r' with
  | zero => exact h
  | succ count ih =>
    simp only [Machine.encodeScan, h.get (show i < r.len by omega)]
    split
    · exact ih (h.set hz _) (by simp; omega) (by simp; omega)
    · exact ih h hz (by omega)

theorem SameContent.cobsEncode (h : SameContent cap r r') : SameCodec cap (cobsEncode cap r) (cobsEncode cap r') := by
  simp only [Machine.cobsEncode, h.len]
  split
  · exact .failed _ h
  · split
    · exact .failed _ h
    · have hlen : ((r.pushFront cap 0).pushBack cap 0).len = r.len + 2 := by
        have h₁ : (r.pushFront cap 0).len = r.len + 1 := if_pos (by omega)
        rw [Ring.len_pushBack, h₁, if_pos (by omega)]
      exact .done _ (((h.pushFront 0).pushBack 0).encodeScan (by omega) (by omega))

theorem SameContent.decodeWalk (h : SameContent cap r r') {len steps p : Nat} (hlen : len ≤ r.len) (hp : p < len) :
    SameWalk cap (decodeWalk cap len steps p r) (decodeWalk cap len steps p r') := by
  induction steps generalizing p r r' with
  | zero => exact .ranOff h
  | succ steps ih =>
    have hpr : p < r.len := by omega
    simp only [Machine.decodeWalk, h.get hpr]
    split
    · exact .landed p h
    · split
      · exact .ranOff (h.set hpr 0)
      · exact ih (h.set hpr 0) hlen (by omega)

theorem SameContent.cobsDecode (h : SameContent cap r r') : SameCodec cap (cobsDecode cap r) (cobsDecode cap r') := by
  simp only [Machine.cobsDecode, h.len]
  split
  · exact .failed _ h
  · have hw : SameWalk cap (Machine.decodeWalk cap r.len r.len 0 r) (Machine.decodeWalk cap r.len r.len 0 r') :=
      h.decodeWalk (Nat.le_refl _) (by omega)
    revert hw
    generalize Machine.decodeWalk cap r.len r.len 0 r = w
    generalize Machine.decodeWalk cap r.len r.len 0 r' = w'
    rintro (@⟨p, e, e', he⟩ | he)
    · cases p with
      | zero => exact .failed _ he.popFront
      | succ p => exact .done _ he.popFront
    · exact .failed _ he

/-- A decoded message ends before the end of the content, whose first byte and terminator are gone or to come. -/
theorem cobsDecode_done_len (h : Ring.Ok cap r) {d : Nat} {e : Ring} (he : cobsDecode cap r = .done d e) :
    d ≤ e.len ∧ e.len < cap := by
  simp only [cobsDecode] at he
  split at he
  · cases he
  · have hle := h.len_le
    rcases decodeWalk_spec (Walked.start h) (by omega : 0 < r.len) (by omega : r.len ≤ 0 + r.len) with
      ⟨q, w, hq, hw, hlt, -, -⟩ | ⟨q, w, hq, -, -⟩
    · have hlen := hw.len
      rw [hq] at he
      cases q with
      | zero => cases he
      | succ q => cases he; simp only [Ring.popFront_len]; omega
    · rw [hq] at he; cases he

/-! The message that `FRM.SEND` builds. -/

theorem Ring.len_pushAll (h : Ring.Ok cap r) (bs : List Byte) :
    (r.pushAll cap bs).len = min cap (r.len + bs.length) := by
  have := congrArg List.length (Ring.content_pushAll h bs)
  simp only [Ring.length_content, List.length_drop, List.length_append] at this
  omega

theorem SameContent.buildMessage (h : SameContent cap r r') (hr : r.len = 0) (crc : CrcParams)
    (hasVersion hasCrc : Bool) (version command : Byte) (data : List Byte)
    (hfit : data.length + frameOverhead hasVersion hasCrc ≤ cap) :
    SameContent cap (buildMessage cap crc hasVersion hasCrc version command data r)
      (buildMessage cap crc hasVersion hasCrc version command data r') := by
  have h₁ : SameContent cap (if hasVersion then r.pushBack cap version else r)
      (if hasVersion then r'.pushBack cap version else r') := (h.pushBack version).ite _ h
  have hlen₁ : (if hasVersion then r.pushBack cap version else r).len + 1 = hdr hasVersion := by
    cases hasVersion <;> simp [Ring.len_pushBack, hr, hdr, h.left.cap_pos]
  have h₂ := (h₁.pushBack command).pushAll data
  have hlen₂ : (((if hasVersion then r.pushBack cap version else r).pushBack cap command).pushAll cap data).len
      = hdr hasVersion + data.length := by
    simp only [frameOverhead] at hfit
    rw [Ring.len_pushAll (h₁.left.pushBack command), Ring.len_pushBack, if_pos (by omega), hlen₁,
      Nat.min_eq_right (by omega)]
  cases hasCrc with
  | false => exact h₂
  | true =>
    simp only [Machine.buildMessage, if_true, h₂.memRead (show 0 + (hdr hasVersion + data.length) ≤ _ by omega)]
    exact (h₂.pushBack _).pushBack _

end Sys2Proof.Machine
end

section
/-! SUPPORT. Alike states (10_state.md rules R21, R23, R323): every operation, run from two states that differ in the
seam alone, ends in two such states. The invariant is the diagonal of this: a state that has it is alike to itself. -/

namespace Sys2Proof.Machine

/-- The invariant outside the two buffers. -/
def State.RestOk (s : State) : Prop :=
  s.outLen + 3 ≤ s.cfg.capRx ∧ Memory.wf s.outData ∧ Memory.below s.outData (s.cfg.capRx - 3)
    ∧ (∀ e ∈ s.stq, e.2.length + 3 ≤ s.cfg.capRx)
    ∧ fitsDepth s.cfg.qDepth s.rdq.length ∧ fitsDepth s.cfg.qDepth s.waq.length ∧ fitsDepth s.cfg.qDepth s.stq.length

/-- `s` with other buffers. -/
def State.withRings (s : State) (x y : Ring) : State := { s with txb := x, rxb := y }

/-- Two results that, where both are next states, are alike states. -/
def AlikeResult (k k' : Result) : Prop := ∀ t t', k = .next t → k' = .next t' → Alike t t'

variable {s s' : State} {b : Half} {r r' x y : Ring} {k k' l l' : Result}

/-! Other buffers leave every other field alone. -/

section

variable (s : State) (b : Half) (x y : Ring)

@[simp] theorem State.withRings_cfg : (s.withRings x y).cfg = s.cfg := rfl
@[simp] theorem State.withRings_payload : (s.withRings x y).payload = s.payload := rfl
@[simp] theorem State.withRings_rdq : (s.withRings x y).rdq = s.rdq := rfl
@[simp] theorem State.withRings_waq : (s.withRings x y).waq = s.waq := rfl
@[simp] theorem State.withRings_stq : (s.withRings x y).stq = s.stq := rfl
@[simp] theorem State.withRings_rxReads : (s.withRings x y).rxReads = s.rxReads := rfl
@[simp] theorem State.withRings_txWrites : (s.withRings x y).txWrites = s.txWrites := rfl
@[simp] theorem State.withRings_cap : (s.withRings x y).cap b = s.cap b := by cases b <;> rfl
@[simp] theorem State.withRings_drawnHead : (s.withRings x y).drawnHead b = s.drawnHead b := by cases b <;> rfl
theorem State.withRings_afterDraw : (s.withRings x y).afterDraw b = (s.afterDraw b).withRings x y := by
  cases b <;> simp only [State.afterDraw, State.withRings] <;> split <;> rfl

end

/-! The parts of an alike pair. -/

theorem State.inv_iff : s.Inv ↔ Ring.Ok s.cfg.capTx s.txb ∧ Ring.Ok s.cfg.capRx s.rxb ∧ s.RestOk :=
  ⟨fun ⟨htx, hrx, h₁, h₂, h₃, h₄, h₅, h₆, h₇⟩ => ⟨htx, hrx, h₁, h₂, h₃, h₄, h₅, h₆, h₇⟩,
    fun ⟨htx, hrx, h₁, h₂, h₃, h₄, h₅, h₆, h₇⟩ => ⟨htx, hrx, h₁, h₂, h₃, h₄, h₅, h₆, h₇⟩⟩

/-- Alike states in the three parts they consist of. -/
theorem alike_withRings : Alike s (s.withRings x y) ↔
    SameContent s.cfg.capTx s.txb x ∧ SameContent s.cfg.capRx s.rxb y ∧ s.RestOk := by
  constructor
  · rintro ⟨hs, hs', -, hc⟩
    obtain ⟨htx, hrx, hrest⟩ := State.inv_iff.1 hs
    obtain ⟨htx', hrx', -⟩ := State.inv_iff.1 hs'
    exact ⟨⟨htx, htx', hc .tx⟩, ⟨hrx, hrx', hc .rx⟩, hrest⟩
  · rintro ⟨htx, hrx, hrest⟩
    refine ⟨State.inv_iff.2 ⟨htx.left, hrx.left, hrest⟩, State.inv_iff.2 ⟨htx.right, hrx.right, hrest⟩, rfl, ?_⟩
    rintro (_ | _)
    · exact htx.equal
    · exact hrx.equal

theorem Alike.eq_withRings (h : Alike s s') : ∃ x y, s' = s.withRings x y := ⟨_, _, h.rest⟩

theorem State.Inv.alike (h : s.Inv) : Alike s s := ⟨h, h, rfl, fun _ => rfl⟩

/-- The fields that the invariant speaks of. -/
def State.watched (s : State) :
    Config × Ring × Ring × Nat × Memory × List (BitVec 16 × BitVec 32) × List (BitVec 16) × List (Byte × List Byte) :=
  (s.cfg, s.txb, s.rxb, s.outLen, s.outData, s.rdq, s.waq, s.stq)

/-- Alike states stay alike under an update of fields that the invariant does not speak of, by values that no buffer
enters. -/
theorem Alike.update (h : Alike s s') (f : State → State)
    (hf : ∀ u x y, f (u.withRings x y) = (f u).withRings x y) (hw : ∀ u, (f u).watched = u.watched) :
    Alike (f s) (f s') := by
  obtain ⟨x, y, rfl⟩ := h.eq_withRings
  have hs := hw s
  simp only [State.watched, Prod.mk.injEq] at hs
  obtain ⟨h₁, h₂, h₃, h₄, h₅, h₆, h₇, h₈⟩ := hs
  rw [hf, alike_withRings]
  simpa only [State.RestOk, h₁, h₂, h₃, h₄, h₅, h₆, h₇, h₈] using alike_withRings.1 h

theorem State.Inv.congr (h : s.Inv) (hw : s'.watched = s.watched) : s'.Inv := by
  simp only [State.watched, Prod.mk.injEq] at hw
  obtain ⟨h₁, h₂, h₃, h₄, h₅, h₆, h₇, h₈⟩ := hw
  rw [State.inv_iff] at h ⊢
  simpa only [State.RestOk, h₁, h₂, h₃, h₄, h₅, h₆, h₇, h₈] using h

/-! Alike states under the named updates. -/

theorem Alike.ring (h : Alike s s') (b : Half) : SameContent (s.cap b) (s.ring b) (s'.ring b) := by
  obtain ⟨x, y, rfl⟩ := h.eq_withRings
  obtain ⟨htx, hrx, -⟩ := alike_withRings.1 h
  cases b
  · exact htx
  · exact hrx

theorem Alike.setRing (h : Alike s s') (hr : SameContent (s.cap b) r r') :
    Alike (s.setRing b r) (s'.setRing b r') := by
  obtain ⟨x, y, rfl⟩ := h.eq_withRings
  obtain ⟨htx, hrx, hrest⟩ := alike_withRings.1 h
  cases b
  · exact alike_withRings.2 ⟨hr, hrx, hrest⟩
  · exact alike_withRings.2 ⟨htx, hr, hrest⟩

theorem Alike.setRes (h : Alike s s') (b : Half) (v : Res) : Alike (s.setRes b v) (s'.setRes b v) := by
  cases b <;> exact h.update (State.setRes · _ v) (fun _ _ _ => rfl) fun _ => rfl

theorem Alike.useFree (h : Alike s s') (b : Half) : Alike (s.useFree b) (s'.useFree b) := by
  cases b <;> exact h.update (State.useFree · _) (fun _ _ _ => rfl) fun _ => rfl

theorem Alike.afterDraw (h : Alike s s') (b : Half) : Alike (s.afterDraw b) (s'.afterDraw b) :=
  h.update (State.afterDraw · b) (fun u => u.withRings_afterDraw b) fun u => by simp [State.watched]

theorem Alike.setOutValid (h : Alike s s') (v : Bool) : Alike { s with outValid := v } { s' with outValid := v } :=
  h.update (fun u => { u with outValid := v }) (fun _ _ _ => rfl) fun _ => rfl

theorem Alike.setRxReads (h : Alike s s') (rs : List ReadOutcome) :
    Alike { s with rxReads := rs } { s' with rxReads := rs } :=
  h.update (fun u => { u with rxReads := rs }) (fun _ _ _ => rfl) fun _ => rfl

theorem Alike.setTxPort (h : Alike s s') (ws : List WriteOutcome) (out : List Byte) :
    Alike { s with txWrites := ws, txStream := out } { s' with txWrites := ws, txStream := out } :=
  h.update (fun u => { u with txWrites := ws, txStream := out }) (fun _ _ _ => rfl) fun _ => rfl

theorem Alike.setRxClosed (h : Alike s s') : Alike { s with rxClosed := true } { s' with rxClosed := true } :=
  h.update (fun u => { u with rxClosed := true }) (fun _ _ _ => rfl) fun _ => rfl

theorem Alike.drawnHead_lt (h : Alike s s') (b : Half) : s.drawnHead b < s.cap b := by
  simp only [State.drawnHead]
  split <;> exact Nat.mod_lt _ (h.ring b).left.cap_pos

/-! The endings of an operation. -/

theorem AlikeResult.next (h : Alike s s') : AlikeResult (.next s) (.next s') := by
  rintro t t' ⟨⟩ ⟨⟩
  exact h

theorem AlikeResult.raise (h : Alike s s') (b : Half) (f : Status) : AlikeResult (raise b f s) (raise b f s') := by
  obtain ⟨x, y, rfl⟩ := h.eq_withRings
  have hc : (s.withRings x y).freeCount b = s.freeCount b := by cases b <;> rfl
  rw [raise_eq, raise_eq, hc]
  exact .next ((h.useFree b).setRes b _)

theorem AlikeResult.finish (h : Alike s s') (b : Half) (v : ResVal) : AlikeResult (finish b v s) (finish b v s') :=
  .next (h.setRes b _)

theorem AlikeResult.finishKeep (h : Alike s s') (b : Half) : AlikeResult (finishKeep b s) (finishKeep b s') := by
  obtain ⟨x, y, rfl⟩ := h.eq_withRings
  have hv : (s.withRings x y).res b = s.res b := by cases b <;> rfl
  simp only [Machine.finishKeep, hv]
  exact .next (h.setRes b _)

theorem AlikeResult.finishRing (h : Alike s s') (hr : SameContent (s.cap b) r r') (v : ResVal) :
    AlikeResult (finishRing b r v s) (finishRing b r' v s') :=
  .finish (h.setRing hr) b v

theorem AlikeResult.finishRingKeep (h : Alike s s') (hr : SameContent (s.cap b) r r') :
    AlikeResult (finishRingKeep b r s) (finishRingKeep b r' s') :=
  .finishKeep (h.setRing hr) b

theorem AlikeResult.finishCodec {c c' : Codec} (h : Alike s s') (hc : SameCodec (s.cap b) c c') :
    AlikeResult (finishCodec b c s) (finishCodec b c' s') := by
  cases hc with
  | done n hr => exact .finishRing h hr _
  | failed f hr => exact .raise (h.setRing hr) b f

theorem AlikeResult.answerWith (h : Alike s s') (v : Except Status RetVal) :
    AlikeResult (answerWith v s) (answerWith v s') := by
  rw [answerWith_eq, answerWith_eq]
  exact .next (h.update (State.answered · _) (fun _ _ _ => rfl) fun _ => rfl)

theorem AlikeResult.ite {p p' : Prop} [Decidable p] [Decidable p'] (hp : p' ↔ p) (hk : p → AlikeResult k k')
    (hl : ¬p → AlikeResult l l') : AlikeResult (if p then k else l) (if p' then k' else l') := by
  simp only [hp]
  split
  · exact hk ‹_›
  · exact hl ‹_›

theorem AlikeResult.whenOpen (h : Alike s s') (b : Half) (hk : AlikeResult k k') :
    AlikeResult (whenOpen b s k) (whenOpen b s' k') := by
  obtain ⟨x, y, rfl⟩ := h.eq_withRings
  exact .ite Iff.rfl (fun _ => .raise h b .closed) fun _ => hk

/-! Queues. -/

theorem fitsDepth.append {α : Type} {qDepth : Option Nat} {q : List α} (h : noRoom qDepth q.length = false) (e : α) :
    fitsDepth qDepth (q ++ [e]).length := by
  rintro d rfl
  simp only [noRoom, decide_eq_false_iff_not] at h
  simp only [List.length_append, List.length_singleton]
  omega

theorem fitsDepth.tail {α : Type} {qDepth : Option Nat} {q : List α} {e : α} (h : fitsDepth qDepth (e :: q).length) :
    fitsDepth qDepth q.length :=
  fun d hd => Nat.le_of_succ_le (h d hd)

theorem Alike.setQueues (h : Alike s s') {rdq : List (BitVec 16 × BitVec 32)} {waq : List (BitVec 16)}
    {stq : List (Byte × List Byte)} (hr : fitsDepth s.cfg.qDepth rdq.length) (hw : fitsDepth s.cfg.qDepth waq.length)
    (hs : fitsDepth s.cfg.qDepth stq.length) (he : ∀ e ∈ stq, e.2.length + 3 ≤ s.cfg.capRx) :
    Alike { s with rdq := rdq, waq := waq, stq := stq } { s' with rdq := rdq, waq := waq, stq := stq } := by
  obtain ⟨x, y, rfl⟩ := h.eq_withRings
  obtain ⟨htx, hrx, h₁, h₂, h₃, -⟩ := alike_withRings.1 h
  exact alike_withRings.2 ⟨htx, hrx, h₁, h₂, h₃, he, hr, hw, hs⟩

/-! The router and `Q.POP`. -/

theorem reject_alike (h : Alike s s') (f : Status) (cls : CmdClass) (cmd : Byte) :
    AlikeResult (reject f cls cmd s) (reject f cls cmd s') :=
  .next ((h.update (fun u => { u with diag := u.diag ++ [{ code := f, command := some cmd }] }) (fun _ _ _ => rfl)
    fun _ => rfl).setRes .rx _)

theorem dispatchFrame_alike (h : Alike s (s.withRings x y)) (cls : CmdClass) (cmd : Byte)
    (hroom : targetFull cls s = false) :
    AlikeResult (dispatchFrame cls cmd s) (dispatchFrame cls cmd (s.withRings x y)) := by
  have consumed := h.setOutValid false
  have hs := h.left
  cases cls with
  | invalid0 => exact reject_alike consumed _ _ _
  | reserved => exact reject_alike consumed _ _ _
  | registerRead =>
    simp only [dispatchFrame, State.withRings_payload]
    cases hu : unpackRegVal s.payload with
    | none => exact reject_alike consumed _ _ _
    | some e =>
      simp only [targetFull, hu, Option.isSome_some, Bool.true_and] at hroom
      exact .finish (consumed.setQueues (.append hroom e) hs.waqDepth hs.stqDepth hs.stqSizes) _ _
  | registerWrite =>
    simp only [dispatchFrame, State.withRings_payload, State.withRings_cfg]
    cases hu : unpackAck s.cfg.ackLengths s.payload with
    | none => exact reject_alike consumed _ _ _
    | some reg =>
      simp only [targetFull, hu, Option.isSome_some, Bool.true_and] at hroom
      exact .finish (consumed.setQueues hs.rdqDepth (.append hroom reg) hs.stqDepth hs.stqSizes) _ _
  | stream =>
    have hsizes : ∀ e ∈ s.stq ++ [(cmd, s.payload)], e.2.length + 3 ≤ s.cfg.capRx := by
      intro e he
      rcases List.mem_append.1 he with he | he
      · exact hs.stqSizes e he
      · simpa [List.mem_singleton.1 he, State.payload, Memory.readSeq] using hs.outLen
    exact .finish (consumed.setQueues hs.rdqDepth hs.waqDepth (.append hroom _) hsizes) _ _

theorem route_alike (h : Alike s (s.withRings x y)) (cls : CmdClass) (cmd : Byte) :
    AlikeResult (route cls cmd s) (route cls cmd (s.withRings x y)) :=
  .whenOpen h .rx (.ite Iff.rfl (fun _ => .raise h _ _) fun _ =>
    .ite Iff.rfl (fun _ => .next h) fun hroom => dispatchFrame_alike h cls cmd (Bool.eq_false_of_not_eq_true hroom))

theorem execQPop_alike (h : Alike s (s.withRings x y)) (q : BitVec 2) :
    AlikeResult (execQPop q s) (execQPop q (s.withRings x y)) := by
  obtain ⟨-, -, -, -, -, hsizes, hr, hw, hs⟩ := h.left
  simp only [execQPop, State.withRings_rdq, State.withRings_waq, State.withRings_stq]
  split
  · exact .answerWith h _
  · cases hq : s.rdq with
    | nil => exact .answerWith h _
    | cons e es => exact .answerWith (h.setQueues (hq ▸ hr).tail hw hs hsizes) _
  · cases hq : s.waq with
    | nil => exact .answerWith h _
    | cons e es => exact .answerWith (h.setQueues hr (hq ▸ hw).tail hs hsizes) _
  · cases hq : s.stq with
    | nil => exact .answerWith h _
    | cons e es =>
      exact .answerWith (h.setQueues hr hw (hq ▸ hs).tail fun d hd => hsizes d (hq ▸ .tail _ hd)) _

/-! The frame codec and the transports. -/

theorem execFrmSend_alike (h : Alike s (s.withRings x y)) (hasVersion hasCrc : Bool) (version command : Byte)
    (data : List Byte) :
    AlikeResult (execFrmSend hasVersion hasCrc version command data s)
      (execFrmSend hasVersion hasCrc version command data (s.withRings x y)) := by
  refine .ite Iff.rfl (fun _ => .raise h _ _) fun hfit => .finishCodec (h.afterDraw .tx) ?_
  have hclear := (h.ring .tx).clear (h.drawnHead_lt .tx)
  rw [State.afterDraw_cap]
  exact (hclear.buildMessage rfl _ _ _ _ _ _ (Nat.le_of_not_lt hfit)).cobsEncode

theorem Alike.latch (h : Alike s s') (version command : Byte) {data : List Byte} {n : Nat} (hn : data.length = n)
    (hfit : n + 3 ≤ s.cfg.capRx) (hr : SameContent s.cfg.capRx r r') :
    Alike
      { s with outVersion := version, outCommand := command, outData := Memory.writeSeq s.outData 0 data, outLen := n,
               rxb := r }
      { s' with outVersion := version, outCommand := command, outData := Memory.writeSeq s'.outData 0 data,
                outLen := n, rxb := r' } := by
  obtain ⟨x, y, rfl⟩ := h.eq_withRings
  obtain ⟨htx, -, -, hwf, hbelow, hqueues⟩ := alike_withRings.1 h
  have hbelow' := Memory.writeSeq_below (k := 0) (vs := data) hbelow (by omega)
  exact alike_withRings.2 ⟨htx, hr, hfit, Memory.writeSeq_wf 0 data hwf, hbelow', hqueues⟩

theorem one_le_hdr (hasVersion : Bool) : 1 ≤ hdr hasVersion := by cases hasVersion <;> decide

/-- Every field that is popped, and both checksum bytes, are bytes of the content. -/
theorem deliver_alike (h : Alike s (s.withRings x y)) (hasVersion hasCrc : Bool) (plen : Nat)
    (hr : SameContent s.cfg.capRx r r') (hlen : hdr hasVersion + plen + crcLen hasCrc + 1 ≤ r.len)
    (hcap : r.len < s.cfg.capRx) :
    AlikeResult (deliver hasVersion hasCrc plen r s) (deliver hasVersion hasCrc plen r' (s.withRings x y)) := by
  have hpos := one_le_hdr hasVersion
  have h₁ : SameContent s.cfg.capRx (if hasVersion then r.popFront s.cfg.capRx else r)
      (if hasVersion then r'.popFront s.cfg.capRx else r') := hr.popFront.ite _ hr
  have hlen₁ : (if hasVersion then r.popFront s.cfg.capRx else r).len + hdr hasVersion = r.len + 1 := by
    cases hasVersion
    · rfl
    · show r.len - 1 + 2 = r.len + 1; omega
  simp only [deliver, State.withRings_cfg, hr.memRead (show 0 + (hdr hasVersion + plen) ≤ r.len by omega),
    hr.front (by omega), h₁.front (by omega)]
  generalize (if hasVersion then r.popFront s.cfg.capRx else r) = r₁ at h₁ hlen₁ ⊢
  generalize (if hasVersion then r'.popFront s.cfg.capRx else r') = r₁' at h₁ ⊢
  have h₃ := h₁.popFront.popMany plen
  have hlen₃ : ((r₁.popFront s.cfg.capRx).popMany s.cfg.capRx plen).len = r₁.len - 1 - plen := Ring.len_popMany plen
  rw [h₁.popFront.memRead (by rw [Ring.popFront_len]; omega), h₃.front (by omega)]
  generalize (r₁.popFront s.cfg.capRx).popMany s.cfg.capRx plen = r₃ at h₃ hlen₃ ⊢
  generalize (r₁'.popFront s.cfg.capRx).popMany s.cfg.capRx plen = r₃' at h₃ ⊢
  have hlow : hasCrc = true → (r₃'.popFront s.cfg.capRx).front = (r₃.popFront s.cfg.capRx).front := by
    rintro rfl
    have : crcLen true = 2 := rfl
    exact h₃.popFront.front (by rw [Ring.popFront_len]; omega)
  have latched := h.latch (if hasVersion then r.front else s.outVersion) r₁.front
    (Ring.length_memRead (cap := s.cfg.capRx) (r := r₁.popFront s.cfg.capRx) 0 plen) (by omega)
    (h₃.popFront.popFront.ite hasCrc h₃).popFront
  exact .ite (and_congr_right fun hc => by rw [hlow hc]) (fun _ => .raise latched _ _)
    fun _ => .finish (latched.setOutValid true) _ _

theorem receive_alike (h : Alike s (s.withRings x y)) (hasVersion hasCrc : Bool) (dstCap : Nat) :
    AlikeResult (receive hasVersion hasCrc dstCap s) (receive hasVersion hasCrc dstCap (s.withRings x y)) := by
  have hrx := h.ring .rx
  refine .ite Iff.rfl (fun _ => .raise h _ _) fun _ => .ite ?_ (fun _ => .raise h _ _) fun _ => ?_
  · rw [show (s.withRings x y).rxb.len = s.rxb.len from hrx.len]
  · have hdec := hrx.cobsDecode
    have hlen := fun d e => cobsDecode_done_len (d := d) (e := e) hrx.left
    revert hdec hlen
    simp only [State.ring_rx, State.cap_rx, State.withRings_cfg]
    generalize cobsDecode s.cfg.capRx s.rxb = c
    generalize cobsDecode s.cfg.capRx (s.withRings x y).rxb = c'
    rintro (@⟨d, e, e', he⟩ | @⟨f, e, e', he⟩) hlen
    · obtain ⟨hd, hcap⟩ := hlen d e rfl
      refine .ite Iff.rfl (fun _ => .raise (h.setRing (b := .rx) (he.popMany d)) _ _) fun hfixed => ?_
      have hpos := one_le_hdr hasVersion
      exact deliver_alike h _ _ _ he (by omega) hcap
    · exact .raise (h.setRing (b := .rx) he) _ _

theorem execRbExtend_alike (h : Alike s (s.withRings x y)) (b : Half) :
    AlikeResult (execRbExtend b s) (execRbExtend b (s.withRings x y)) := by
  cases b with
  | tx => exact .raise h _ _
  | rx =>
    refine .whenOpen h .rx ?_
    rw [State.withRings_rxReads]
    split
    · exact .next h
    · exact .raise (h.setRxReads _) _ _
    · refine .finishRing (h.setRxReads _) ?_ _
      exact (h.ring .rx).pushAll _

theorem execRbDrain_alike (h : Alike s (s.withRings x y)) (b : Half) :
    AlikeResult (execRbDrain b s) (execRbDrain b (s.withRings x y)) := by
  cases b with
  | rx => exact .raise h _ _
  | tx =>
    have htx := h.ring .tx
    have hlen : (s.withRings x y).txb.len = s.txb.len := htx.len
    have hcontent : (s.withRings x y).txb.content s.cfg.capTx = s.txb.content s.cfg.capTx := htx.equal
    simp only [execRbDrain, State.cap_tx, State.withRings_cfg, State.withRings_txWrites, hlen, hcontent]
    refine .ite Iff.rfl (fun _ => .finish h _ _) fun _ => ?_
    split
    · exact .next h
    · refine .finishRing (h.setTxPort _ _) ?_ _
      exact htx.popMany _
    · refine .raise ?_ _ _
      exact (h.setRing (htx.popMany _)).setTxPort _ _

/-- Two alike states stay alike under any operation, where `RB.SLICES` reads the same seam in both. -/
theorem exec_alike (h : Alike s (s.withRings x y)) : ∀ i : Instr,
    (∀ b, i = .rbSlices b → ((s.withRings x y).ring b).slices (s.cap b) = (s.ring b).slices (s.cap b)) →
    AlikeResult (exec i s) (exec i (s.withRings x y))
  | .rbPushBack b v, _ => .whenOpen h b (.finishRingKeep h ((h.ring b).pushBack v))
  | .rbPushFront b v, _ => .whenOpen h b (.finishRingKeep h ((h.ring b).pushFront v))
  | .rbPopFront b, _ => .whenOpen h b (.ite (by rw [(h.ring b).len]) (fun _ => .raise h _ _) fun hne => by
      rw [(h.ring b).front hne]
      exact .finishRing h (h.ring b).popFront _)
  | .rbPopBack b, _ => .whenOpen h b (.ite (by rw [(h.ring b).len]) (fun _ => .raise h _ _) fun hne => by
      rw [State.withRings_cap, (h.ring b).back hne]
      exact .finishRing h (h.ring b).popBack _)
  | .rbGet b i, _ => .whenOpen h b (.ite (by rw [(h.ring b).len]) (fun _ => .raise h _ _) fun hi => by
      rw [State.withRings_cap, (h.ring b).get (Nat.lt_of_not_le hi)]
      exact .finish h b _)
  | .rbSet b i v, _ => .whenOpen h b (.ite (by rw [(h.ring b).len]) (fun _ => .raise h _ _) fun hi =>
      .finishRingKeep h ((h.ring b).set (Nat.lt_of_not_le hi) v))
  | .rbLen b, _ => .whenOpen h b (by rw [(h.ring b).len]; exact .finish h b _)
  | .rbCap b, _ => .whenOpen h b (.finish h b _)
  | .rbIsFull b, _ => .whenOpen h b (by simp only [Ring.isFull, (h.ring b).len]; exact .finish h b _)
  | .rbClear b, _ => .whenOpen h b (by
      rw [State.withRings_drawnHead]
      refine .finishRingKeep (h.afterDraw b) ?_
      rw [State.afterDraw_cap]
      exact (h.ring b).clear (h.drawnHead_lt b))
  | .rbSlices b, hs => .whenOpen h b (by
      rw [State.withRings_cap, hs b rfl]
      exact .finish h b _)
  | .rbExtend b, _ => execRbExtend_alike h b
  | .rbDrain b, _ => execRbDrain_alike h b
  | .cobsEnc b, _ => .whenOpen h b (.finishCodec h (h.ring b).cobsEncode)
  | .cobsDec b, _ => .whenOpen h b (.finishCodec h (h.ring b).cobsDecode)
  | .crcCalc b n, _ => .whenOpen h b (.ite (by rw [(h.ring b).len]) (fun _ => .raise h _ _) fun hn => by
      rw [State.withRings_cap, (h.ring b).memRead (by omega)]
      exact .finish h b _)
  | .frmSend .., _ => execFrmSend_alike h _ _ _ _ _
  | .frmRecv .., _ => .whenOpen h .rx (receive_alike (h.setOutValid false) _ _ _)
  | .pkReadReq .., _ => .answerWith h _
  | .pkWrite8 .., _ => .answerWith h _
  | .pkWrite32 .., _ => .answerWith h _
  | .unpkReadReq _, _ => .answerWith h _
  | .unpkRegval _, _ => .answerWith h _
  | .unpkAck _, _ => .answerWith h _
  | .hpClassify cmd, _ => .answerWith h (.ok (.cls (classify cmd)))
  | .stFormat _, _ => .answerWith h _
  | .stUnpack .., _ => .answerWith h _
  | .qPop q, _ => execQPop_alike h q
  | .rtClose, _ => .finishKeep h.setRxClosed .rx
  | .rtRoute, _ => route_alike h _ _
  | .cmdInvalid0, _ => route_alike h _ _
  | .cmdRegisterRead, _ => route_alike h _ _
  | .cmdRegisterWrite, _ => route_alike h _ _
  | .cmdReserved03, _ => route_alike h _ _
  | .cmdReserved04_07 _, _ => route_alike h _ _
  | .cmdReserved08_0F _, _ => route_alike h _ _
  | .cmdReserved10_1F _, _ => route_alike h _ _
  | .cmdReserved20_3F _, _ => route_alike h _ _
  | .cmdReserved40_7F _, _ => route_alike h _ _
  | .cmdStream _, _ => route_alike h _ _

/-- Every operation keeps the invariant: the diagonal of `exec_alike`. -/
theorem exec_keepsInv {i : Instr} {t : State} (h : s.Inv) (ht : exec i s = .next t) : t.Inv :=
  (exec_alike (x := s.txb) (y := s.rxb) h.alike i (fun _ _ => rfl) t t ht ht).left

end Sys2Proof.Machine

section

open Sys2Proof Sys2Proof.Machine

/-- Settles O16, by `exec_alike`: every operation but `RB.SLICES` reads bytes of the content only. -/
theorem seamIsInvisible : Obligations.SeamIsInvisible := by
  intro i s s' t t' hi h ht ht'
  obtain ⟨x, y, rfl⟩ := h.eq_withRings
  exact exec_alike h i (fun b hb => absurd hb (hi b)) t t' ht ht'

end
end

section
/-! SUPPORT. The step around an operation: what a turn runs, and that the lines around exec keep the invariant. -/

namespace Sys2Proof.Machine

variable {s t : State} {a : Agent} {act : Activity} {i : Instr}

/-! What a step runs. -/

theorem step_idle (h : s.turns = []) : step s = .next s := by simp only [step, nextTurn, h]

theorem step_reset {turns : List Turn} (h : s.turns = .reset :: turns) :
    step s = .next (resetEvent { s with turns := turns }) := by
  simp only [step, nextTurn, h]

theorem step_move {turns : List Turn} (h : s.turns = .move a :: turns) :
    step s = agentMove a { s with turns := turns } := by
  simp only [step, nextTurn, h]

theorem agentMove_idle (h : s.agenda a = []) : agentMove a s = .next s := by simp only [agentMove, h]

theorem agentMove_cons {later : List Activity} (h : s.agenda a = act :: later) :
    agentMove a s = runActivity a act (s.setAgenda a later) := by
  simp only [agentMove, h]

theorem State.agenda_turns (s : State) (turns : List Turn) (a : Agent) :
    State.agenda { s with turns := turns } a = s.agenda a := by
  cases a <;> rfl

/-- Setting the agenda back to what it was undoes any other. -/
theorem State.setAgenda_restore {l l' : List Activity} (h : s.agenda a = l) : (s.setAgenda a l').setAgenda a l = s := by
  subst h
  cases a <;> rfl

/-- A line of a pseudo-operation waits with its activity back on the agenda, or runs its operation and goes on. -/
theorem perform_next {next : State → State} (h : perform a act i s next = .next t) :
    (waits i s = true ∧ t = s.setAgenda a (act :: s.agenda a))
      ∨ (waits i s = false ∧ ∃ u, exec i s = .next u ∧ t = next u) := by
  unfold perform at h
  split at h
  · cases h; exact .inl ⟨‹_›, rfl⟩
  · split at h <;> cases h
    exact .inr ⟨Bool.eq_false_of_not_eq_true ‹_›, _, ‹_›, rfl⟩

/-! What the agents change around an operation is not watched. -/

@[simp] theorem State.watched_setAgenda (s : State) (a : Agent) (l : List Activity) :
    (s.setAgenda a l).watched = s.watched := by cases a <;> rfl
@[simp] theorem State.watched_goOn (s : State) (a : Agent) (act : Activity) : (s.goOn a act).watched = s.watched :=
  s.watched_setAgenda a _
@[simp] theorem State.watched_report (s : State) (f : Status) : (s.report f).watched = s.watched := rfl
@[simp] theorem State.watched_endCall (s : State) (r : Reply) : (s.endCall r).watched = s.watched := rfl
@[simp] theorem State.watched_answered (s : State) (r : Reply) : (s.answered r).watched = s.watched := rfl
@[simp] theorem State.watched_setRes (s : State) (b : Half) (v : Res) : (s.setRes b v).watched = s.watched := by
  cases b <;> rfl
@[simp] theorem State.watched_useFree (s : State) (b : Half) : (s.useFree b).watched = s.watched := by
  cases b <;> rfl

@[simp] theorem watched_serviceRead (a : Agent) (hv hc : Bool) (dstCap : Nat) (t : State) :
    (serviceRead a hv hc dstCap t).watched = t.watched := by
  simp only [serviceRead]; split <;> simp
@[simp] theorem watched_serviceReceived (a : Agent) (t : State) : (serviceReceived a t).watched = t.watched := by
  simp only [serviceReceived]; split <;> simp
@[simp] theorem watched_callPacked (a : Agent) (hc : Bool) (call : Call) (t : State) :
    (callPacked a hc call t).watched = t.watched := by
  simp only [callPacked]; split <;> simp
@[simp] theorem watched_callStep (a : Agent) (act : Activity) (t : State) : (callStep a act t).watched = t.watched := by
  simp only [callStep]; split <;> simp
@[simp] theorem watched_streamPopped (a : Agent) (t : State) : (streamPopped a t).watched = t.watched := by
  simp only [streamPopped]; split <;> simp
@[simp] theorem watched_callPopped (a : Agent) (call : Call) (waited : Nat) (t : State) :
    (callPopped a call waited t).watched = t.watched := by
  simp only [callPopped]
  split
  · split <;> simp
  · split
    · simp
    · split
      · simp
      · rw [State.watched_goOn]; rfl
  · simp

theorem FailsUnchanged.watched {b : Half} {f : Status} (h : FailsUnchanged b f s t) : t.watched = s.watched := by
  rw [h.2]; simp

theorem badRequest_watched {bytes : List Byte} (h : badRequest bytes s = .next t) : t.watched = s.watched := by
  obtain ⟨b, -, hf⟩ | ⟨-, rfl⟩ := badRequest_next h
  · exact hf.watched
  · simp

/-! The invariant. -/

theorem perform_keepsInv {next : State → State} (hs : s.Inv) (hnext : ∀ u, (next u).watched = u.watched)
    (h : perform a act i s next = .next t) : t.Inv := by
  obtain ⟨-, rfl⟩ | ⟨-, u, hu, rfl⟩ := perform_next h
  · exact hs.congr (by simp)
  · exact (exec_keepsInv hs hu).congr (hnext u)

theorem runActivity_keepsInv (hs : s.Inv) (h : runActivity a act s = .next t) : t.Inv := by
  cases act with
  | request bytes =>
    simp only [runActivity] at h
    split at h
    · exact perform_keepsInv hs (fun _ => rfl) h
    · exact hs.congr (badRequest_watched h)
  | rxService hv hc dstCap =>
    simp only [runActivity] at h
    split at h
    · exact hs.congr (raise_next h).1.watched
    · exact perform_keepsInv hs (by simp) h
  | serviceClose =>
    have hr : (s.report .transportFailure).Inv := hs.congr rfl
    simp only [runActivity] at h
    split at h
    next u hu =>
      cases h
      exact (exec_keepsInv hr hu).congr (by simp)
    all_goals cases h
  | serviceFail => exact hs.congr (raise_next h).1.watched
  | serviceRecv hv hc dstCap => exact perform_keepsInv hs (by simp) h
  | serviceRoute => exact perform_keepsInv hs (fun _ => rfl) h
  | writeReg hc reg value => exact perform_keepsInv hs (by simp) h
  | readReg hc reg => exact perform_keepsInv hs (by simp) h
  | callSend hc call payload => exact perform_keepsInv hs (by simp) h
  | callDrain call => exact perform_keepsInv hs (by simp) h
  | callWait call waited => exact perform_keepsInv hs (by simp) h
  | streamPop => exact perform_keepsInv hs (by simp) h
  | streamUnpack cmd p => exact perform_keepsInv hs (by simp) h

theorem agentMove_keepsInv (hs : s.Inv) (h : agentMove a s = .next t) : t.Inv := by
  cases ha : s.agenda a with
  | nil => rw [agentMove_idle ha] at h; cases h; exact hs
  | cons act later =>
    rw [agentMove_cons ha] at h
    exact runActivity_keepsInv (hs.congr (by simp)) h

/-! Reset. -/

theorem three_le_capacities (cfg : Config) : 3 ≤ cfg.capTx ∧ 3 ≤ cfg.capRx := by
  have h := cfg.admissible
  simp only [Params.admissible, Bool.and_eq_true, decide_eq_true_eq] at h
  tauto

theorem resetWith_inv (cfg : Config) (headTx headRx : Nat) : (State.resetWith cfg headTx headRx).Inv := by
  obtain ⟨htx, hrx⟩ := three_le_capacities cfg
  exact {
    txb := .fresh (Nat.mod_lt _ (by omega))
    rxb := .fresh (Nat.mod_lt _ (by omega))
    outLen := by simpa [State.resetWith] using hrx
    outWf := Memory.wf_nil
    outBelow := nofun
    stqSizes := nofun
    rdqDepth := fun _ _ => Nat.zero_le _
    waqDepth := fun _ _ => Nat.zero_le _
    stqDepth := fun _ _ => Nat.zero_le _ }

theorem resetEvent_inv (s : State) : (resetEvent s).Inv := (resetWith_inv s.cfg _ _).congr rfl

theorem step_keepsInv (hs : s.Inv) (h : step s = .next t) : t.Inv := by
  cases hturns : s.turns with
  | nil => rw [step_idle hturns] at h; cases h; exact hs
  | cons turn turns =>
    cases turn with
    | reset => rw [step_reset hturns] at h; cases h; exact resetEvent_inv _
    | move a =>
      rw [step_move hturns] at h
      have hs' : State.Inv { s with turns := turns } := hs.congr rfl
      exact agentMove_keepsInv hs' h

end Sys2Proof.Machine

section

open Sys2Proof Sys2Proof.Machine

/-- Settles O7: operations as the diagonal of `exec_alike`, steps by the lines of the agents around them. -/
theorem everyStepKeepsInvariant : Obligations.EveryStepKeepsInvariant :=
  ⟨fun _ _ _ => exec_keepsInv, fun _ _ => step_keepsInv⟩

/-- Settles O6, from the bounds that an admissible configuration puts on the capacities. -/
theorem resetSatisfiesInvariant : Obligations.ResetSatisfiesInvariant := resetWith_inv

/-- Settles O5: the heads are inside the buffers by the invariant, the rest is the definition of reset. -/
theorem resetLeavesTheBlockEmpty : Obligations.ResetLeavesTheBlockEmpty := by
  refine ⟨rfl, fun cfg headTx headRx => ?_⟩
  have h := resetWith_inv cfg headTx headRx
  exact ⟨rfl, rfl, rfl, h.txb.head_lt, Nat.mod_eq_of_lt, h.rxb.head_lt, Nat.mod_eq_of_lt, rfl, rfl, rfl, rfl, rfl, rfl⟩

/-- Settles O9, by what a turn and an agent's move run. -/
theorem stepRunsTheDecodedOperation : Obligations.StepRunsTheDecodedOperation := by
  refine ⟨fun s a turns bs later i hturns hagenda hdec => ?_, fun s => step_idle⟩
  have hagenda' := (s.agenda_turns turns a).trans hagenda
  simp only [step_move hturns, agentMove_cons hagenda', runActivity, hdec, perform]
  split
  · rw [State.setAgenda_agenda_same, State.setAgenda_restore hagenda']
  · cases exec i (State.setAgenda { s with turns := turns } a later) <;> rfl

end
end

section
/-! SUPPORT. Who writes `OUT_VALID`, the queues and `DIAG` (10_state.md rules R34, R35, R41): `FRM.RECV`, the router and
`Q.POP`, each as its own lemma says, and no other operation. -/

namespace Sys2Proof.Machine

/-- What the receiver hands on: `OUT_VALID`, the queues and `DIAG`. -/
def State.mail (s : State) :
    Bool × List (BitVec 16 × BitVec 32) × List (BitVec 16) × List (Byte × List Byte) × List DiagRecord :=
  (s.outValid, s.rdq, s.waq, s.stq, s.diag)

/-- Every next state that `k` can be has the mail of `s`. -/
def KeepsMail (s : State) (k : Result) : Prop := ∀ t, k = .next t → t.mail = s.mail

variable {s t u : State} {b : Half} {k l : Result}

section

variable (s : State) (b : Half)

@[simp] theorem State.mail_setRing (r : Ring) : (s.setRing b r).mail = s.mail := by cases b <;> rfl
@[simp] theorem State.mail_setRes (v : Res) : (s.setRes b v).mail = s.mail := by cases b <;> rfl
@[simp] theorem State.mail_useFree : (s.useFree b).mail = s.mail := by cases b <;> rfl
@[simp] theorem State.mail_afterDraw : (s.afterDraw b).mail = s.mail := by simp [State.mail]
@[simp] theorem State.mail_answered (r : Reply) : (s.answered r).mail = s.mail := rfl

end

/-! Operations that leave the mail alone. -/

theorem KeepsMail.next (h : u.mail = s.mail) : KeepsMail s (.next u) := by
  rintro t ⟨⟩
  exact h

theorem KeepsMail.raise (h : u.mail = s.mail) (f : Status) : KeepsMail s (raise b f u) := .next (by simpa using h)

theorem KeepsMail.finish (h : u.mail = s.mail) (v : ResVal) : KeepsMail s (finish b v u) := .next (by simpa using h)

theorem KeepsMail.finishKeep (h : u.mail = s.mail) : KeepsMail s (finishKeep b u) := .next (by simpa using h)

theorem KeepsMail.finishRing (h : u.mail = s.mail) (r : Ring) (v : ResVal) : KeepsMail s (finishRing b r v u) :=
  .finish (by simpa using h) v

theorem KeepsMail.finishRingKeep (h : u.mail = s.mail) (r : Ring) : KeepsMail s (finishRingKeep b r u) :=
  .finishKeep (by simpa using h)

theorem KeepsMail.finishCodec (h : u.mail = s.mail) (c : Codec) : KeepsMail s (finishCodec b c u) := by
  cases c with
  | done n r => exact .finishRing h r _
  | failed f r => exact .raise (by simpa using h) f

theorem KeepsMail.whenOpen (h : KeepsMail s k) : KeepsMail s (whenOpen b s k) := fun t ht => by
  obtain ⟨-, -, hr⟩ | ⟨-, hk⟩ := whenOpen_next ht
  · exact KeepsMail.raise rfl _ t hr
  · exact h t hk

/-- An operation that fails without a change, or runs. -/
theorem KeepsMail.raiseOr {p : Prop} [Decidable p] (f : Status) (h : KeepsMail s k) :
    KeepsMail s (if p then Machine.raise b f s else k) := by
  split
  · exact .raise rfl f
  · exact h

theorem execRbExtend_keepsMail (b : Half) (s : State) : KeepsMail s (execRbExtend b s) := by
  cases b with
  | tx => exact .raise rfl _
  | rx =>
    refine .whenOpen ?_
    split
    · exact .next rfl
    · exact .raise rfl _
    · exact .finishRing rfl _ _

theorem execRbDrain_keepsMail (b : Half) (s : State) : KeepsMail s (execRbDrain b s) := by
  cases b with
  | rx => exact .raise rfl _
  | tx =>
    simp only [execRbDrain]
    split
    · exact .finish rfl _
    · split
      · exact .next rfl
      · exact .finishRing rfl _ _
      · exact .raise rfl _

/-- The operations of a half other than the router and `FRM.RECV`. -/
theorem execHalf_keepsMail (s : State) : ∀ {i : Instr} {b : Half}, i.half = some b → i.format = .op → i ≠ .rtRoute →
    (∀ hv hc dstCap, i ≠ .frmRecv hv hc dstCap) → KeepsMail s (exec i s)
  | .rbPushBack .., _, rfl, _, _, _ => .whenOpen (.finishRingKeep rfl _)
  | .rbPushFront .., _, rfl, _, _, _ => .whenOpen (.finishRingKeep rfl _)
  | .rbPopFront _, _, rfl, _, _, _ => .whenOpen (.raiseOr _ (.finishRing rfl _ _))
  | .rbPopBack _, _, rfl, _, _, _ => .whenOpen (.raiseOr _ (.finishRing rfl _ _))
  | .rbGet .., _, rfl, _, _, _ => .whenOpen (.raiseOr _ (.finish rfl _))
  | .rbSet .., _, rfl, _, _, _ => .whenOpen (.raiseOr _ (.finishRingKeep rfl _))
  | .rbLen _, _, rfl, _, _, _ => .whenOpen (.finish rfl _)
  | .rbCap _, _, rfl, _, _, _ => .whenOpen (.finish rfl _)
  | .rbIsFull _, _, rfl, _, _, _ => .whenOpen (.finish rfl _)
  | .rbClear b, _, rfl, _, _, _ => .whenOpen (.finishRingKeep (s.mail_afterDraw b) _)
  | .rbSlices _, _, rfl, _, _, _ => .whenOpen (.finish rfl _)
  | .rbExtend b, _, rfl, _, _, _ => execRbExtend_keepsMail b s
  | .rbDrain b, _, rfl, _, _, _ => execRbDrain_keepsMail b s
  | .cobsEnc _, _, rfl, _, _, _ => .whenOpen (.finishCodec rfl _)
  | .cobsDec _, _, rfl, _, _, _ => .whenOpen (.finishCodec rfl _)
  | .crcCalc .., _, rfl, _, _, _ => .whenOpen (.raiseOr _ (.finish rfl _))
  | .frmSend .., _, rfl, _, _, _ => .raiseOr _ (.finishCodec (s.mail_afterDraw .tx) _)
  | .frmRecv hv hc dstCap, _, rfl, _, _, h => absurd rfl (h hv hc dstCap)
  | .rtRoute, _, rfl, _, h, _ => absurd rfl h
  | .rtClose, _, rfl, _, _, _ => .finishKeep rfl

/-- Every operation but the router, `FRM.RECV` and `Q.POP`. -/
theorem exec_keepsMail {i : Instr} (hf : i.format = .op) (hroute : i ≠ .rtRoute)
    (hrecv : ∀ hv hc dstCap, i ≠ .frmRecv hv hc dstCap) (hpop : ∀ q, i ≠ .qPop q) : KeepsMail s (exec i s) := by
  cases hi : i.half with
  | none =>
    obtain ⟨r, hr⟩ := exec_pure s hi hpop
    rw [hr]
    exact .next (s.mail_answered r)
  | some b => exact execHalf_keepsMail s hi hf hroute hrecv

/-! `FRM.RECV`. -/

theorem cobsDecode_failed_ne_ok {cap : Nat} {r e : Ring} {f : Status} (h : cobsDecode cap r = .failed f e) :
    f ≠ .ok := by
  unfold cobsDecode at h
  split at h
  · cases h; decide
  · split at h <;> cases h <;> decide

/-- A failure of the receive half leaves the mail, and its status is not `OK`. -/
theorem raise_mail {f : Status} (h : raise .rx f u = .next t) (hf : f ≠ .ok) (hu : u.mail = s.mail) :
    t.resRx.status ≠ .ok ∧ t.mail = s.mail := by
  obtain ⟨⟨hstatus, -⟩, -⟩ := raise_next h
  exact ⟨hstatus ▸ hf, KeepsMail.raise hu f t h⟩

theorem deliver_next {hv hc : Bool} {plen : Nat} {r : Ring} (h : deliver hv hc plen r s = .next t) :
    (t.resRx.status ≠ .ok ∧ t.mail = s.mail)
      ∨ (t.resRx.status = .ok ∧ t.mail = (true, s.rdq, s.waq, s.stq, s.diag)) := by
  obtain ⟨-, h⟩ | ⟨-, h⟩ := ite_eq_iff.1 h
  · exact .inl (raise_mail h (by decide) rfl)
  · cases h
    exact .inr ⟨rfl, rfl⟩

/-- After its `OUT_VALID <- 0`, `FRM.RECV` fails and leaves the mail, or ends `OK` and sets `OUT_VALID`. -/
theorem receive_next {hv hc : Bool} {dstCap : Nat} (h : receive hv hc dstCap s = .next t) :
    (t.resRx.status ≠ .ok ∧ t.mail = s.mail)
      ∨ (t.resRx.status = .ok ∧ t.mail = (true, s.rdq, s.waq, s.stq, s.diag)) := by
  obtain ⟨-, h⟩ | ⟨-, h⟩ := ite_eq_iff.1 h
  · exact .inl (raise_mail h (by decide) rfl)
  obtain ⟨-, h⟩ | ⟨-, h⟩ := ite_eq_iff.1 h
  · exact .inl (raise_mail h (by decide) rfl)
  split at h
  next hdec => exact .inl (raise_mail h (cobsDecode_failed_ne_ok hdec) rfl)
  next =>
    obtain ⟨-, h⟩ | ⟨-, h⟩ := ite_eq_iff.1 h
    · exact .inl (raise_mail h (by decide) rfl)
    · exact deliver_next h

/-- Everything `FRM.RECV` can do to the mail. -/
theorem execFrmRecv_next {hv hc : Bool} {dstCap : Nat} (h : execFrmRecv hv hc dstCap s = .next t) :
    (s.rxClosed = true ∧ t.mail = s.mail)
      ∨ (t.resRx.status ≠ .ok ∧ t.mail = (false, s.rdq, s.waq, s.stq, s.diag))
      ∨ (t.resRx.status = .ok ∧ t.mail = (true, s.rdq, s.waq, s.stq, s.diag)) := by
  obtain ⟨-, hc, hr⟩ | ⟨-, h⟩ := whenOpen_next h
  · exact .inl ⟨hc, KeepsMail.raise rfl _ t hr⟩
  · exact .inr (receive_next h)

/-! The router. -/

/-- An entry or a record more, at the end of one of the queues or of `DIAG`; `OUT_VALID` is 0. -/
def Routed (s t : State) : Prop :=
  (∃ e, t.mail = (false, s.rdq ++ [e], s.waq, s.stq, s.diag))
    ∨ (∃ e, t.mail = (false, s.rdq, s.waq ++ [e], s.stq, s.diag))
    ∨ (∃ e, t.mail = (false, s.rdq, s.waq, s.stq ++ [e], s.diag))
    ∨ ∃ r, t.mail = (false, s.rdq, s.waq, s.stq, s.diag ++ [r])

theorem dispatchFrame_next {cls : CmdClass} {cmd : Byte} (h : dispatchFrame cls cmd s = .next t) : Routed s t := by
  cases cls with
  | invalid0 => cases h; exact .inr (.inr (.inr ⟨_, rfl⟩))
  | reserved => cases h; exact .inr (.inr (.inr ⟨_, rfl⟩))
  | registerRead =>
    simp only [dispatchFrame] at h
    split at h <;> cases h
    · exact .inr (.inr (.inr ⟨_, rfl⟩))
    · exact .inl ⟨_, rfl⟩
  | registerWrite =>
    simp only [dispatchFrame] at h
    split at h <;> cases h
    · exact .inr (.inr (.inr ⟨_, rfl⟩))
    · exact .inr (.inl ⟨_, rfl⟩)
  | stream => cases h; exact .inr (.inr (.inl ⟨_, rfl⟩))

/-- Everything the router can do to the mail: nothing, when closed, without a frame or waiting; or it consumes the
frame. -/
theorem route_next {cls : CmdClass} {cmd : Byte} (h : route cls cmd s = .next t) :
    ((s.rxClosed = true ∨ s.outValid = false ∨ routeWaits cls s = true) ∧ t.mail = s.mail) ∨ Routed s t := by
  obtain ⟨-, hc, hr⟩ | ⟨hopen, h⟩ := whenOpen_next h
  · exact .inl ⟨.inl hc, KeepsMail.raise rfl _ t hr⟩
  · split at h
    · exact .inl ⟨.inr (.inl ‹_›), KeepsMail.raise rfl _ t h⟩
    · split at h
      · cases h
        exact .inl ⟨.inr (.inr (by simp_all [routeWaits, State.accepts_rx])), rfl⟩
      · exact .inr (dispatchFrame_next h)

/-- The rows of format CMD are the router's. -/
theorem exec_eq_route {i : Instr} (h : i = .rtRoute ∨ i.format = .cmd) (s : State) :
    ∃ cls cmd, exec i s = route cls cmd s := by
  rcases h with rfl | h
  · exact ⟨_, _, rfl⟩
  · cases i with
    | cmdInvalid0 | cmdRegisterRead | cmdRegisterWrite | cmdReserved03 | cmdReserved04_07 | cmdReserved08_0F
    | cmdReserved10_1F | cmdReserved20_3F | cmdReserved40_7F | cmdStream => exact ⟨_, _, rfl⟩
    | _ => cases h

/-! `Q.POP`. -/

theorem queueOf_cases (q : BitVec 2) :
    (q = 0 ∧ queueOf q = some .rdq) ∨ (q = 1 ∧ queueOf q = some .waq) ∨ (q = 2 ∧ queueOf q = some .stq)
      ∨ queueOf q = none := by
  revert q; decide

/-- Everything `Q.POP` can do to the mail: nothing, or the queue named loses its head. -/
theorem execQPop_mail {q : BitVec 2} (h : execQPop q s = .next t) :
    t.mail = s.mail
      ∨ (q = 0 ∧ ∃ e, s.mail = (t.outValid, e :: t.rdq, t.waq, t.stq, t.diag))
      ∨ (q = 1 ∧ ∃ e, s.mail = (t.outValid, t.rdq, e :: t.waq, t.stq, t.diag))
      ∨ (q = 2 ∧ ∃ e, s.mail = (t.outValid, t.rdq, t.waq, e :: t.stq, t.diag)) := by
  obtain ⟨hq, hk⟩ | ⟨hq, hk⟩ | ⟨hq, hk⟩ | hk := queueOf_cases q
  all_goals simp only [execQPop, hk, answerWith_eq] at h
  · split at h <;> cases h
    · exact .inl rfl
    · exact .inr (.inl ⟨hq, _, by simp only [State.mail, *]; rfl⟩)
  · split at h <;> cases h
    · exact .inl rfl
    · exact .inr (.inr (.inl ⟨hq, _, by simp only [State.mail, *]; rfl⟩))
  · split at h <;> cases h
    · exact .inl rfl
    · exact .inr (.inr (.inr ⟨hq, _, by simp only [State.mail, *]; rfl⟩))
  · cases h; exact .inl rfl

end Sys2Proof.Machine

section

open Sys2Proof Sys2Proof.Machine

/-- Settles O14, by what the router, `Q.POP` and `FRM.RECV` can do to the mail and that nothing else does. -/
theorem queuesAreFifo : Obligations.QueuesAreFifo := by
  intro i s t h routes
  by_cases hroutes : routes
  · obtain ⟨cls, cmd, hr⟩ := exec_eq_route hroutes s
    rw [hr] at h
    obtain ⟨-, hm⟩ | ⟨e, hm⟩ | ⟨e, hm⟩ | ⟨e, hm⟩ | ⟨r, hm⟩ := route_next h
    all_goals
      simp only [State.mail, Prod.mk.injEq] at hm
      simp [hm, hroutes]
  obtain ⟨hroute, hcmd⟩ := not_or.1 hroutes
  have hf : i.format = .op := by cases hi : i.format <;> simp_all
  by_cases hpop : ∃ q, i = .qPop q
  · obtain ⟨q, rfl⟩ := hpop
    obtain hm | ⟨rfl, e, hm⟩ | ⟨rfl, e, hm⟩ | ⟨rfl, e, hm⟩ := execQPop_mail h
    all_goals
      simp only [State.mail, Prod.mk.injEq] at hm
      simp [hm]
  by_cases hrecv : ∃ hv hc dstCap, i = .frmRecv hv hc dstCap
  · obtain ⟨hv, hc, dstCap, rfl⟩ := hrecv
    obtain ⟨-, hm⟩ | ⟨-, hm⟩ | ⟨-, hm⟩ := execFrmRecv_next h
    all_goals
      simp only [State.mail, Prod.mk.injEq] at hm
      simp [hm]
  have hm := exec_keepsMail hf hroute (by simpa using hrecv) (by simpa using hpop) t h
  simp only [State.mail, Prod.mk.injEq] at hm
  simp [hm]

/-- Settles O15, by the same lemmas as O14. -/
theorem outValidMarksAReceivedFrame : Obligations.OutValidMarksAReceivedFrame := by
  refine ⟨fun hv hc dstCap s t hopen h => ?_, fun s t hopen hwaits h => ?_, fun i s t h hf hroute hrecv => ?_⟩
  · obtain ⟨hc, -⟩ | ⟨hres, hm⟩ | ⟨hres, hm⟩ := execFrmRecv_next h
    · simp [hopen] at hc
    all_goals
      have hvalid := congrArg Prod.fst hm
      simp only [State.mail] at hvalid
      simp [hvalid, hres]
  · obtain ⟨hidle, hm⟩ | ⟨e, hm⟩ | ⟨e, hm⟩ | ⟨e, hm⟩ | ⟨r, hm⟩ := route_next h
    · have hwaits : routeWaits (classify s.outCommand) s = false := hwaits
      have hvalid : s.outValid = false := by simpa [hopen, hwaits] using hidle
      exact (congrArg Prod.fst hm).trans hvalid
    all_goals exact congrArg Prod.fst hm
  · by_cases hpop : ∃ q, i = .qPop q
    · obtain ⟨q, rfl⟩ := hpop
      obtain hm | ⟨-, e, hm⟩ | ⟨-, e, hm⟩ | ⟨-, e, hm⟩ := execQPop_mail h
      · exact congrArg Prod.fst hm
      all_goals exact (congrArg Prod.fst hm).symm
    · exact congrArg Prod.fst (exec_keepsMail hf hroute hrecv (by simpa using hpop) t h)

end
end

section
/-! SUPPORT. The halves do not see each other (00_scope.md rule R10; 20_memory.md rule R65): an operation of one half,
run with the other half exchanged, does the same and leaves the exchanged half as it found it. -/

namespace Sys2Proof.Machine

/-- `s`, with all that operations of the half other than `b` write taken from `o`. -/
def State.withOther (s : State) (b : Half) (o : State) : State :=
  match b with
  | .tx => { s with
      rxb := o.rxb, resRx := o.resRx, outVersion := o.outVersion, outCommand := o.outCommand, outLen := o.outLen,
      outData := o.outData, outValid := o.outValid, rdq := o.rdq, waq := o.waq, stq := o.stq, rxClosed := o.rxClosed,
      diag := o.diag, rxReads := o.rxReads, drawsRx := o.drawsRx, freeRx := o.freeRx }
  | .rx => { s with
      txb := o.txb, resTx := o.resTx, txWrites := o.txWrites, txStream := o.txStream, drawsTx := o.drawsTx,
      freeTx := o.freeTx }

/-- The same exchange in what an operation answers. -/
def withOtherAfter (b : Half) (o : State) : Result → Result
  | .next t    => .next (t.withOther b o)
  | .fault r   => .fault r
  | .refused r => .refused r

variable {s t : State}

/-! An operation of a half writes no more than the half's own part (`WritesOnly`), so what it wrote can be carried
over. -/

theorem WritesOnly.withOther_rx (h : WritesOnly .tx s t) : s.withOther .rx t = t := h.symm

/-- What a transmit-half operation wrote is undone by putting the transmit half back. -/
theorem WritesOnly.withOther_restore (h : WritesOnly .tx s t) : t.withOther .rx s = s := by
  rw [← h.withOther_rx]
  rfl

theorem WritesOnly.withOther_tx (h : WritesOnly .rx s t) : s.withOther .tx t = t := h.symm

section

variable (b : Half) (o s : State)

/-! What half `b` reads. -/

@[simp] theorem State.withOther_cfg : (s.withOther b o).cfg = s.cfg := by cases b <;> rfl
@[simp] theorem State.withOther_ring : (s.withOther b o).ring b = s.ring b := by cases b <;> rfl
@[simp] theorem State.withOther_cap : (s.withOther b o).cap b = s.cap b := by cases b <;> rfl
@[simp] theorem State.withOther_res : (s.withOther b o).res b = s.res b := by cases b <;> rfl
@[simp] theorem State.withOther_freeCount : (s.withOther b o).freeCount b = s.freeCount b := by cases b <;> rfl
@[simp] theorem State.withOther_drawnHead : (s.withOther b o).drawnHead b = s.drawnHead b := by cases b <;> rfl

/-! What half `b` writes. -/

@[simp] theorem State.withOther_setRing (r : Ring) :
    (s.withOther b o).setRing b r = (s.setRing b r).withOther b o := by cases b <;> rfl
@[simp] theorem State.withOther_setRes (x : Res) :
    (s.withOther b o).setRes b x = (s.setRes b x).withOther b o := by cases b <;> rfl
@[simp] theorem State.withOther_useFree :
    (s.withOther b o).useFree b = (s.useFree b).withOther b o := by cases b <;> rfl
@[simp] theorem State.withOther_afterDraw :
    (s.withOther b o).afterDraw b = (s.afterDraw b).withOther b o := by
  cases b <;> simp only [State.afterDraw, State.withOther] <;> split <;> rfl

/-! The endings of an operation of half `b`. -/

@[simp] theorem next_withOther : (.next (s.withOther b o) : Result) = withOtherAfter b o (.next s) := rfl

@[simp] theorem raise_withOther (f : Status) : raise b f (s.withOther b o) = withOtherAfter b o (raise b f s) := by
  simp [raise]

@[simp] theorem finish_withOther (v : ResVal) : finish b v (s.withOther b o) = withOtherAfter b o (finish b v s) := by
  simp [finish]

@[simp] theorem finishKeep_withOther : finishKeep b (s.withOther b o) = withOtherAfter b o (finishKeep b s) := by
  simp [finishKeep]

@[simp] theorem finishRing_withOther (r : Ring) (v : ResVal) :
    finishRing b r v (s.withOther b o) = withOtherAfter b o (finishRing b r v s) := by
  simp [finishRing]

@[simp] theorem finishRingKeep_withOther (r : Ring) :
    finishRingKeep b r (s.withOther b o) = withOtherAfter b o (finishRingKeep b r s) := by
  simp [finishRingKeep]

@[simp] theorem finishCodec_withOther (c : Codec) :
    finishCodec b c (s.withOther b o) = withOtherAfter b o (finishCodec b c s) := by
  cases c <;> simp [finishCodec]

@[simp] theorem ite_withOtherAfter (p : Prop) [Decidable p] (k l : Result) :
    (if p then withOtherAfter b o k else withOtherAfter b o l) = withOtherAfter b o (if p then k else l) :=
  (apply_ite (withOtherAfter b o) p k l).symm

@[simp] theorem whenOpen_withOther (k : Result) :
    whenOpen b (s.withOther b o) (withOtherAfter b o k) = withOtherAfter b o (whenOpen b s k) := by
  cases b with
  | tx => simp only [whenOpen_tx]
  | rx =>
    rw [whenOpen, raise_withOther, ite_withOtherAfter]
    rfl

/-! A test, or the guard, of an operation whose two courses carry the exchange along. -/

variable {b o s} {k k' l l' : Result}

theorem ite_eq_withOtherAfter {p : Prop} [Decidable p] (hk : k' = withOtherAfter b o k)
    (hl : l' = withOtherAfter b o l) : (if p then k' else l') = withOtherAfter b o (if p then k else l) := by
  rw [hk, hl, ite_withOtherAfter]

theorem whenOpen_eq_withOtherAfter (hk : k' = withOtherAfter b o k) :
    whenOpen b (s.withOther b o) k' = withOtherAfter b o (whenOpen b s k) := by
  rw [hk, whenOpen_withOther]

end

/-! The operations with a course of their own. -/

variable (s o : State)

theorem execFrmSend_withOther (hasVersion hasCrc : Bool) (version command : Byte) (data : List Byte) :
    execFrmSend hasVersion hasCrc version command data (s.withOther .tx o)
      = withOtherAfter .tx o (execFrmSend hasVersion hasCrc version command data s) := by
  have hbuffer : (s.withOther .tx o).txb = s.txb := rfl
  simp [execFrmSend, hbuffer]

theorem deliver_withOther (hasVersion hasCrc : Bool) (plen : Nat) (r : Ring) :
    deliver hasVersion hasCrc plen r (s.withOther .rx o)
      = withOtherAfter .rx o (deliver hasVersion hasCrc plen r s) :=
  ite_eq_withOtherAfter rfl rfl

theorem receive_withOther (hasVersion hasCrc : Bool) (dstCap : Nat) :
    receive hasVersion hasCrc dstCap (s.withOther .rx o)
      = withOtherAfter .rx o (receive hasVersion hasCrc dstCap s) := by
  refine ite_eq_withOtherAfter rfl (ite_eq_withOtherAfter rfl ?_)
  have hdecode : cobsDecode (s.withOther .rx o).cfg.capRx (s.withOther .rx o).rxb = cobsDecode s.cfg.capRx s.rxb := rfl
  rw [hdecode]
  cases cobsDecode s.cfg.capRx s.rxb with
  | failed f r => rfl
  | done d r => exact ite_eq_withOtherAfter rfl (deliver_withOther ..)

theorem dispatchFrame_withOther (cls : CmdClass) (cmd : Byte) :
    dispatchFrame cls cmd (s.withOther .rx o) = withOtherAfter .rx o (dispatchFrame cls cmd s) := by
  have hpayload : (s.withOther .rx o).payload = s.payload := rfl
  cases cls with
  | invalid0 => rfl
  | reserved => rfl
  | registerRead =>
    simp only [dispatchFrame, hpayload]
    cases unpackRegVal s.payload <;> rfl
  | registerWrite =>
    simp only [dispatchFrame, hpayload, State.withOther_cfg]
    cases unpackAck s.cfg.ackLengths s.payload <;> rfl
  | stream => rfl

theorem route_withOther (cls : CmdClass) (cmd : Byte) :
    route cls cmd (s.withOther .rx o) = withOtherAfter .rx o (route cls cmd s) := by
  have hvalid : (s.withOther .rx o).outValid = s.outValid := rfl
  have hfull : targetFull cls (s.withOther .rx o) = targetFull cls s := by cases cls <;> rfl
  simp [route, hvalid, hfull, dispatchFrame_withOther]

theorem execRbExtend_withOther (b : Half) :
    execRbExtend b (s.withOther b o) = withOtherAfter b o (execRbExtend b s) := by
  cases b with
  | tx => exact raise_withOther ..
  | rx =>
    have hreads : (s.withOther .rx o).rxReads = s.rxReads := rfl
    refine whenOpen_eq_withOtherAfter ?_
    rw [hreads]
    rcases s.rxReads with _ | ⟨_ | _, rs⟩ <;> rfl

theorem execRbDrain_withOther (b : Half) :
    execRbDrain b (s.withOther b o) = withOtherAfter b o (execRbDrain b s) := by
  cases b with
  | rx => exact raise_withOther ..
  | tx =>
    have hwrites : (s.withOther .tx o).txWrites = s.txWrites := rfl
    refine ite_eq_withOtherAfter rfl ?_
    rw [hwrites]
    rcases s.txWrites with _ | ⟨_ | _, ws⟩ <;> rfl

/-! Every operation. -/

/-- An operation of a half neither reads nor writes the other half. -/
theorem exec_withOther : ∀ {i : Instr} {b : Half}, i.half = some b →
    exec i (s.withOther b o) = withOtherAfter b o (exec i s)
  | .rbPushBack .., _, rfl => by simp [exec, execRbPushBack]
  | .rbPushFront .., _, rfl => by simp [exec, execRbPushFront]
  | .rbPopFront _, _, rfl => by simp [exec, execRbPopFront]
  | .rbPopBack _, _, rfl => by simp [exec, execRbPopBack]
  | .rbGet .., _, rfl => by simp [exec, execRbGet]
  | .rbSet .., _, rfl => by simp [exec, execRbSet]
  | .rbLen _, _, rfl => by simp [exec, execRbLen]
  | .rbCap _, _, rfl => by simp [exec, execRbCap]
  | .rbIsFull _, _, rfl => by simp [exec, execRbIsFull]
  | .rbClear _, _, rfl => by simp [exec, execRbClear]
  | .rbSlices _, _, rfl => by simp [exec, execRbSlices]
  | .rbExtend b, _, rfl => execRbExtend_withOther s o b
  | .rbDrain b, _, rfl => execRbDrain_withOther s o b
  | .cobsEnc _, _, rfl => by simp [exec, execCobsEnc]
  | .cobsDec _, _, rfl => by simp [exec, execCobsDec]
  | .crcCalc .., _, rfl => by simp [exec, execCrcCalc]
  | .frmSend .., _, rfl => execFrmSend_withOther s o ..
  | .frmRecv hv hc dstCap, _, rfl =>
    whenOpen_eq_withOtherAfter (receive_withOther { s with outValid := false } o hv hc dstCap)
  | .rtClose, _, rfl => rfl
  | .rtRoute, _, rfl => route_withOther s o ..
  | .cmdInvalid0, _, rfl => route_withOther s o ..
  | .cmdRegisterRead, _, rfl => route_withOther s o ..
  | .cmdRegisterWrite, _, rfl => route_withOther s o ..
  | .cmdReserved03, _, rfl => route_withOther s o ..
  | .cmdReserved04_07 _, _, rfl => route_withOther s o ..
  | .cmdReserved08_0F _, _, rfl => route_withOther s o ..
  | .cmdReserved10_1F _, _, rfl => route_withOther s o ..
  | .cmdReserved20_3F _, _, rfl => route_withOther s o ..
  | .cmdReserved40_7F _, _, rfl => route_withOther s o ..
  | .cmdStream _, _, rfl => route_withOther s o ..

end Sys2Proof.Machine

section

open Sys2Proof Sys2Proof.Machine

/-- Settles O12: `j` runs from `s` as it did from `t` with the transmit half of `s` put back, and `i` from there as
it did from `s` with the receive half that `j` leaves put in (`exec_withOther`); the halves together are all that either writes
(`exec_staysIn`). -/
theorem halvesCommute : Obligations.HalvesCommute := by
  intro i j s t u hi hj hst htu
  have hs : t.withOther .rx s = s := (exec_staysIn s hi t hst).withOther_restore
  have hu : t.withOther .tx (u.withOther .rx s) = u := (exec_staysIn t hj u htu).withOther_tx
  have hjs : exec j s = .next (u.withOther .rx s) := by
    rw [← hs, exec_withOther t s hj, htu]
    rfl
  refine ⟨u.withOther .rx s, hjs, ?_⟩
  rw [← (exec_staysIn s hj _ hjs).withOther_tx, exec_withOther s _ hi, hst]
  exact congrArg _ hu

end
end

section
/-! SUPPORT. The bytes of a request (30_encoding.md rules R100, R101; log entry 2): every operand reader accepts exactly
the bytes that the encoder writes for a value in range, so that the decoder of format OP and the encoder agree. -/

namespace Sys2Proof

/-! Operands. -/

/-- `take` accepts exactly the encodings `enc x` of the values `x` in range, whatever follows them. -/
def Reads {α : Type} (take : List Byte → Decoded α) (inRange : α → Prop) (enc : α → List Byte) : Prop :=
  ∀ xs x rest, take xs = .ok (x, rest) ↔ inRange x ∧ xs = enc x ++ rest

/-- `encodeNat` is the inverse of `toNat` on the numbers that a byte holds. -/
theorem toNat_eq_iff_encodeNat {x : Byte} {n : Nat} : x.toNat = n ↔ n ≤ 255 ∧ x = encodeNat n := by
  simp only [encodeNat, ← BitVec.toNat_inj, BitVec.toNat_ofNat]
  omega

theorem append_eq_iff_extractLsb' {m n : Nat} (x : BitVec m) (y : BitVec n) (v : BitVec (m + n)) :
    x ++ y = v ↔ x = v.extractLsb' n m ∧ y = v.extractLsb' 0 n := by
  refine ⟨?_, ?_⟩
  · rintro rfl
    exact ⟨BitVec.extractLsb'_append_eq_left.symm, BitVec.extractLsb'_append_eq_right.symm⟩
  · rintro ⟨rfl, rfl⟩
    rw [BitVec.extractLsb'_append_extractLsb'_eq_extractLsb' (by omega), BitVec.extractLsb'_eq_self]

theorem extractLsb'_of_extractLsb' {w a k b l : Nat} (v : BitVec w) (h : b + l ≤ k) :
    (v.extractLsb' a k).extractLsb' b l = v.extractLsb' (a + b) l := by
  ext i hi
  have hk : b + i < k := by omega
  simp [hk, Nat.add_assoc]

theorem takeByte_reads : Reads takeByte (fun _ => True) (fun x => [x]) := by
  intro xs x rest
  cases xs <;> simp [takeByte]

theorem takeNat_reads : Reads takeNat (· ≤ 255) (fun n => [encodeNat n]) := by
  intro xs n rest
  cases xs <;> simp [takeNat, toNat_eq_iff_encodeNat, and_assoc]

theorem takeHalf_reads : Reads takeHalf (fun _ => True) (fun b => [encodeHalf b]) := by
  rintro (_ | ⟨x, xs⟩) b rest
  · simp [takeHalf]
  · simp only [takeHalf]
    split_ifs <;> cases b <;> simp_all [encodeHalf]

theorem takeBit_reads : Reads takeBit (fun _ => True) (fun x => [encodeBit x]) := by
  rintro (_ | ⟨x, xs⟩) b rest
  · simp [takeBit]
  · simp only [takeBit]
    split_ifs <;> cases b <;> simp_all [encodeBit]

theorem takeQueue_reads : Reads takeQueue (fun _ => True) (fun q => [encodeNat q.toNat]) := by
  rintro (_ | ⟨x, xs⟩) q rest
  · simp [takeQueue]
  · have h : x = encodeNat q.toNat ↔ x.toNat < 4 ∧ BitVec.ofNat 2 x.toNat = q := by
      simp only [encodeNat, ← BitVec.toNat_inj, BitVec.toNat_ofNat]
      omega
    by_cases hx : x.toNat < 4 <;> simp [takeQueue, h, hx]

theorem takeReg_reads : Reads takeReg (fun _ => True) encodeReg := by
  intro xs reg rest
  match xs with
  | [] | [_] => simp [takeReg, encodeReg]
  | x₁ :: x₀ :: xs =>
    have h := append_eq_iff_extractLsb' x₁ x₀ reg
    simp [takeReg, encodeReg, h, and_assoc]

theorem takeV32_reads : Reads takeV32 (fun _ => True) encodeV32 := by
  intro xs v rest
  match xs with
  | [] | [_] | [_, _] | [_, _, _] => simp [takeV32, encodeV32]
  | x₃ :: x₂ :: x₁ :: x₀ :: xs =>
    have h := append_eq_iff_extractLsb' (x₃ ++ x₂ : BitVec 16) (x₁ ++ x₀ : BitVec 16) v
    have h₁ := append_eq_iff_extractLsb' x₃ x₂ (v.extractLsb' 16 16)
    have h₀ := append_eq_iff_extractLsb' x₁ x₀ (v.extractLsb' 0 16)
    simp [takeV32, encodeV32, h, h₁, h₀, extractLsb'_of_extractLsb', and_assoc]

theorem takeSeq_reads : Reads takeSeq (·.length ≤ 255) encodeSeq := by
  rintro (_ | ⟨k, xs⟩) p rest
  · simp [takeSeq, encodeSeq]
  · have hcut : (k.toNat ≤ xs.length ∧ xs.take k.toNat = p ∧ xs.drop k.toNat = rest)
        ↔ k.toNat = p.length ∧ xs = p ++ rest := by
      refine ⟨?_, ?_⟩
      · rintro ⟨hk, rfl, rfl⟩
        simp [hk]
      · rintro ⟨hk, rfl⟩
        simp [hk]
    rw [toNat_eq_iff_encodeNat] at hcut
    simp only [takeSeq, encodeSeq]
    split_ifs with hk <;> simp_all [and_assoc]

/-! The decoder of format OP reads what the encoder writes. -/

section

variable {α : Type} {take : List Byte → Decoded α} {inRange : α → Prop} {enc : α → List Byte} {pre : List Byte}
  {next : α → List Byte → Decoded Instr}

/-- The operation that `read` gives after the bytes `pre` is well-formed, and its encoding is `pre` and what `read` took. -/
def GivesEncoded (pre : List Byte) (read : List Byte → Decoded Instr) : Prop :=
  ∀ xs i rest, read xs = .ok (i, rest) → i.format = .op ∧ i.wellFormed = true ∧ pre ++ xs = encode i ++ rest

theorem GivesEncoded.operand (hr : Reads take inRange enc)
    (h : ∀ x, inRange x → GivesEncoded (pre ++ enc x) (next x)) : GivesEncoded pre (operand take next) := by
  intro xs i rest hi
  unfold Sys2Proof.operand at hi
  split at hi
  · rename_i x mid htake
    obtain ⟨hx, rfl⟩ := (hr ..).1 htake
    simpa using h x hx _ _ _ hi
  · cases hi

theorem GivesEncoded.complete {i : Instr} (hf : i.format = .op) (hw : i.wellFormed = true) (he : encode i = pre) :
    GivesEncoded pre (complete i) := by
  intro xs j rest hj
  cases hj
  exact ⟨hf, hw, by rw [he]⟩

theorem GivesEncoded.selector {sel : Byte} {n : Nat} {read : List Byte → Decoded Instr} (hn : sel.toNat = n)
    (h : GivesEncoded [BitVec.ofNat 8 n] read) : GivesEncoded [sel] read := by
  rwa [← hn, BitVec.ofNat_toNat, BitVec.setWidth_eq] at h

/-- The table of rule R100, selector by selector: its operands are read in the order and form in which they are encoded. -/
theorem decodeOperands_givesEncoded (sel : Byte) : GivesEncoded [sel] (decodeOperands sel) := by
  unfold decodeOperands
  split
  iterate 2
    · exact .selector ‹_› (.operand takeHalf_reads fun _ _ => .operand takeByte_reads fun _ _ => .complete rfl rfl rfl)
  iterate 2
    · exact .selector ‹_› (.operand takeHalf_reads fun _ _ => .complete rfl rfl rfl)
  · exact .selector ‹_› <|
      .operand takeHalf_reads fun _ _ => .operand takeNat_reads fun _ hn => .complete rfl (decide_eq_true hn) rfl
  · exact .selector ‹_› <|
      .operand takeHalf_reads fun _ _ => .operand takeNat_reads fun _ hn => .operand takeByte_reads fun _ _ =>
      .complete rfl (decide_eq_true hn) rfl
  iterate 9
    · exact .selector ‹_› (.operand takeHalf_reads fun _ _ => .complete rfl rfl rfl)
  · exact .selector ‹_› <|
      .operand takeHalf_reads fun _ _ => .operand takeNat_reads fun _ hn => .complete rfl (decide_eq_true hn) rfl
  · exact .selector ‹_› <|
      .operand takeBit_reads fun _ _ => .operand takeBit_reads fun _ _ => .operand takeByte_reads fun _ _ =>
      .operand takeByte_reads fun _ _ => .operand takeSeq_reads fun _ hn => .complete rfl (decide_eq_true hn) rfl
  · exact .selector ‹_› <|
      .operand takeBit_reads fun _ _ => .operand takeBit_reads fun _ _ => .operand takeNat_reads fun _ hn =>
      .complete rfl (decide_eq_true hn) rfl
  · exact .selector ‹_› <|
      .operand takeReg_reads fun _ _ => .operand takeNat_reads fun _ hn => .complete rfl (decide_eq_true hn) rfl
  · exact .selector ‹_› <|
      .operand takeReg_reads fun _ _ => .operand takeByte_reads fun _ _ => .operand takeNat_reads fun _ hn =>
      .complete rfl (decide_eq_true hn) rfl
  · exact .selector ‹_› <|
      .operand takeReg_reads fun _ _ => .operand takeV32_reads fun _ _ => .operand takeNat_reads fun _ hn =>
      .complete rfl (decide_eq_true hn) rfl
  iterate 3
    · exact .selector ‹_› (.operand takeSeq_reads fun _ hn => .complete rfl (decide_eq_true hn) rfl)
  · exact .selector ‹_› (.operand takeByte_reads fun _ _ => .complete rfl rfl rfl)
  iterate 2
    · exact .selector ‹_› (.complete rfl rfl rfl)
  · exact .selector ‹_› (.operand takeQueue_reads fun _ _ => .complete rfl rfl rfl)
  · exact .selector ‹_› (.operand takeByte_reads fun _ _ => .complete rfl rfl rfl)
  · exact .selector ‹_› <|
      .operand takeByte_reads fun _ _ => .operand takeSeq_reads fun _ hn => .complete rfl (decide_eq_true hn) rfl
  · exact fun _ _ _ h => nomatch h

/-! The other way: an operand is read back from its encoding. -/

theorem Reads.operand_eq (hr : Reads take inRange enc) {x : α} (hx : inRange x) (rest : List Byte) :
    operand take next (enc x ++ rest) = next x rest := by
  rw [operand, (hr _ x rest).2 ⟨hx, rfl⟩]

end

section

variable (rest : List Byte)

@[simp] theorem operand_takeByte (next : Byte → List Byte → Decoded Instr) (x : Byte) :
    operand takeByte next (x :: rest) = next x rest := rfl

@[simp] theorem operand_takeNat (next : Nat → List Byte → Decoded Instr) {n : Nat} (hn : n ≤ 255) :
    operand takeNat next (encodeNat n :: rest) = next n rest := takeNat_reads.operand_eq hn rest

@[simp] theorem operand_takeHalf (next : Half → List Byte → Decoded Instr) (b : Half) :
    operand takeHalf next (encodeHalf b :: rest) = next b rest := takeHalf_reads.operand_eq trivial rest

@[simp] theorem operand_takeBit (next : Bool → List Byte → Decoded Instr) (x : Bool) :
    operand takeBit next (encodeBit x :: rest) = next x rest := takeBit_reads.operand_eq trivial rest

@[simp] theorem operand_takeQueue (next : BitVec 2 → List Byte → Decoded Instr) (q : BitVec 2) :
    operand takeQueue next (encodeNat q.toNat :: rest) = next q rest := takeQueue_reads.operand_eq trivial rest

@[simp] theorem operand_takeReg (next : BitVec 16 → List Byte → Decoded Instr) (reg : BitVec 16) :
    operand takeReg next (encodeReg reg ++ rest) = next reg rest := takeReg_reads.operand_eq trivial rest

@[simp] theorem operand_takeV32 (next : BitVec 32 → List Byte → Decoded Instr) (v : BitVec 32) :
    operand takeV32 next (encodeV32 v ++ rest) = next v rest := takeV32_reads.operand_eq trivial rest

@[simp] theorem operand_takeSeq (next : List Byte → List Byte → Decoded Instr) {p : List Byte} (hp : p.length ≤ 255) :
    operand takeSeq next (encodeSeq p ++ rest) = next p rest := takeSeq_reads.operand_eq hp rest

end

/-- Every operation is read back from its bytes, whatever follows them. -/
theorem decodeFront_encode {i : Instr} (hf : i.format = .op) (hw : i.wellFormed = true) (rest : List Byte) :
    decodeFront (encode i ++ rest) = .ok (i, rest) := by
  cases i with
  | rbGet | rbSet | crcCalc | frmSend | frmRecv | pkReadReq | pkWrite8 | pkWrite32 | unpkReadReq | unpkRegval | unpkAck
  | stUnpack =>
    have hn := of_decide_eq_true hw
    simp [encode, decodeFront, decodeOperands, onlySeq, complete, hn]
  | rbPushBack | rbPushFront | rbPopFront | rbPopBack | rbLen | rbCap | rbIsFull | rbClear | rbSlices | rbExtend | rbDrain
  | cobsEnc | cobsDec | hpClassify | rtRoute | rtClose | qPop | stFormat =>
    simp [encode, decodeFront, decodeOperands, onlyHalf, complete]
  | cmdInvalid0 | cmdRegisterRead | cmdRegisterWrite | cmdReserved03 | cmdReserved04_07 | cmdReserved08_0F
  | cmdReserved10_1F | cmdReserved20_3F | cmdReserved40_7F | cmdStream => cases hf

/-! Format CMD: one byte. -/

/-- The rows of rule R90 leave no bit of the command byte out. -/
theorem encode_decodeCommand (c : Byte) : (decodeCommand c).format = .cmd ∧ (decodeCommand c).wellFormed = true
    ∧ encode (decodeCommand c) = [c] := by
  decide +revert

open Machine in
/-- A command is one byte that decodes to it, and it is the router's action on a frame with that byte (log entry 3). -/
theorem command_byte {i : Instr} (hf : i.format = .cmd) :
    ∃ c, encode i = [c] ∧ decodeCommand c = i ∧ exec i = route (classify c) c := by
  cases i with
  | cmdInvalid0 | cmdRegisterRead | cmdRegisterWrite | cmdReserved03 => exact ⟨_, rfl, rfl, rfl⟩
  | cmdReserved04_07 low | cmdReserved08_0F low | cmdReserved10_1F low | cmdReserved20_3F low
  | cmdReserved40_7F low =>
    exact ⟨_, rfl, by decide +revert, congrArg (route · _) (show .reserved = classify _ by decide +revert)⟩
  | cmdStream descriptor =>
    exact ⟨_, rfl, by decide +revert, congrArg (route · _) (show .stream = classify _ by decide +revert)⟩
  | _ => cases hf

/-! The whole decoder. -/

theorem decode_encode {i : Instr} (hw : i.wellFormed = true) : decode i.format (encode i) = .ok i := by
  cases hf : i.format with
  | op =>
    have hfront := decodeFront_encode hf hw []
    rw [List.append_nil] at hfront
    simp only [decode, hfront]
  | cmd =>
    obtain ⟨c, hc, hi, -⟩ := command_byte hf
    simp only [hc, decode, hi]

theorem decodeFront_givesEncoded : GivesEncoded [] decodeFront := by
  rintro (_ | ⟨sel, xs⟩) i rest h
  · cases h
  · exact decodeOperands_givesEncoded sel xs i rest h

/-- All that the decoder accepts in a format. -/
theorem decode_eq_ok {f : Format} {bs : List Byte} {i : Instr} (h : decode f bs = .ok i) :
    i.format = f ∧ i.wellFormed = true ∧ encode i = bs := by
  cases f with
  | op =>
    simp only [decode] at h
    split at h
    · rename_i j hfront
      cases h
      obtain ⟨hf, hw, he⟩ := decodeFront_givesEncoded _ _ _ hfront
      exact ⟨hf, hw, by simpa using he.symm⟩
    · cases h
    · cases h
  | cmd =>
    match bs with
    | [c] =>
      cases h
      exact encode_decodeCommand c
    | [] | _ :: _ :: _ => cases h

end Sys2Proof

section

open Sys2Proof Sys2Proof.Machine

/-- Settles O1, by reading back each operand in turn (`decodeFront_encode`), and for a command byte by its row. -/
theorem encodedInstructionsDecodeToThemselves : Obligations.EncodedInstructionsDecodeToThemselves :=
  fun _ hw => ⟨decode_encode hw, fun hf rest => decodeFront_encode hf hw rest⟩

/-- Settles O2: each operand reader accepts nothing but an encoding (`Reads`), so no selector does (`GivesEncoded`). -/
theorem decodedBytesAreTheEncoding : Obligations.DecodedBytesAreTheEncoding := fun _ _ _ => decode_eq_ok

/-- Settles O3, by running the decoder on each word. -/
theorem wordsFromTheSpecDecode : Obligations.WordsFromTheSpecDecode := by
  unfold Obligations.WordsFromTheSpecDecode
  decide

/-- Settles O4: over the 256 bytes one row matches, counted; that row then fixes the class and the instruction. -/
theorem commandBytesFallUnderOneRow : Obligations.CommandBytesFallUnderOneRow := by
  unfold Obligations.CommandBytesFallUnderOneRow
  intro rows
  have hone : ∀ x : Byte, (rows.filter fun r => x &&& r.2.1 == r.1).length = 1 := by decide +revert
  have hrows : ∀ x, ∀ r ∈ rows, x &&& r.2.1 == r.1 → classify x = r.2.2.1 ∧ decodeCommand x = r.2.2.2 x := by
    decide +revert
  intro x
  obtain ⟨row, hrow⟩ := List.length_eq_one_iff.1 (hone x)
  obtain ⟨hmem, hx⟩ := List.mem_filter.1 (hrow ▸ List.mem_singleton_self row)
  exact ⟨row, hrow, hrows x row hmem hx⟩

end
end

section
/-! SUPPORT. The router (45_router.md rules R235, R240): what each class does with a frame in the latches whose entry has
room, and what the unpackers read from a payload (44_register_packers.md rules R216, R217). -/

namespace Sys2Proof.Machine

/-! Payloads. -/

theorem toNat_append_byte {n : Nat} (v : BitVec n) (x : Byte) : (v ++ x).toNat = v.toNat * 256 + x.toNat := by
  rw [BitVec.toNat_append, ← Nat.shiftLeft_add_eq_or_of_lt x.isLt, Nat.shiftLeft_eq]

theorem regOf_cons_cons (x₁ x₀ : Byte) (p : List Byte) : regOf (x₁ :: x₀ :: p) = x₁ ++ x₀ := by
  have h : bigEndian [x₁, x₀] = (x₁ ++ x₀).toNat := by simp [toNat_append_byte, bigEndian]
  simp [regOf, h]

theorem ofNat_bigEndian_four (v₃ v₂ v₁ v₀ : Byte) :
    BitVec.ofNat 32 (bigEndian [v₃, v₂, v₁, v₀]) = v₃ ++ v₂ ++ v₁ ++ v₀ := by
  have h : bigEndian [v₃, v₂, v₁, v₀] = (v₃ ++ v₂ ++ v₁ ++ v₀).toNat := by simp [toNat_append_byte, bigEndian]
  rw [h, BitVec.ofNat_toNat, BitVec.setWidth_eq]

theorem unpackRegVal_three (x₁ x₀ v : Byte) : unpackRegVal [x₁, x₀, v] = some (x₁ ++ x₀, v.setWidth 32) := by
  simp [unpackRegVal, regOf_cons_cons, bigEndian]

theorem unpackRegVal_six (x₁ x₀ v₃ v₂ v₁ v₀ : Byte) :
    unpackRegVal [x₁, x₀, v₃, v₂, v₁, v₀] = some (x₁ ++ x₀, v₃ ++ v₂ ++ v₁ ++ v₀) := by
  simp [unpackRegVal, regOf_cons_cons, ofNat_bigEndian_four]

theorem unpackRegVal_none {p : List Byte} (h₃ : p.length ≠ 3) (h₆ : p.length ≠ 6) : unpackRegVal p = none :=
  if_neg (not_or.2 ⟨h₃, h₆⟩)

theorem unpackAck_cons_cons {lengths : List Nat} {x₁ x₀ : Byte} {p : List Byte}
    (h : (x₁ :: x₀ :: p).length ∈ lengths) : unpackAck lengths (x₁ :: x₀ :: p) = some (x₁ ++ x₀) := by
  rw [unpackAck, if_pos h, regOf_cons_cons]

theorem unpackAck_none {lengths : List Nat} {p : List Byte} (h : p.length ∉ lengths) : unpackAck lengths p = none :=
  if_neg h

/-! Room in a queue. -/

theorem noRoom_eq_false {qDepth : Option Nat} {n : Nat} (h : ∀ d, qDepth = some d → n < d) :
    noRoom qDepth n = false := by
  cases qDepth with
  | none => rfl
  | some d => exact decide_eq_false (Nat.not_le.2 (h d rfl))

/-! The lines of the router. -/

section

variable {s : State} (hopen : s.rxClosed = false) (cls : CmdClass) (cmd : Byte)

include hopen

theorem route_noFrame (hvalid : s.outValid = false) : route cls cmd s = raise .rx .nothingToRoute s := by
  rw [route, whenOpen_accepts (State.accepts_rx.2 hopen), if_pos hvalid]

variable (hvalid : s.outValid = true)

include hvalid

theorem route_frame (hroom : targetFull cls s = false) : route cls cmd s = dispatchFrame cls cmd s := by
  simp [route, whenOpen_accepts (State.accepts_rx.2 hopen), hvalid, hroom]

theorem route_registerRead {entry : BitVec 16 × BitVec 32} (hentry : unpackRegVal s.payload = some entry)
    (hroom : ∀ d, s.cfg.qDepth = some d → s.rdq.length < d) :
    route .registerRead cmd s = finish .rx (.num 1) { s with outValid := false, rdq := s.rdq ++ [entry] } := by
  rw [route_frame hopen _ _ hvalid (by simp [targetFull, noRoom_eq_false hroom])]
  simp only [dispatchFrame, hentry, CmdClass.code]

theorem route_registerRead_malformed (hentry : unpackRegVal s.payload = none) :
    route .registerRead cmd s = reject .malformedPayload .registerRead cmd { s with outValid := false } := by
  rw [route_frame hopen _ _ hvalid (by simp [targetFull, hentry])]
  simp only [dispatchFrame, hentry]

theorem route_registerWrite {reg : BitVec 16} (hreg : unpackAck s.cfg.ackLengths s.payload = some reg)
    (hroom : ∀ d, s.cfg.qDepth = some d → s.waq.length < d) :
    route .registerWrite cmd s = finish .rx (.num 2) { s with outValid := false, waq := s.waq ++ [reg] } := by
  rw [route_frame hopen _ _ hvalid (by simp [targetFull, noRoom_eq_false hroom])]
  simp only [dispatchFrame, hreg, CmdClass.code]

theorem route_registerWrite_malformed (hreg : unpackAck s.cfg.ackLengths s.payload = none) :
    route .registerWrite cmd s = reject .malformedPayload .registerWrite cmd { s with outValid := false } := by
  rw [route_frame hopen _ _ hvalid (by simp [targetFull, hreg])]
  simp only [dispatchFrame, hreg]

theorem route_stream (hroom : ∀ d, s.cfg.qDepth = some d → s.stq.length < d) :
    route .stream cmd s = finish .rx (.num 4) { s with outValid := false, stq := s.stq ++ [(cmd, s.payload)] } :=
  route_frame hopen _ _ hvalid (noRoom_eq_false hroom)

theorem route_unexpected (hcls : cls = .invalid0 ∨ cls = .reserved) :
    route cls cmd s = reject .unexpectedCommand cls cmd { s with outValid := false } := by
  rcases hcls with rfl | rfl <;> exact route_frame hopen _ _ hvalid rfl

end

/-- A command byte decodes to the router's action on a frame with that byte (log entry 3). -/
theorem exec_decodeCommand (x : Byte) (s : State) : exec (decodeCommand x) s = route (classify x) x s := by
  obtain ⟨hf, -, hx⟩ := encode_decodeCommand x
  obtain ⟨c, hc, -, hexec⟩ := command_byte hf
  obtain rfl : x = c := by simpa [hx] using hc
  rw [hexec]

end Sys2Proof.Machine

section

open Sys2Proof Sys2Proof.Machine

/-- Settles O53: each row is the router's action on its own byte, taken from the line for its class. -/
theorem commandRowsSayWhatTheRouterDoes : Obligations.CommandRowsSayWhatTheRouterDoes := by
  refine ⟨fun s => (exec_decodeCommand _ s).symm, fun x s hopen hvalid => ?_, fun s hopen hvalid => ?_⟩
  · rw [exec_decodeCommand, route_noFrame hopen _ _ hvalid]
    exact raise_failsUnchanged ..
  · intro hasRoom rejectedWith rejected
    have hreserved : ∀ {x y : Byte}, x = y → route .reserved x s = rejected y 3 := by
      rintro x _ rfl
      exact route_unexpected hopen _ _ hvalid (.inr rfl)
    refine ⟨route_unexpected hopen _ _ hvalid (.inl rfl), hreserved rfl, fun low => hreserved ?_,
      fun low => hreserved ?_, fun low => hreserved ?_, fun low => hreserved ?_, fun low => hreserved ?_,
      fun x₁ x₀ v hp => ?_, fun x₁ x₀ v₃ v₂ v₁ v₀ hp => ?_, fun h₃ h₆ => ?_, fun hlen => ?_, fun x₁ x₀ p hp hlen => ?_,
      fun descriptor hroom => ?_⟩
    iterate 5 · decide +revert
    · exact route_registerRead hopen _ hvalid (hp ▸ unpackRegVal_three x₁ x₀ v)
    · exact route_registerRead hopen _ hvalid (hp ▸ unpackRegVal_six x₁ x₀ v₃ v₂ v₁ v₀)
    · exact route_registerRead_malformed hopen _ hvalid (unpackRegVal_none h₃ h₆)
    · exact route_registerWrite_malformed hopen _ hvalid (unpackAck_none hlen)
    · exact route_registerWrite hopen _ hvalid (hp ▸ unpackAck_cons_cons (hp ▸ hlen))
    · have hbyte : 0x80 ||| descriptor.setWidth 8 = (1#1 ++ descriptor : Byte) := by decide +revert
      exact hbyte ▸ route_stream hopen _ hvalid hroom

end
end

section
/-! SUPPORT. The ring buffer operations (40_ring_buffer.md): the course of each on a half that accepts operations, and
what the endings do to the buffer. What becomes of the content is said by the laws of `Ring`. -/

namespace Sys2Proof.Machine

variable {s t : State} {b : Half}

/-! The buffer of a half. -/

theorem State.Inv.ring (h : s.Inv) (b : Half) : Ring.Ok (s.cap b) (s.ring b) := (h.alike.ring b).left

theorem State.Inv.drawnHead_lt (h : s.Inv) (b : Half) : s.drawnHead b < s.cap b := h.alike.drawnHead_lt b

@[simp] theorem State.length_content (s : State) (b : Half) : (s.content b).length = (s.ring b).len :=
  Ring.length_content

theorem State.content_eq_nil : s.content b = [] ↔ (s.ring b).len = 0 := by
  rw [← List.length_eq_zero_iff, State.length_content]

/-- The content of `b` after an update that set its buffer to `r` is that of `r`. -/
theorem State.content_setRing_setRes (s : State) (b : Half) (r : Ring) (x : Res) :
    ((s.setRing b r).setRes b x).content b = r.content (s.cap b) := by
  simp [State.content]

theorem OnlyBuffer.cap (h : OnlyBuffer b s t) : t.cap b = s.cap b := by
  rw [OnlyBuffer] at h
  rw [h]
  simp

theorem OnlyBuffer.accepts (h : OnlyBuffer b s t) : t.accepts b ↔ s.accepts b := by
  rw [OnlyBuffer] at h
  rw [h]
  simp [State.accepts]

theorem State.drawnHead_cons {d : Nat} {ds : List Nat} (h : s.draws b = d :: ds) : s.drawnHead b = d % s.cap b := by
  simp only [State.drawnHead, h]

/-- The byte `pop_back` returns stands behind what it leaves (rule R123). -/
theorem Ring.content_eq_popBack_append {cap : Nat} {r : Ring} (hr : r.len ≠ 0) :
    r.content cap = r.popBack.content cap ++ [r.back cap] := by
  have hne : r.content cap ≠ [] := fun hc => hr (by simpa using congrArg List.length hc)
  have hback : r.back cap = (r.content cap).getLast hne := by
    rw [List.getLast_eq_getElem, Ring.getElem_content, Ring.length_content, Ring.back_eq_get hr]
  rw [Ring.content_popBack, hback, List.dropLast_append_getLast hne]

/-! What the endings do to a buffer. -/

theorem finishRingKeep_eq (b : Half) (r : Ring) (s : State) :
    finishRingKeep b r s = .next ((s.setRing b r).setRes b { status := .ok, val := (s.res b).val }) := by
  rw [finishRingKeep, finishKeep, State.setRing_res]

/-- An operation that ends `OK` with a new buffer and a result writes these two and nothing else. -/
theorem finishRing_onlyBuffer (b : Half) (r : Ring) (v : ResVal) (s : State) :
    ∃ t, finishRing b r v s = .next t ∧ OnlyBuffer b s t ∧ t.res b = { status := .ok, val := v } ∧ t.ring b = r
      ∧ t.content b = r.content (s.cap b) :=
  ⟨_, rfl, onlyBuffer_setRing_setRes b r _ s, State.setRes_res_same .., by simp, s.content_setRing_setRes b r _⟩

/-- The same for an operation without a result: `RES.val` keeps its value. -/
theorem finishRingKeep_onlyBuffer (b : Half) (r : Ring) (s : State) :
    ∃ t, finishRingKeep b r s = .next t ∧ OnlyBuffer b s t ∧ t.res b = { status := .ok, val := (s.res b).val }
      ∧ t.ring b = r ∧ t.content b = r.content (s.cap b) :=
  ⟨_, finishRingKeep_eq b r s, onlyBuffer_setRing_setRes b r _ s, State.setRes_res_same .., by simp,
    s.content_setRing_setRes b r _⟩

/-! The courses of the operations. -/

section

variable (h : s.accepts b)

include h

theorem exec_rbPushBack (v : Byte) :
    exec (.rbPushBack b v) s = finishRingKeep b ((s.ring b).pushBack (s.cap b) v) s := whenOpen_accepts h _

theorem exec_rbPushFront (v : Byte) :
    exec (.rbPushFront b v) s = finishRingKeep b ((s.ring b).pushFront (s.cap b) v) s := whenOpen_accepts h _

theorem exec_rbPopFront_empty (hr : (s.ring b).len = 0) : exec (.rbPopFront b) s = raise b .noSuchElement s :=
  (whenOpen_accepts h _).trans (if_pos hr)

theorem exec_rbPopFront (hr : (s.ring b).len ≠ 0) :
    exec (.rbPopFront b) s = finishRing b ((s.ring b).popFront (s.cap b)) (.num (s.ring b).front.toNat) s :=
  (whenOpen_accepts h _).trans (if_neg hr)

theorem exec_rbPopBack_empty (hr : (s.ring b).len = 0) : exec (.rbPopBack b) s = raise b .noSuchElement s :=
  (whenOpen_accepts h _).trans (if_pos hr)

theorem exec_rbPopBack (hr : (s.ring b).len ≠ 0) :
    exec (.rbPopBack b) s = finishRing b (s.ring b).popBack (.num ((s.ring b).back (s.cap b)).toNat) s :=
  (whenOpen_accepts h _).trans (if_neg hr)

theorem exec_rbGet_outside {i : Nat} (hi : (s.ring b).len ≤ i) : exec (.rbGet b i) s = raise b .noSuchElement s :=
  (whenOpen_accepts h _).trans (if_pos hi)

theorem exec_rbGet {i : Nat} (hi : i < (s.ring b).len) :
    exec (.rbGet b i) s = finish b (.num ((s.ring b).get (s.cap b) i).toNat) s :=
  (whenOpen_accepts h _).trans (if_neg (Nat.not_le.2 hi))

theorem exec_rbSet_outside {i : Nat} (hi : (s.ring b).len ≤ i) (v : Byte) :
    exec (.rbSet b i v) s = raise b .noSuchElement s :=
  (whenOpen_accepts h _).trans (if_pos hi)

theorem exec_rbSet {i : Nat} (hi : i < (s.ring b).len) (v : Byte) :
    exec (.rbSet b i v) s = finishRingKeep b ((s.ring b).set (s.cap b) i v) s :=
  (whenOpen_accepts h _).trans (if_neg (Nat.not_le.2 hi))

theorem exec_rbClear :
    exec (.rbClear b) s = finishRingKeep b ((s.ring b).clear (s.drawnHead b)) (s.afterDraw b) := whenOpen_accepts h _

/-- Pushes one after another push the whole list. -/
theorem execAll_rbPushBack (bs : List Byte) :
    ∃ t, execAll (bs.map (Instr.rbPushBack b)) s = .next t ∧ t.ring b = (s.ring b).pushAll (s.cap b) bs
      ∧ t.cap b = s.cap b := by
  induction bs generalizing s with
  | nil => exact ⟨s, rfl, rfl, rfl⟩
  | cons v bs ih =>
    obtain ⟨u, hu, honly, -, hring, -⟩ := finishRingKeep_onlyBuffer b ((s.ring b).pushBack (s.cap b) v) s
    rw [← exec_rbPushBack h] at hu
    have hcap := honly.cap
    obtain ⟨t, ht, htring, htcap⟩ := ih (honly.accepts.2 h)
    refine ⟨t, ?_, ?_, htcap.trans hcap⟩
    · simp only [List.map_cons, execAll, hu, ht]
    · rw [htring, hring, hcap]; rfl

end

section

variable (hopen : s.rxClosed = false)

include hopen

theorem exec_rbExtend_failed {rs : List ReadOutcome} (hreads : s.rxReads = .failed :: rs) :
    exec (.rbExtend .rx) s = raise .rx .transportFailure { s with rxReads := rs } := by
  refine (whenOpen_accepts (State.accepts_rx.2 hopen) _).trans ?_
  rw [hreads]

theorem exec_rbExtend_bytes {x : Byte} {xs : List Byte} {rs : List ReadOutcome}
    (hreads : s.rxReads = .bytes x xs :: rs) :
    exec (.rbExtend .rx) s
      = finishRing .rx (s.rxb.pushAll s.cfg.capRx (x :: xs)) (.num (x :: xs).length) { s with rxReads := rs } := by
  refine (whenOpen_accepts (State.accepts_rx.2 hopen) _).trans ?_
  rw [hreads]
  rfl

end

theorem exec_rbDrain_empty (hlen : s.txb.len = 0) : exec (.rbDrain .tx) s = finish .tx (.num 0) s := if_pos hlen

section

variable (hlen : s.txb.len ≠ 0) {ws : List WriteOutcome}

include hlen

theorem exec_rbDrain_completed (hwrites : s.txWrites = .completed :: ws) :
    exec (.rbDrain .tx) s
      = finishRing .tx (s.txb.popMany s.cfg.capTx s.txb.len) (.num s.txb.len)
          { s with txWrites := ws, txStream := s.txStream ++ s.content .tx } := by
  refine (if_neg hlen).trans ?_
  rw [hwrites]
  rfl

theorem exec_rbDrain_failed {taken : Nat} (hwrites : s.txWrites = .failed taken :: ws) :
    exec (.rbDrain .tx) s
      = raise .tx .transportFailure
          { s with
            txb := s.txb.popMany s.cfg.capTx (min taken s.txb.len), txWrites := ws,
            txStream := s.txStream ++ (s.content .tx).take taken } := by
  refine (if_neg hlen).trans ?_
  rw [hwrites]
  rfl

end

/-! The capacities. -/

theorem WritesOnly.cfg (h : WritesOnly b s t) : t.cfg = s.cfg := by
  cases b <;> (rw [WritesOnly] at h; rw [h])

/-- No operation changes the configuration (00_scope.md rule R5). -/
theorem exec_cfg {i : Instr} (h : exec i s = .next t) : t.cfg = s.cfg := by
  cases hi : i.half with
  | some b => exact (exec_staysIn s hi t h).cfg
  | none =>
    by_cases hpop : ∃ q, i = .qPop q
    · obtain ⟨q, rfl⟩ := hpop
      obtain ⟨r, hr⟩ := execQPop_next h
      rw [hr]; rfl
    · obtain ⟨r, hr⟩ := exec_pure s hi (by simpa using hpop)
      cases hr.symm.trans h
      rfl

theorem State.cap_congr (h : t.cfg = s.cfg) (b : Half) : t.cap b = s.cap b := by
  cases b <;> simp [h]

end Sys2Proof.Machine

section

open Sys2Proof Sys2Proof.Machine

/-- Settles O20, by the laws of `push_back` with room and full. -/
theorem pushBackAppends : Obligations.PushBackAppends := by
  refine fun b v => ⟨rfl, fun s hs h => ?_⟩
  have hok := hs.ring b
  obtain ⟨t, ht, honly, hres, hring, hcontent⟩ :=
    finishRingKeep_onlyBuffer b ((s.ring b).pushBack (s.cap b) v) s
  rw [← exec_rbPushBack h] at ht
  refine ⟨t, ht, honly, hres, ?_⟩
  rw [hring, hcontent]
  refine ⟨Ring.storesAt_pushBack hok v, fun hroom => ?_, fun hfull => ?_⟩
  · exact ⟨if_pos hroom, by simp [Ring.pushBack, hroom], by simp [Ring.len_pushBack, hroom],
      Ring.content_pushBack_room hok hroom v⟩
  · exact ⟨by simp [Ring.backSlot, hfull], by simp [Ring.pushBack, hfull], by simp [Ring.len_pushBack, hfull],
      Ring.content_pushBack_full hok hfull v⟩

/-- Settles O21, by the laws of `push_front` with room and full. -/
theorem pushFrontPrepends : Obligations.PushFrontPrepends := by
  refine fun b v => ⟨rfl, fun s hs h => ?_⟩
  have hok := hs.ring b
  obtain ⟨t, ht, honly, hres, hring, hcontent⟩ :=
    finishRingKeep_onlyBuffer b ((s.ring b).pushFront (s.cap b) v) s
  rw [← exec_rbPushFront h] at ht
  refine ⟨t, ht, honly, hres, rfl, ?_⟩
  rw [hring, hcontent]
  refine ⟨Ring.storesAt_pushFront hok v, rfl, fun hroom => ?_, fun hfull => ?_⟩
  · exact ⟨by simp [Ring.len_pushFront, hroom], Ring.content_pushFront_room hok hroom v⟩
  · exact ⟨by simp [Ring.len_pushFront, hfull], Ring.content_pushFront_full hok hfull v⟩

/-- Settles O22: a content that is not empty is the byte `pop_front` returns and what it leaves. -/
theorem popFrontRemovesTheFirstByte : Obligations.PopFrontRemovesTheFirstByte := by
  refine fun b => ⟨rfl, fun s hs h => ⟨fun hempty => ?_, fun x xs hcons => ?_⟩⟩
  · rw [exec_rbPopFront_empty h (State.content_eq_nil.1 hempty)]
    exact raise_failsUnchanged ..
  · have hr : (s.ring b).len ≠ 0 := State.content_eq_nil.not.1 (by simp [hcons])
    obtain ⟨rfl, hxs⟩ := List.cons.inj (hcons.symm.trans (Ring.content_eq_front_cons (hs.ring b) hr))
    obtain ⟨t, ht, honly, hres, hring, hcontent⟩ :=
      finishRing_onlyBuffer b ((s.ring b).popFront (s.cap b)) (.num (s.ring b).front.toNat) s
    rw [← exec_rbPopFront h hr] at ht
    refine ⟨t, ht, honly, hres, ?_⟩
    rw [hring, hcontent, hxs]
    exact ⟨Ring.content_popFront, fun _ => rfl, rfl, rfl⟩

/-- Settles O23: a content that is not empty is what `pop_back` leaves and the byte it returns. -/
theorem popBackRemovesTheLastByte : Obligations.PopBackRemovesTheLastByte := by
  refine fun b => ⟨rfl, fun s _ h => ⟨fun hempty => ?_, fun x xs hlast => ?_⟩⟩
  · rw [exec_rbPopBack_empty h (State.content_eq_nil.1 hempty)]
    exact raise_failsUnchanged ..
  · have hr : (s.ring b).len ≠ 0 := State.content_eq_nil.not.1 (by simp [hlast])
    obtain ⟨hxs, hx⟩ := List.append_inj' (hlast.symm.trans (Ring.content_eq_popBack_append hr)) rfl
    obtain rfl : x = (s.ring b).back (s.cap b) := by simpa using hx
    obtain ⟨t, ht, honly, hres, hring, hcontent⟩ :=
      finishRing_onlyBuffer b (s.ring b).popBack (.num ((s.ring b).back (s.cap b)).toNat) s
    rw [← exec_rbPopBack h hr] at ht
    refine ⟨t, ht, honly, hres, hcontent.trans hxs.symm, ?_⟩
    rw [hring]
    exact ⟨fun _ => rfl, rfl, rfl⟩

/-- Settles O24: the byte at an index is the entry of the content there. -/
theorem getReadsTheIndexedByte : Obligations.GetReadsTheIndexedByte := by
  refine fun b i => ⟨rfl, fun s h => ⟨fun hi => ?_, fun x hx => ?_⟩⟩
  · rw [exec_rbGet_outside h (by simpa using hi)]
    exact raise_failsUnchanged ..
  · obtain ⟨hi, rfl⟩ := List.getElem?_eq_some_iff.1 hx
    have hi' : i < (s.ring b).len := by simpa using hi
    rw [exec_rbGet h hi', Ring.get_eq_getElem hi']
    rfl

/-- Settles O25, by the laws of `set`. -/
theorem setOverwritesTheIndexedByte : Obligations.SetOverwritesTheIndexedByte := by
  refine fun b i v => ⟨rfl, fun s hs h => ⟨fun hi => ?_, fun hi => ?_⟩⟩
  · rw [exec_rbSet_outside h hi]
    exact raise_failsUnchanged ..
  · have hok := hs.ring b
    obtain ⟨t, ht, honly, hres, hring, hcontent⟩ := finishRingKeep_onlyBuffer b ((s.ring b).set (s.cap b) i v) s
    rw [← exec_rbSet h hi] at ht
    refine ⟨t, ht, honly, hres, ?_⟩
    rw [hring, hcontent]
    exact ⟨Ring.content_set hok hi v, Ring.storesAt_set hok i v, rfl, rfl, rfl⟩

/-- Settles O26: the three operations by their definitions, the capacity by `exec_cfg`. -/
theorem lengthCapacityAndFullness : Obligations.LengthCapacityAndFullness := by
  refine fun b => ⟨rfl, rfl, rfl, fun s h => ⟨whenOpen_accepts h _, s.length_content b, fun hs => (hs.ring b).len_le,
    whenOpen_accepts h _, fun i t ht => State.cap_congr (exec_cfg ht) b, (whenOpen_accepts h _).trans ?_⟩⟩
  simp [finish, flagVal, Ring.isFull]

/-- Settles O27: the new head is a draw below the capacity. -/
theorem clearEmptiesTheBuffer : Obligations.ClearEmptiesTheBuffer := by
  refine fun b => ⟨rfl, fun s hs h => ?_⟩
  obtain ⟨t, ht, honly, hres, hring, hcontent⟩ :=
    finishRingKeep_onlyBuffer b ((s.ring b).clear (s.drawnHead b)) (s.afterDraw b)
  rw [← exec_rbClear h] at ht
  rw [State.afterDraw_res] at hres
  refine ⟨t, ht, hres ▸ honly, ?_⟩
  rw [hring, hcontent]
  refine ⟨rfl, Ring.content_clear _, hs.drawnHead_lt b, fun _ => rfl, fun d ds hdraws hd => ?_⟩
  exact (State.drawnHead_cons hdraws).trans (Nat.mod_eq_of_lt hd)

/-- Settles O28, from the law of repeated pushes: when they fill the buffer, the old content is all dropped. -/
theorem pushesKeepTheLastBytes : Obligations.PushesKeepTheLastBytes := by
  intro b bs s hs h
  obtain ⟨t, ht, hring, hcap⟩ := execAll_rbPushBack h bs
  have hcontent : t.content b = (s.content b ++ bs).drop ((s.content b).length + bs.length - s.cap b) := by
    rw [State.length_content, State.content, hring, hcap]
    exact Ring.content_pushAll (hs.ring b) bs
  refine ⟨t, ht, hcontent, fun hfill => ?_⟩
  rw [hcontent, Nat.add_sub_assoc hfill, List.drop_length_add_append]

/-- Settles O29, by the law of the two runs. -/
theorem slicesCoverTheContent : Obligations.SlicesCoverTheContent := by
  refine fun b => ⟨rfl, fun s hs h => ?_⟩
  have hok := hs.ring b
  refine ⟨((s.ring b).slices (s.cap b)).1, ((s.ring b).slices (s.cap b)).2, whenOpen_accepts h _, rfl, rfl,
    Ring.content_slices hok, fun hfits => ?_, fun hlen => ?_⟩
  · simp only [Ring.slices]; omega
  · have hhead := hok.head_lt
    simp only [Ring.slices]; omega

/-- Settles O30, by the law of repeated pushes and by which storage they touch. -/
theorem extendPushesWhatTheReadDelivers : Obligations.ExtendPushesWhatTheReadDelivers := by
  refine ⟨fun _ => rfl, raise_failsUnchanged .tx .badOperation, fun s rs hopen hreads => ?_,
    fun s x xs rs hs hopen hreads => ?_⟩
  · rw [exec_rbExtend_failed hopen hreads]
    exact raise_failsUnchanged ..
  · obtain ⟨t, ht, honly, hres, hring, hcontent⟩ :=
      finishRing_onlyBuffer .rx (s.rxb.pushAll s.cfg.capRx (x :: xs)) (.num (x :: xs).length) { s with rxReads := rs }
    rw [← exec_rbExtend_bytes hopen hreads] at ht
    refine ⟨t, ht, honly, hres, ?_, fun a ha => ?_⟩
    · rw [hcontent, State.length_content]
      exact Ring.content_pushAll hs.rxb (x :: xs)
    · rw [← State.ring_rx t, hring]
      exact Ring.read_pushAll hs.rxb (x :: xs) ha

/-- Settles O31, by the laws of repeated pops: of the whole content, or of the bytes that the transport took. -/
theorem drainWritesTheContent : Obligations.DrainWritesTheContent := by
  refine ⟨fun _ => rfl, raise_failsUnchanged .rx .badOperation, fun s hempty => ?_, fun s ws hs hne hwrites => ?_,
    fun s taken ws hs hne hwrites => ?_⟩
  · exact exec_rbDrain_empty (State.content_eq_nil.1 hempty)
  · have hlen : s.txb.len ≠ 0 := State.content_eq_nil.not.1 hne
    obtain ⟨t, ht, honly, hres, hring, hcontent⟩ :=
      finishRing_onlyBuffer .tx (s.txb.popMany s.cfg.capTx s.txb.len) (.num s.txb.len)
        { s with txWrites := ws, txStream := s.txStream ++ s.content .tx }
    rw [← exec_rbDrain_completed hlen hwrites] at ht
    have hring : t.txb = s.txb.popMany s.cfg.capTx s.txb.len := hring
    refine ⟨t, ht, honly, by rw [State.length_content]; exact hres, ?_, ?_, fun a => ?_⟩
    · exact hcontent.trans (Ring.content_nil (by simp [Ring.len_popMany]))
    · rw [hring, Ring.head_popMany hs.txb.head_lt]
    · rw [hring, Ring.mem_popMany]
  · have hlen : s.txb.len ≠ 0 := State.content_eq_nil.not.1 hne
    refine ⟨_, (exec_rbDrain_failed hlen hwrites).trans (raise_eq _), rfl, rfl, ?_, fun a => ?_⟩
    · refine (Ring.content_popMany _).trans ?_
      rcases Nat.le_total taken s.txb.len with htaken | htaken
      · rw [Nat.min_eq_left htaken]; rfl
      · rw [Nat.min_eq_right htaken, List.drop_of_length_le (by simp), List.drop_of_length_le (by simpa)]
    · exact congrArg (Memory.read · a) (Ring.mem_popMany _)

end
end

section
/-! SUPPORT. The encoding byte by byte (41_cobs.md rules R150, R151), for a message that lies between the two zeros of
`xs ++ [0]`, and the chain of an encoding that any bytes follow. -/

namespace Sys2Proof.Machine

/-- `j` is the least index above `k` at which `a` holds a zero: `next(k)` of rule R150. -/
structure NextZero (a : List Byte) (k j : Nat) : Prop where
  lt      : k < j
  zero    : a[j]? = some 0
  between : ∀ l, k < l → l < j → a[l]? ≠ some 0

variable {a xs m rest : List Byte} {k j : Nat}

theorem NextZero.unique (h : NextZero a k j) {i : Nat} (h' : NextZero a k i) : i = j := by
  rcases lt_trichotomy i j with hlt | heq | hgt
  · exact absurd h'.zero (h.between i h'.lt hlt)
  · exact heq
  · exact absurd h.zero (h'.between j h.lt hgt)

theorem NextZero.cons (h : NextZero a k j) (x : Byte) : NextZero (x :: a) (k + 1) (j + 1) where
  lt := Nat.succ_lt_succ h.lt
  zero := h.zero
  between
    | l + 1, hk, hj => h.between l (Nat.lt_of_succ_lt_succ hk) (Nat.lt_of_succ_lt_succ hj)

/-! The encoding at an index. -/

theorem nextZero_firstZero (x : Byte) (xs : List Byte) : NextZero (x :: xs ++ [0]) 0 (firstZero xs + 1) := by
  induction xs generalizing x with
  | nil => exact ⟨Nat.zero_lt_one, rfl, fun l hl hl' => by simp only [firstZero] at hl'; omega⟩
  | cons y ys ih =>
    by_cases hy : y = 0
    · rw [firstZero, if_pos hy]
      exact ⟨Nat.zero_lt_one, by simp [hy], fun l hl hl' => by omega⟩
    · rw [firstZero, if_neg hy]
      obtain ⟨-, hzero, hbetween⟩ := ih y
      refine ⟨Nat.succ_pos _, hzero, fun l hl hl' => ?_⟩
      match l with
      | 1 => simpa using hy
      | l + 2 => exact hbetween (l + 1) (Nat.succ_pos l) (Nat.lt_of_succ_lt_succ hl')

/-- A zero becomes the distance to the next one. -/
theorem getElem?_stuff_of_zero (h : xs[k]? = some 0) :
    ∃ j, NextZero (xs ++ [0]) k j ∧ (stuff xs)[k]? = some (BitVec.ofNat 8 (j - k)) := by
  induction xs generalizing k with
  | nil => simp at h
  | cons x xs ih =>
    cases k with
    | zero =>
      obtain rfl : x = 0 := by simpa using h
      exact ⟨_, nextZero_firstZero 0 xs, by simp [stuff]⟩
    | succ k =>
      obtain ⟨j, hnext, hbyte⟩ := ih h
      exact ⟨j + 1, hnext.cons x, by rw [Nat.add_sub_add_right]; exact hbyte⟩

@[simp] theorem getElem?_stuff_length (xs : List Byte) : (stuff xs)[xs.length]? = some 0 := by
  induction xs with
  | nil => rfl
  | cons x xs ih => exact ih

/-- Where there is no zero, the encoding and whatever follows it agree with the message. -/
theorem getElem?_stuff_append (h : (xs ++ [0])[k]? ≠ some 0) (rest : List Byte) :
    (stuff xs ++ rest)[k]? = (xs ++ 0 :: rest)[k]? := by
  induction xs generalizing k with
  | nil =>
    cases k with
    | zero => simp at h
    | succ k => rfl
  | cons x xs ih =>
    cases k with
    | zero =>
      have hx : x ≠ 0 := fun hx => h (by rw [hx]; rfl)
      rw [stuff, if_neg hx]
      rfl
    | succ k => exact ih h

/-- The same without anything behind. -/
theorem getElem?_cobs_of_nonzero (h : (0 :: m ++ [0])[k]? ≠ some 0) : (cobs m)[k]? = (0 :: m ++ [0])[k]? := by
  simpa [cobs] using getElem?_stuff_append h []

/-- The terminator. -/
@[simp] theorem getElem?_cobs_last (m : List Byte) : (cobs m)[m.length + 1]? = some 0 :=
  getElem?_stuff_length (0 :: m)

/-- The bytes of `[0] ++ m` are those of `[0] ++ m ++ [0]` before the last. -/
theorem getElem?_bracket (hk : k ≤ m.length) : (0 :: m ++ [0] : List Byte)[k]? = (0 :: m)[k]? :=
  List.getElem?_append_left (by simpa using Nat.lt_succ_of_le hk)

theorem index_le_of_bracket_zero (h : (0 :: m ++ [0])[k]? = some 0) : k ≤ m.length + 1 := by
  simpa using (List.getElem?_eq_some_iff.1 h).1

theorem getElem?_cobs_of_zero (hk : k ≤ m.length) (h : (0 :: m ++ [0])[k]? = some 0) :
    ∃ j, NextZero (0 :: m ++ [0]) k j ∧ (cobs m)[k]? = some (BitVec.ofNat 8 (j - k)) :=
  getElem?_stuff_of_zero (by rwa [getElem?_bracket hk] at h)

/-- In a message that fits a buffer the distance fits a byte (rule R151 c), so the byte is not zero and leads on. -/
theorem cobs_hop (hm : m.length + 2 ≤ 256) (hk : k ≤ m.length) (h : (0 :: m ++ [0])[k]? = some 0) :
    ∃ v, (cobs m)[k]? = some v ∧ v ≠ 0 ∧ NextZero (0 :: m ++ [0]) k (k + v.toNat) := by
  obtain ⟨j, hnext, hbyte⟩ := getElem?_cobs_of_zero hk h
  have hj := index_le_of_bracket_zero hnext.zero
  have hlt := hnext.lt
  have hnat : (BitVec.ofNat 8 (j - k)).toNat = j - k := by
    rw [BitVec.toNat_ofNat]
    exact Nat.mod_eq_of_lt (by omega)
  refine ⟨_, hbyte, fun h0 => ?_, ?_⟩
  · have h0' : (BitVec.ofNat 8 (j - k)).toNat = 0 := congrArg BitVec.toNat h0
    omega
  · rwa [hnat, Nat.add_sub_cancel' hlt.le]

/-- The only zero of an encoding is its last byte (rule R151 b). -/
theorem getElem?_cobs_eq_zero_iff (hm : m.length + 2 ≤ 256) : (cobs m)[k]? = some 0 ↔ k = m.length + 1 := by
  refine ⟨fun h => ?_, fun h => h ▸ getElem?_cobs_last m⟩
  by_contra hne
  have hk : k < m.length + 2 := by simpa using (List.getElem?_eq_some_iff.1 h).1
  by_cases h0 : (0 :: m ++ [0])[k]? = some 0
  · obtain ⟨v, hv, hv0, -⟩ := cobs_hop hm (by omega) h0
    exact hv0 (Option.some.inj (hv.symm.trans h))
  · exact h0 ((getElem?_cobs_of_nonzero h0).symm.trans h)

/-! The chain. -/

/-- From a chain index at a zero of `[0] ++ m ++ [0]` the chain goes on to every later zero. -/
theorem OnChain.reaches_zero (hm : m.length + 2 ≤ 256) {p : Nat} (hp : OnChain (cobs m ++ rest) p)
    (hp0 : (0 :: m ++ [0])[p]? = some 0) (hk0 : (0 :: m ++ [0])[k]? = some 0) (hle : p ≤ k) :
    OnChain (cobs m ++ rest) k := by
  induction hd : k - p using Nat.strong_induction_on generalizing p with
  | _ d ih =>
    rcases hle.eq_or_lt with rfl | hlt
    · exact hp
    · have hk := index_le_of_bracket_zero hk0
      obtain ⟨v, hv, hv0, hnext⟩ := cobs_hop hm (by omega) hp0
      have hv' : (cobs m ++ rest)[p]? = some v := by
        rw [List.getElem?_append_left (by rw [length_cobs]; omega), hv]
      have hpv : p + v.toNat ≤ k := Nat.le_of_not_lt fun hgt => hnext.between k hlt hgt hk0
      have hlt' := hnext.lt
      exact ih (k - (p + v.toNat)) (by omega) (hp.hop hv' hv0) hnext.zero hpv rfl

/-- The chain of an encoding visits exactly the zeros of `[0] ++ m ++ [0]` (rule R151 d), whatever follows. -/
theorem onChain_cobs_append (hm : m.length + 2 ≤ 256) (rest : List Byte) :
    OnChain (cobs m ++ rest) k ↔ (0 :: m ++ [0])[k]? = some 0 := by
  refine ⟨fun h => ?_, fun h => OnChain.start.reaches_zero hm rfl h (Nat.zero_le k)⟩
  induction h with
  | start => rfl
  | @hop p v _ hv hv0 ih =>
    have hp := index_le_of_bracket_zero ih
    rw [List.getElem?_append_left (by rw [length_cobs]; omega)] at hv
    have hlast : p ≠ m.length + 1 := fun hc => hv0 (Option.some.inj (by rw [← hv, hc, getElem?_cobs_last]))
    obtain ⟨v', hv', -, hnext⟩ := cobs_hop hm (by omega) ih
    obtain rfl : v' = v := Option.some.inj (hv'.symm.trans hv)
    exact hnext.zero

theorem onChain_cobs (hm : m.length + 2 ≤ 256) : OnChain (cobs m) k ↔ (0 :: m ++ [0])[k]? = some 0 := by
  simpa using onChain_cobs_append (k := k) hm []

/-- The encoding determines the message: the chain says where its zeros are (rule R151 e). -/
theorem cobs_injective (hm : m.length + 2 ≤ 256) {n : List Byte} (hn : n.length + 2 ≤ 256) (h : cobs n = cobs m) :
    n = m := by
  have hbracket : 0 :: n ++ [0] = 0 :: m ++ [0] := by
    refine List.ext_getElem? fun k => ?_
    have hzero : (0 :: n ++ [0])[k]? = some 0 ↔ (0 :: m ++ [0])[k]? = some 0 := by
      rw [← onChain_cobs hn, ← onChain_cobs hm, h]
    by_cases hk : (0 :: m ++ [0])[k]? = some 0
    · rw [hk, hzero.2 hk]
    · rw [← getElem?_cobs_of_nonzero hk, ← getElem?_cobs_of_nonzero (hzero.not.2 hk), h]
  simpa using hbracket

end Sys2Proof.Machine

section

open Sys2Proof Sys2Proof.Machine

/-- Settles O32: a zero becomes the distance to the next one, which is unique, and every other byte stays. -/
theorem cobsReplacesZerosByDistances : Obligations.CobsReplacesZerosByDistances := by
  refine fun m _ => ⟨length_cobs m, fun k j hk hlt h0 hj hbetween => ?_, fun k x _ hx hx0 => ?_, getElem?_cobs_last m⟩
  · obtain ⟨i, hnext, hbyte⟩ := getElem?_cobs_of_zero hk h0
    rw [hbyte, NextZero.unique ⟨hlt, hj, hbetween⟩ hnext]
  · rw [getElem?_cobs_of_nonzero (by rw [hx]; exact fun hc => hx0 (Option.some.inj hc)), hx]

/-- Settles O33, by the lemmas for the three parts of rule R151. -/
theorem cobsHidesEveryZero : Obligations.CobsHidesEveryZero :=
  fun _ hm => ⟨fun _ => getElem?_cobs_eq_zero_iff hm, fun _ => onChain_cobs hm, fun _ hn h => cobs_injective hm hn h⟩

end
end

section
/-! SUPPORT. `COBS.ENC` and `COBS.DEC` (41_cobs.md rules R152, R155 to R158): the course of each on a half that accepts
operations, and the content that the walk leaves. -/

namespace Sys2Proof.Machine

variable {s : State} {b : Half}

/-- Every capacity is at most 256 (00_scope.md rule R5). -/
theorem State.cap_le (s : State) (b : Half) : s.cap b ≤ 256 := by
  have h := s.cfg.admissible
  simp only [Params.admissible, Bool.and_eq_true, decide_eq_true_eq] at h
  cases b <;> simp only [State.cap_tx, State.cap_rx] <;> tauto

/-! The ending of a codec run. -/

/-- A codec run that fails and leaves the buffer as it is only raises its failure. -/
theorem finishCodec_failed_same (b : Half) (f : Status) (s : State) :
    finishCodec b (.failed f (s.ring b)) s = raise b f s := by
  cases b <;> rfl

/-- A codec run that fails writes the buffer it leaves and the result register, and uses one free value. -/
theorem finishCodec_failed_onlyBuffer (b : Half) (f : Status) (r : Ring) (s : State) :
    ∃ t, finishCodec b (.failed f r) s = .next t ∧ OnlyBuffer b (s.useFree b) t ∧ (t.res b).status = f ∧ t.ring b = r
      ∧ t.content b = r.content (s.cap b) := by
  have hcomm : (s.setRing b r).useFree b = (s.useFree b).setRing b r := by cases b <;> rfl
  refine ⟨_, (raise_eq f).trans (by rw [hcomm]), onlyBuffer_setRing_setRes .., by simp, by simp, ?_⟩
  rw [State.content_setRing_setRes, State.useFree_cap]

/-! The courses of the operations. -/

section

variable (h : s.accepts b)

include h

theorem exec_cobsEnc : exec (.cobsEnc b) s = finishCodec b (cobsEncode (s.cap b) (s.ring b)) s := whenOpen_accepts h _

theorem exec_cobsDec : exec (.cobsDec b) s = finishCodec b (cobsDecode (s.cap b) (s.ring b)) s := whenOpen_accepts h _

theorem exec_cobsEnc_empty (hr : (s.ring b).len = 0) : exec (.cobsEnc b) s = raise b .cobsEmpty s := by
  rw [exec_cobsEnc h, cobsEncode, if_pos hr, finishCodec_failed_same]

theorem exec_cobsEnc_overflow (hr : (s.ring b).len ≠ 0) (hfull : s.cap b < (s.ring b).len + 2) :
    exec (.cobsEnc b) s = raise b .cobsOverflow s := by
  rw [exec_cobsEnc h, cobsEncode, if_neg hr, if_pos hfull, finishCodec_failed_same]

theorem exec_cobsDec_tooShort (hr : (s.ring b).len < 3) : exec (.cobsDec b) s = raise b .tooShort s := by
  rw [exec_cobsDec h, cobsDecode, if_pos hr, finishCodec_failed_same]

end

/-! The content after a walk that ended at `p`. -/

section

variable {cap p : Nat} {r₀ r : Ring} (h : Walked cap r₀ r p)

include h

theorem Walked.length_content : (r.content cap).length = (r₀.content cap).length := by
  simp [h.len]

theorem Walked.content_kept {k : Nat} (hk : p ≤ k ∨ ¬OnChain (r₀.content cap) k) :
    (r.content cap)[k]? = (r₀.content cap)[k]? := by
  rcases Nat.lt_or_ge k r₀.len with hlt | hge
  · have hkept := h.kept k hlt hk
    have hlen := h.len
    rw [List.getElem?_eq_getElem (by simpa [hlen] using hlt), List.getElem?_eq_getElem (by simpa using hlt)]
    simpa using hkept
  · rw [List.getElem?_eq_none (by rw [h.length_content]; simpa using hge), List.getElem?_eq_none (by simpa using hge)]

/-- When the walk has landed on a zero or has left the content, every chain byte is zero. -/
theorem Walked.content_zeroed (hend : (r₀.content cap)[p]? = some 0 ∨ (r₀.content cap).length ≤ p) {k : Nat}
    (hk : k < (r₀.content cap).length) (hon : OnChain (r₀.content cap) k) : (r.content cap)[k]? = some 0 := by
  rcases (h.on.last hend hon).lt_or_eq with hlt | rfl
  · have hzero := h.zeroed k (by simpa using hk) hlt hon
    rw [List.getElem?_eq_getElem (by rwa [h.length_content])]
    simpa using hzero
  · rw [h.content_kept (.inl (Nat.le_refl _))]
    exact hend.resolve_right (by omega)

end

end Sys2Proof.Machine

section

open Sys2Proof Sys2Proof.Machine

/-- Settles O34, by what `cobsEncode_done` says of the buffer that the scan leaves. -/
theorem cobsEncWritesTheEncoding : Obligations.CobsEncWritesTheEncoding := by
  refine fun b => ⟨rfl, fun s hs h => ⟨fun hempty => ?_, fun hne hfull => ?_, fun hne hfit => ?_⟩⟩
  · rw [exec_cobsEnc_empty h (State.content_eq_nil.1 hempty)]
    exact raise_failsUnchanged ..
  · rw [exec_cobsEnc_overflow h (State.content_eq_nil.not.1 hne) (by simpa using hfull)]
    exact raise_failsUnchanged ..
  · obtain ⟨e, he, -, hcobs, hhead, hstorage⟩ :=
      cobsEncode_done (hs.ring b) (State.content_eq_nil.not.1 hne) (by simpa using hfit)
    obtain ⟨t, ht, honly, hres, hring, hcontent⟩ := finishRing_onlyBuffer b e (.num ((s.ring b).len + 2)) s
    refine ⟨t, ?_, honly, by rw [State.length_content, hres], hcontent.trans hcobs, ?_, ?_⟩
    · rw [exec_cobsEnc h, he]; exact ht
    · rw [hring]; exact hhead
    · rw [hring]; exact hstorage

/-- Settles O35: the walk ends at the zero the chain lands on, and the overhead byte is popped. -/
theorem cobsDecUndoesTheChain : Obligations.CobsDecUndoesTheChain := by
  refine fun b => ⟨rfl, fun s d hs h h3 hd hon hzero => ?_⟩
  obtain ⟨e, he, hw⟩ := cobsDecode_done (hs.ring b) (by simpa using h3) hd hon hzero
  obtain ⟨t, ht, honly, hres, hring, hcontent⟩ := finishRing_onlyBuffer b (e.popFront (s.cap b)) (.num d) s
  rw [Ring.content_popFront] at hcontent
  refine ⟨t, ?_, honly, hres, ?_, fun k hk hk' => ?_, fun k hk => ?_, ?_⟩
  · rw [exec_cobsDec h, he]; exact ht
  · rw [hcontent, List.length_tail, hw.length_content]; rfl
  · rw [hcontent, List.getElem?_tail]
    exact hw.content_zeroed (.inl hzero) hk hk'
  · rw [hcontent, List.getElem?_tail]
    exact hw.content_kept (.inr hk)
  · rw [hring]
    exact hw.keepsOffChain.popMany 1

/-- Settles O36, by where the walk ends: nowhere, at index 0, or past the content. -/
theorem cobsDecFailsOnWhatIsNoFrame : Obligations.CobsDecFailsOnWhatIsNoFrame := by
  refine fun b s hs h => ⟨fun hshort => ?_, fun xs hxs hlen => ?_, fun q h3 hon hq => ?_, fun hne => ?_⟩
  · rw [exec_cobsDec_tooShort h (by simpa using hshort)]
    exact raise_failsUnchanged ..
  · have h3 : 3 ≤ (s.ring b).len := by rw [← State.length_content, hxs]; simpa using hlen
    have h0 : (s.ring b).get (s.cap b) 0 = 0 := by
      rw [Ring.get_eq_getElem (by omega)]
      exact List.getElem_of_eq hxs _
    obtain ⟨t, ht, honly, hres, hring, hcontent⟩ :=
      finishCodec_failed_onlyBuffer b .emptyFrame ((s.ring b).popFront (s.cap b)) s
    refine ⟨t, ?_, honly, hres, ?_, fun a => by rw [hring]; rfl⟩
    · rw [exec_cobsDec h, cobsDecode_emptyFrame h3 h0, ht]
    · rw [hcontent, Ring.content_popFront]
      exact congrArg List.tail hxs
  · have hq' : (s.ring b).len ≤ q := by simpa using hq
    obtain ⟨e, he, hw⟩ := cobsDecode_noTerminator (hs.ring b) (by simpa using h3) hon hq'
    obtain ⟨t, ht, honly, hres, hring, hcontent⟩ := finishCodec_failed_onlyBuffer b .noTerminator e s
    refine ⟨t, ?_, honly, hres, ?_, fun k hk hk' => ?_, fun k hk => ?_, fun a ha => ?_⟩
    · rw [exec_cobsDec h, he, ht]
    · rw [hcontent]; exact hw.length_content
    · rw [hcontent]; exact hw.content_zeroed (.inr hq) hk hk'
    · rw [hcontent]; exact hw.content_kept (.inr hk)
    · rw [hring]
      exact hw.storage a fun k _ hk hk' => ha k (by simpa using hk) hk'
  · rw [State.length_content]
    exact exists_chain_end (hs.ring b) (State.content_eq_nil.not.1 hne)

/-- Settles O37: the chain of the encoding lands on its terminator, so `COBS.DEC` zeroes the zeros of `[0] ++ m ++ [0]`
and keeps every other byte. -/
theorem cobsRoundTrip : Obligations.CobsRoundTrip := by
  refine fun b m rest s hs h hne hroom => ⟨fun hm => ?_, fun hw => ?_⟩
  · obtain ⟨-, -, hdone⟩ := (cobsEncWritesTheEncoding b).2 s hs h
    obtain ⟨t, ht, -, hres, hcobs, -⟩ := hdone (hm ▸ hne) (by rw [hm]; omega)
    exact ⟨t, ht, by rw [hres], by rw [hcobs, hm]⟩
  · have hcap := s.cap_le b
    have hpos : 0 < m.length := List.length_pos_of_ne_nil hne
    have hchain (k : Nat) : OnChain (s.content b) k ↔ (0 :: m ++ [0])[k]? = some 0 := by
      rw [hw, onChain_cobs_append (by omega)]
    obtain ⟨t, ht, -, hres, -, hzeroed, hkept, -⟩ := (cobsDecUndoesTheChain b).2 s (m.length + 1) hs h
      (by rw [hw, List.length_append, length_cobs]; omega) (Nat.succ_pos _) ((hchain _).2 (by simp))
      (by rw [hw, List.getElem?_append_left (by simp), getElem?_cobs_last])
    refine ⟨t, ht, hres, List.ext_getElem? fun k => ?_⟩
    by_cases hk : (0 :: m ++ [0])[k + 1]? = some 0
    · have hle := index_le_of_bracket_zero hk
      rw [hzeroed k (by rw [hw, List.length_append, length_cobs]; omega) ((hchain _).2 hk), List.append_cons,
        List.getElem?_append_left (by simpa using hle)]
      exact hk.symm
    · rw [hkept k ((hchain _).not.2 hk), hw]
      exact getElem?_stuff_append hk rest

end
end

section
/-! SUPPORT. The checksum (42_crc16.md rules R172, R177, R178): the loop read from the other end, zeros in front, and that
no single byte can change without the checksum. -/

namespace Sys2Proof.Machine

variable {p : CrcParams} {poly : BitVec 16} {xs : List Byte} {x : Byte}

theorem crcFold_cons (p : CrcParams) (acc : BitVec 16) (x : Byte) (xs : List Byte) :
    crcFold p acc (x :: xs) = crcFold p (crcByte p acc x) xs := rfl

theorem crcFold_append (p : CrcParams) (acc : BitVec 16) (xs ys : List Byte) :
    crcFold p acc (xs ++ ys) = crcFold p (crcFold p acc xs) ys := List.foldl_append

/-! The loop of rule R172: bit `i` of its accumulator is bit `15 - i` of the model's. -/

theorem reverse_xor {n : Nat} (a b : BitVec n) : (a ^^^ b).reverse = a.reverse ^^^ b.reverse := by
  ext i hi
  simp [BitVec.getElem_reverse]

theorem reverse_shiftLeft_one {n : Nat} (a : BitVec n) : (a <<< 1).reverse = a.reverse >>> 1 := by
  ext i hi
  simp [BitVec.getElem_reverse, BitVec.getLsbD_reverse, Nat.add_comm]

/-- A byte that enters the model's accumulator at the top, its bits reversed, enters the loop's at the bottom. -/
theorem reverse_byte_at_top (x : Byte) : (x.reverse.setWidth 16 <<< 8).reverse = x.setWidth 16 := by
  ext i hi
  simp [BitVec.getElem_reverse, BitVec.getMsbD_reverse (x := x)]

/-- Each step of the one is the step of the other: the bit that leaves is the top bit here and bit 0 there. -/
theorem reverse_crcShift (n : Nat) (acc : BitVec 16) :
    (crcShift CrcParams.dnp.poly n acc).reverse = reflectedShift n acc.reverse := by
  induction n generalizing acc with
  | zero => rfl
  | succ n ih =>
    have hpoly : CrcParams.dnp.poly.reverse = 0xA6BC := by decide
    have hbit : acc.reverse.getLsbD 0 = acc.msb := by rw [BitVec.getLsbD_reverse, BitVec.msb_eq_getMsbD_zero]
    rw [crcShift, ih, reflectedShift, hbit]
    cases acc.msb
    · exact congrArg _ (reverse_shiftLeft_one acc)
    · refine congrArg _ ((reverse_xor _ _).trans ?_)
      rw [reverse_shiftLeft_one, hpoly, if_pos rfl]

theorem reverse_crcByte (acc : BitVec 16) (x : Byte) :
    (crcByte CrcParams.dnp acc x).reverse = reflectedShift 8 (acc.reverse ^^^ x.setWidth 16) := by
  rw [crcByte, reverse_crcShift, reverse_xor]
  exact congrArg (fun y => reflectedShift 8 (acc.reverse ^^^ y)) (reverse_byte_at_top x)

theorem crc16_eq_reflectedCrc16 (bs : List Byte) : crc16 CrcParams.dnp bs = reflectedCrc16 bs := by
  have hfold : bs.foldl (fun acc x => reflectedShift 8 (acc ^^^ x.setWidth 16)) 0
      = (crcFold CrcParams.dnp 0 bs).reverse :=
    List.foldl_hom (init := 0) BitVec.reverse fun acc x => (reverse_crcByte acc x).symm
  exact congrArg (· ^^^ 0xFFFF) hfold.symm

/-! Zeros in front (rule R177). -/

/-- The accumulator starts at zero, and zero bytes leave it there. -/
theorem crcFold_zeros (n : Nat) : crcFold CrcParams.dnp 0 (List.replicate n 0) = 0 := by
  induction n with
  | zero => rfl
  | succ n ih =>
    have hbyte : crcByte CrcParams.dnp 0 0 = 0 := by decide
    rw [List.replicate_succ, crcFold_cons, hbyte, ih]

theorem crc16_zeros_append (n : Nat) (bs : List Byte) :
    crc16 CrcParams.dnp (List.replicate n 0 ++ bs) = crc16 CrcParams.dnp bs := by
  have hfold : crcFold CrcParams.dnp 0 (List.replicate n 0 ++ bs) = crcFold CrcParams.dnp 0 bs := by
    rw [crcFold_append, crcFold_zeros]
  exact congrArg (crcFinal CrcParams.dnp) hfold

/-! One changed byte (rule R178 a): with an odd polynomial every step is injective, so two accumulators that differ never
meet again. -/

/-- With an odd polynomial a step writes the bit that leaves at the top into bit 0. -/
theorem getLsbD_zero_crcShift_one (hodd : poly.getLsbD 0 = true) (acc : BitVec 16) :
    (crcShift poly 1 acc).getLsbD 0 = acc.msb := by
  simp only [crcShift]
  split <;> simp_all

theorem eq_of_shiftLeft_one_eq {a b : BitVec 16} (hmsb : a.msb = b.msb) (h : a <<< 1 = b <<< 1) : a = b := by
  simp only [BitVec.msb_eq_decide, decide_eq_decide] at hmsb
  bv_omega

theorem crcShift_one_injective (hodd : poly.getLsbD 0 = true) : Function.Injective (crcShift poly 1) := by
  intro a b h
  have hmsb : a.msb = b.msb := by rw [← getLsbD_zero_crcShift_one hodd, h, getLsbD_zero_crcShift_one hodd]
  refine eq_of_shiftLeft_one_eq hmsb ?_
  simp only [crcShift, hmsb] at h
  split at h
  · exact (BitVec.xor_left_inj _).1 h
  · exact h

theorem crcShift_injective (hodd : poly.getLsbD 0 = true) (n : Nat) : Function.Injective (crcShift poly n) := by
  induction n with
  | zero => exact Function.injective_id
  | succ n ih => exact ih.comp (crcShift_one_injective hodd)

theorem reverse_injective {n : Nat} : Function.Injective (BitVec.reverse (w := n)) :=
  Function.LeftInverse.injective fun _ => BitVec.reverse_reverse_eq

/-- The byte reaches the accumulator by bijections and its top half. -/
theorem crcByte_injective_byte (hodd : p.poly.getLsbD 0 = true) (acc : BitVec 16) :
    Function.Injective (crcByte p acc) := by
  intro x y h
  have htop := (BitVec.xor_right_inj _).1 (crcShift_injective hodd 8 h)
  have hbits : (if p.refin then x.reverse else x) = if p.refin then y.reverse else y := by bv_omega
  split at hbits
  · exact reverse_injective hbits
  · exact hbits

theorem crcByte_injective_acc (hodd : p.poly.getLsbD 0 = true) (x : Byte) :
    Function.Injective fun acc => crcByte p acc x :=
  fun _ _ h => (BitVec.xor_left_inj _).1 (crcShift_injective hodd 8 h)

/-- Two accumulators that differ never meet again. -/
theorem crcFold_injective (hodd : p.poly.getLsbD 0 = true) (xs : List Byte) :
    Function.Injective fun acc => crcFold p acc xs := by
  induction xs with
  | nil => exact Function.injective_id
  | cons x xs ih => exact ih.comp (crcByte_injective_acc hodd x)

theorem crcFinal_injective (p : CrcParams) : Function.Injective (crcFinal p) := by
  intro a b h
  have hbits : (if p.refout then a.reverse else a) = if p.refout then b.reverse else b := (BitVec.xor_left_inj _).1 h
  split at hbits
  · exact reverse_injective hbits
  · exact hbits

theorem crcFold_set_ne (hodd : p.poly.getLsbD 0 = true) (acc : BitVec 16) {i : Nat} (hi : i < xs.length)
    (hx : xs[i] ≠ x) : crcFold p acc (xs.set i x) ≠ crcFold p acc xs := by
  induction xs generalizing acc i with
  | nil => exact absurd hi (Nat.not_lt_zero i)
  | cons y ys ih =>
    cases i with
    | zero => exact fun h => hx (crcByte_injective_byte hodd acc (crcFold_injective hodd ys h)).symm
    | succ i => exact ih _ (Nat.lt_of_succ_lt_succ hi) hx

/-- A checksum with an odd polynomial tells any single changed byte. -/
theorem crc16_set_ne (hodd : p.poly.getLsbD 0 = true) {i : Nat} (hi : i < xs.length) (hx : xs[i] ≠ x) :
    crc16 p (xs.set i x) ≠ crc16 p xs :=
  fun h => crcFold_set_ne hodd _ hi hx (crcFinal_injective p h)

end Sys2Proof.Machine
end

section
/-! SUPPORT. `CRC.CALC` (42_crc16.md rule R174): its course on a half that accepts operations. -/

namespace Sys2Proof.Machine

variable {s : State} {b : Half} {n : Nat}

section

variable (h : s.accepts b)

include h

theorem exec_crcCalc_outside (hn : (s.ring b).len < n) : exec (.crcCalc b n) s = raise b .noSuchElement s :=
  (whenOpen_accepts h _).trans (if_pos hn)

theorem exec_crcCalc (hn : n ≤ (s.ring b).len) :
    exec (.crcCalc b n) s = finish b (.num (crc16 s.cfg.crc ((s.content b).take n)).toNat) s := by
  have hread : (s.ring b).memRead (s.cap b) 0 n = (s.content b).take n := Ring.memRead_eq (by rwa [Nat.zero_add])
  rw [← hread]
  exact (whenOpen_accepts h _).trans (if_neg (Nat.not_lt.2 hn))

end

end Sys2Proof.Machine

section

open Sys2Proof Sys2Proof.Machine

/-- Settles O38, by the course of `CRC.CALC` on each side of the length. -/
theorem crcCalcReadsTheFirstBytes : Obligations.CrcCalcReadsTheFirstBytes := by
  refine fun b n => ⟨rfl, fun s h => ⟨fun hn => ?_, fun hn => ?_, fun hcrc => ?_⟩⟩
  · rw [exec_crcCalc_outside h (by simpa using hn)]
    exact raise_failsUnchanged ..
  · exact exec_crcCalc h (by simpa using hn)
  · rw [hcrc]
    decide

/-- Settles O39: the loop's accumulator is the model's, bits reversed, after every byte. -/
theorem checksumIsTheReflectedLoop : Obligations.ChecksumIsTheReflectedLoop := crc16_eq_reflectedCrc16

/-- Settles O40: zero bytes in front leave the accumulator at zero; the listed values by running the model. -/
theorem checksumIsBlindToLeadingZeros : Obligations.ChecksumIsBlindToLeadingZeros := by
  refine ⟨crc16_zeros_append, fun n => ?_, by decide +kernel, by decide +kernel, by decide +kernel⟩
  have hempty : crc16 CrcParams.dnp [] = 0xFFFF := by decide
  rw [← hempty, ← crc16_zeros_append n [], List.append_nil]

end
end

section
/-! SUPPORT. Received frames (43_frame_codec.md rules R195, R196): a content that begins with a frame, what `COBS.DEC`
leaves of it, and how its fields reach the output latches. -/

namespace Sys2Proof.Machine

variable {w w' m rest : List Byte} {cap : Nat} {r : Ring} {s : State}

/-! Frames in a content. -/

/-- The chain depends on the bytes at its own indices alone. -/
theorem onChain_congr (h : ∀ i, OnChain w i → w'[i]? = w[i]?) {k : Nat} : OnChain w' k ↔ OnChain w k := by
  refine ⟨fun hk => ?_, fun hk => ?_⟩
  · induction hk with
    | start => exact .start
    | hop _ hv hv0 ih => exact ih.hop ((h _ ih).symm.trans hv) hv0
  · induction hk with
    | start => exact .start
    | hop hp hv hv0 ih => exact ih.hop ((h _ hp).trans hv) hv0

/-- An encoding is a frame of its message, whatever follows it (rule R160). -/
theorem decodes_cobs_append (hm : m.length + 2 ≤ 256) (rest : List Byte) : Decodes (cobs m ++ rest) m rest where
  lands   := (onChain_cobs_append hm rest).2 (by simp)
  zero    := by rw [List.getElem?_append_left (by simp), getElem?_cobs_last]
  chained k hk hon := by
    have hzero := (onChain_cobs_append hm rest).1 hon
    rwa [getElem?_bracket hk] at hzero
  kept k hk hoff := by
    have hnonzero := (onChain_cobs_append hm rest).not.1 hoff
    rw [List.getElem?_append_left (by rw [length_cobs]; omega), getElem?_cobs_of_nonzero hnonzero,
      getElem?_bracket hk]
    rfl
  rest    := by simp

theorem Decodes.length_lt (h : Decodes w m rest) : m.length + 1 < w.length :=
  (List.getElem?_eq_some_iff.1 h.zero).1

/-- A byte changed off the chain changes the message there and nothing else (rule R178 a). -/
theorem Decodes.set_offChain (h : Decodes w m rest) {j : Nat} (hj : j < m.length) (hoff : ¬OnChain w (j + 1))
    (x : Byte) : Decodes (w.set (j + 1) x) (m.set j x) rest := by
  have hchain {k : Nat} : OnChain (w.set (j + 1) x) k ↔ OnChain w k :=
    onChain_congr fun i hi => List.getElem?_set_ne (by rintro rfl; exact hoff hi)
  refine ⟨?_, ?_, fun k hk hon => ?_, fun k hk hk' => ?_, ?_⟩
  · rw [List.length_set]; exact hchain.2 h.lands
  · rw [List.length_set, List.getElem?_set_ne (by omega)]; exact h.zero
  · have hne : j ≠ k := fun hc => hoff (hc ▸ hchain.1 hon)
    rw [List.getElem?_set_ne hne]
    exact h.chained k (by simpa using hk) (hchain.1 hon)
  · have hlt := h.length_lt
    rw [List.length_set] at hk
    by_cases hjk : j = k
    · subst hjk
      rw [List.getElem?_set_self hj, List.getElem?_set_self (by omega)]
    · rw [List.getElem?_set_ne hjk, List.getElem?_set_ne (by omega)]
      exact h.kept k hk (hchain.not.1 hk')
  · rw [h.rest, List.length_set, List.drop_set_of_lt (by omega)]

/-- `COBS.DEC` on a frame leaves its message, the terminator and what follows, and touches storage on the chain only. -/
theorem cobsDecode_decodes (h : Ring.Ok cap r) (hd : Decodes (r.content cap) m rest) (hm : m ≠ []) :
    ∃ e, cobsDecode cap r = .done (m.length + 1) e ∧ Ring.Ok cap e ∧ e.content cap = m ++ 0 :: rest
      ∧ KeepsOffChain (r.content cap) (m.length + 1) cap r e := by
  have hlt := hd.length_lt
  have hlen : (r.content cap).length = r.len := Ring.length_content
  have hpos := List.length_pos_of_ne_nil hm
  obtain ⟨e, he, hw⟩ := cobsDecode_done h (by omega) (Nat.succ_pos _) hd.lands hd.zero
  refine ⟨_, he, hw.ok.popFront, ?_, hw.keepsOffChain.popMany 1⟩
  have htail : (r.content cap).drop (m.length + 1) = 0 :: rest := by
    obtain ⟨_, hzero⟩ := List.getElem?_eq_some_iff.1 hd.zero
    rw [List.drop_eq_getElem_cons hlt, hzero, hd.rest]
  rw [Ring.content_popFront]
  refine List.ext_getElem? fun k => ?_
  rw [List.getElem?_tail]
  rcases Nat.lt_or_ge k m.length with hk | hk
  · rw [List.getElem?_append_left hk]
    by_cases hon : OnChain (r.content cap) (k + 1)
    · rw [hw.content_zeroed (.inl hd.zero) (by omega) hon, hd.chained k hk hon]
    · rw [hw.content_kept (.inr hon), hd.kept k hk hon]
  · rw [hw.content_kept (.inl (by omega)), List.getElem?_append_right hk, ← htail, List.getElem?_drop]
    congr 1
    omega

/-! The fields of a message. -/

@[simp] theorem length_messageBody (hv : Bool) (version command : Byte) (data : List Byte) :
    (messageBody hv version command data).length = hdr hv + data.length := by
  cases hv <;> simp [messageBody, hdr] <;> omega

theorem bytes16_injective : Function.Injective bytes16 := by
  intro c d h
  obtain ⟨hhi, hlo⟩ : hiByte c = hiByte d ∧ loByte c = loByte d := by simpa [bytes16] using h
  have happend := (append_eq_iff_extractLsb' (hiByte c) (loByte c) d).2 ⟨hhi, hlo⟩
  rw [← happend]
  exact ((append_eq_iff_extractLsb' (hiByte c) (loByte c) c).2 ⟨rfl, rfl⟩).symm

theorem message_eq (crc : CrcParams) (hv hc : Bool) (version command : Byte) (data : List Byte) :
    message crc hv hc version command data
      = messageBody hv version command data ++ checksumBytes crc hc (messageBody hv version command data) := rfl

/-- Bytes enough for the header are the header and payload of some message. -/
theorem exists_messageBody {hv : Bool} (h : hdr hv ≤ m.length) :
    ∃ version command data, m = messageBody hv version command data := by
  cases hv with
  | false =>
    match m with
    | command :: data => exact ⟨0, command, data, rfl⟩
  | true =>
    match m with
    | version :: command :: data => exact ⟨version, command, data, rfl⟩

/-! The latches. -/

theorem Ring.front_of_content (h : Ring.Ok cap r) {x : Byte} {xs : List Byte} (hc : r.content cap = x :: xs) :
    r.front = x := by
  have hr : r.len ≠ 0 := fun h0 => by rw [Ring.content_nil h0] at hc; cases hc
  rw [Ring.content_eq_front_cons h hr] at hc
  exact (List.cons.inj hc).1

theorem Ring.content_popFront_of_content {x : Byte} {xs : List Byte} (hc : r.content cap = x :: xs) :
    (r.popFront cap).content cap = xs := by
  rw [Ring.content_popFront, hc, List.tail_cons]

theorem Ring.memRead_of_content {xs ys : List Byte} (hc : r.content cap = xs ++ ys) :
    r.memRead cap 0 xs.length = xs := by
  have hlen : xs.length + ys.length = r.len := by
    rw [← Ring.length_content (cap := cap), hc, List.length_append]
  rw [Ring.memRead_eq (by omega), hc, List.drop_zero, List.take_left]

/-- The state in which the output latches hold the fields of a frame and `RXB` is `r` (rule R195). -/
def State.latch (s : State) (hasVersion : Bool) (version command : Byte) (data : List Byte) (r : Ring) : State :=
  { s with
    outVersion := if hasVersion then version else s.outVersion
    outCommand := command
    outData    := Memory.writeSeq s.outData 0 data
    outLen     := data.length
    rxb        := r }

/-- `FRM.RECV` behind the decode, on a buffer that begins with the message of a frame and its terminator: the fields are
latched, the frame is gone, and the checksum bytes decide. -/
theorem deliver_eq {hv hc : Bool} {version command : Byte} {data sum : List Byte} (h : Ring.Ok s.cfg.capRx r)
    (hsum : sum.length = crcLen hc)
    (hcontent : r.content s.cfg.capRx = messageBody hv version command data ++ (sum ++ 0 :: rest)) :
    ∃ e, e.content s.cfg.capRx = rest ∧ e.mem = r.mem ∧ deliver hv hc data.length r s =
      if sum = checksumBytes s.cfg.crc hc (messageBody hv version command data)
      then finish .rx (.num data.length) { s.latch hv version command data e with outValid := true }
      else raise .rx .checksumMismatch (s.latch hv version command data e) := by
  have hbody := Ring.memRead_of_content hcontent
  obtain ⟨r₁, hr₁, hok₁, hc₁, hmem₁, hversion⟩ : ∃ r₁, (if hv then r.popFront s.cfg.capRx else r) = r₁
      ∧ Ring.Ok s.cfg.capRx r₁ ∧ r₁.content s.cfg.capRx = command :: (data ++ (sum ++ 0 :: rest)) ∧ r₁.mem = r.mem
      ∧ (if hv then r.front else s.outVersion) = if hv then version else s.outVersion := by
    cases hv with
    | false => exact ⟨r, rfl, h, hcontent, rfl, rfl⟩
    | true =>
      exact ⟨_, rfl, h.popFront, Ring.content_popFront_of_content hcontent, rfl, Ring.front_of_content h hcontent⟩
  have hc₂ := Ring.content_popFront_of_content hc₁
  obtain ⟨r₃, hr₃⟩ : ∃ r₃, (r₁.popFront s.cfg.capRx).popMany s.cfg.capRx data.length = r₃ := ⟨_, rfl⟩
  have hok₃ : Ring.Ok s.cfg.capRx r₃ := hr₃ ▸ hok₁.popFront.popMany _
  have hmem₃ : r₃.mem = r.mem := by rw [← hr₃, Ring.mem_popMany]; exact hmem₁
  have hc₃ : r₃.content s.cfg.capRx = sum ++ 0 :: rest := by
    rw [← hr₃, Ring.content_popMany, hc₂, List.drop_left]
  rw [length_messageBody] at hbody
  simp only [deliver, hbody, hr₁, hversion, Ring.front_of_content hok₁ hc₁, Ring.memRead_of_content hc₂, hr₃]
  cases hc with
  | false =>
    obtain rfl : sum = [] := List.eq_nil_of_length_eq_zero hsum
    exact ⟨_, Ring.content_popFront_of_content hc₃, hmem₃, rfl⟩
  | true =>
    obtain ⟨hi, lo, rfl⟩ := List.length_eq_two.1 hsum
    have hc₄ := Ring.content_popFront_of_content hc₃
    have hc₅ := Ring.content_popFront_of_content hc₄
    refine ⟨_, Ring.content_popFront_of_content hc₅, hmem₃, ?_⟩
    rw [Ring.front_of_content hok₃ hc₃, Ring.front_of_content hok₃.popFront hc₄]
    have hmatch : [hi, lo] = checksumBytes s.cfg.crc true (messageBody hv version command data)
        ↔ hi = hiByte (crc16 s.cfg.crc (messageBody hv version command data))
          ∧ lo = loByte (crc16 s.cfg.crc (messageBody hv version command data)) := by simp [checksumBytes, bytes16]
    simp only [hmatch, true_and, ne_eq, ← not_and_or, ite_not]
    rfl

/-- `FRM.RECV` of an open half on a content that begins with a frame. -/
theorem exec_frmRecv_decodes {hv hc : Bool} {dstCap : Nat} {version command : Byte} {data sum : List Byte} (hs : s.Inv)
    (hopen : s.rxClosed = false) (hdst : s.cfg.capRx ≤ dstCap + frameOverhead hv hc) (hsum : sum.length = crcLen hc)
    (hd : Decodes (s.content .rx) (messageBody hv version command data ++ sum) rest) :
    ∃ e, e.content s.cfg.capRx = rest
      ∧ KeepsOffChain (s.content .rx) (data.length + frameOverhead hv hc) s.cfg.capRx s.rxb e
      ∧ exec (.frmRecv hv hc dstCap) s =
        if sum = checksumBytes s.cfg.crc hc (messageBody hv version command data)
        then finish .rx (.num data.length) { s.latch hv version command data e with outValid := true }
        else raise .rx .checksumMismatch { s.latch hv version command data e with outValid := false } := by
  have hlen : (messageBody hv version command data ++ sum).length = data.length + (hdr hv + crcLen hc) := by
    rw [List.length_append, length_messageBody, hsum]; omega
  have hpos := one_le_hdr hv
  have hroom := hd.length_lt
  rw [State.length_content] at hroom
  obtain ⟨r, hr, hok, hcontent, hkeeps⟩ := cobsDecode_decodes (hs.ring .rx) hd (by
    rw [← List.length_pos_iff, hlen]; omega)
  rw [List.append_assoc] at hcontent
  obtain ⟨e, he, hmem, hdeliver⟩ := deliver_eq (s := { s with outValid := false }) hok hsum hcontent
  refine ⟨e, he, fun a ha => ?_, ?_⟩
  · rw [hmem]
    refine hkeeps a fun k hk => ha k ?_
    rw [hlen] at hk
    simp only [frameOverhead]; omega
  · refine (whenOpen_accepts (State.accepts_rx.2 hopen) _).trans ?_
    rw [receive, if_neg (by rw [frameOverhead] at hdst; exact Nat.not_lt.2 hdst),
      if_neg (show ¬s.rxb.len < _ by simp only [State.ring_rx] at hroom; omega)]
    rw [State.ring_rx, State.cap_rx] at hr
    simp only [hr, Nat.add_sub_cancel, hlen]
    rw [if_neg (by omega), hdeliver]
    rfl

/-- One byte of a message with checksum, changed anywhere, leaves a message whose checksum is wrong (rule R178 a). -/
theorem exists_wrong_checksum {crc : CrcParams} (hodd : crc.poly.getLsbD 0 = true) {hv : Bool} {version command : Byte}
    {data : List Byte} {j : Nat} (hj : j < (message crc hv true version command data).length) {x : Byte}
    (hx : (message crc hv true version command data)[j] ≠ x) :
    ∃ version' command' data' sum, sum.length = crcLen true
      ∧ (message crc hv true version command data).set j x = messageBody hv version' command' data' ++ sum
      ∧ sum ≠ checksumBytes crc true (messageBody hv version' command' data') := by
  simp only [message_eq] at hj hx ⊢
  by_cases hbody : j < (messageBody hv version command data).length
  · rw [List.getElem_append_left hbody] at hx
    obtain ⟨version', command', data', hset⟩ :=
      exists_messageBody (hv := hv) (m := (messageBody hv version command data).set j x) (by simp)
    refine ⟨version', command', data', _, rfl, by rw [← hset, List.set_append_left _ _ hbody], ?_⟩
    rw [← hset]
    exact fun h => crc16_set_ne hodd hbody hx (bytes16_injective h).symm
  · have hle := Nat.le_of_not_lt hbody
    rw [List.getElem_append_right hle] at hx
    refine ⟨version, command, data, _, by rw [List.length_set]; rfl, List.set_append_right _ _ hle, fun h => hx ?_⟩
    rw [List.length_append] at hj
    exact (List.getElem_of_eq h (by rw [List.length_set]; omega)).symm.trans (List.getElem_set_self _)

end Sys2Proof.Machine

section

open Sys2Proof Sys2Proof.Machine

/-- Settles O41: the chain does not see the byte, so the message decodes with that byte changed, and its checksum is
wrong. -/
theorem oneChangedByteIsDetected : Obligations.OneChangedByteIsDetected := by
  intro hv version command data rest dstCap k x s w hs hopen hcrc hdst hk hoff hx hcontent
  obtain ⟨j, rfl⟩ : ∃ j, k = j + 1 := Nat.exists_eq_succ_of_ne_zero (by rintro rfl; exact hoff .start)
  have hw : w.length = (message CrcParams.dnp hv true version command data).length + 2 := length_cobs _
  have hj : j < (message CrcParams.dnp hv true version command data).length := by omega
  have hfits : (message CrcParams.dnp hv true version command data).length + 2 ≤ 256 := by
    have hlen := congrArg List.length hcontent
    have hle := (hs.ring .rx).len_le
    have hcap := s.cap_le .rx
    rw [State.length_content, List.length_append, List.length_set] at hlen
    omega
  have hframe := decodes_cobs_append hfits rest
  have hoff' : ¬OnChain (w ++ rest) (j + 1) := by rwa [onChain_cobs_append hfits, ← onChain_cobs hfits]
  have hx' : (message CrcParams.dnp hv true version command data)[j] ≠ x := by
    have hkept := hframe.kept j hj hoff'
    rw [List.getElem?_append_left (by rw [length_cobs]; omega), List.getElem?_eq_getElem hj] at hkept
    exact fun hc => hx (by rw [← hkept, hc])
  obtain ⟨version', command', data', sum, hsum, hset, hwrong⟩ := exists_wrong_checksum (by decide) hj hx'
  have hdecodes := hframe.set_offChain hj hoff' x
  rw [hset, List.set_append_left _ _ (by rw [length_cobs]; omega), ← hcontent] at hdecodes
  obtain ⟨e, he, -, hexec⟩ := exec_frmRecv_decodes hs hopen hdst hsum hdecodes
  rw [hcrc, if_neg hwrong, raise_eq] at hexec
  exact ⟨_, hexec, rfl, rfl, he⟩

end
end

section
/-! SUPPORT. `FRM.SEND` (43_frame_codec.md rule R190): the pushes put the message of rule R81 behind the new head, and the
encoder then spreads over one place more on each side. -/

namespace Sys2Proof.Machine

variable {cap : Nat} {r : Ring} {s : State}

/-- Pushes that fit leave the head where it was. -/
theorem Ring.head_pushAll_room {bs : List Byte} (hr : r.len + bs.length ≤ cap) : (r.pushAll cap bs).head = r.head := by
  induction bs generalizing r with
  | nil => rfl
  | cons x bs ih =>
    rw [List.length_cons] at hr
    have hroom : r.len < cap := by omega
    have hlen : (r.pushBack cap x).len = r.len + 1 := by rw [Ring.len_pushBack, if_pos hroom]
    refine (ih (r := r.pushBack cap x) (by omega)).trans ?_
    rw [Ring.pushBack, if_pos hroom]

theorem length_checksumBytes (crc : CrcParams) (hc : Bool) (body : List Byte) :
    (checksumBytes crc hc body).length = crcLen hc := by
  cases hc <;> rfl

theorem length_message_add_two (crc : CrcParams) (hv hc : Bool) (version command : Byte) (data : List Byte) :
    (message crc hv hc version command data).length + 2 = data.length + frameOverhead hv hc := by
  rw [message_eq, List.length_append, length_messageBody, length_checksumBytes, frameOverhead]
  omega

/-- On an empty buffer with room the pushes of rule R190 push the whole message. -/
theorem buildMessage_eq_pushAll {hv hc : Bool} {version command : Byte} {data : List Byte} (h : Ring.Ok cap r)
    (hr : r.len = 0) (crc : CrcParams) (hfit : data.length + frameOverhead hv hc ≤ cap) :
    buildMessage cap crc hv hc version command data r
      = r.pushAll cap (message crc hv hc version command data) := by
  have hbody : ((if hv then r.pushBack cap version else r).pushBack cap command).pushAll cap data
      = r.pushAll cap (messageBody hv version command data) := by
    cases hv <;> rfl
  have hcontent := Ring.content_pushAll_room (bs := messageBody hv version command data) h (by
    rw [length_messageBody]; simp only [frameOverhead] at hfit; omega)
  rw [Ring.content_nil hr, List.nil_append] at hcontent
  have hread := Ring.memRead_of_content (ys := []) (by simpa using hcontent)
  rw [length_messageBody] at hread
  rw [message_eq, buildMessage, hbody, hread, Ring.pushAll, Ring.pushAll, List.foldl_append]
  cases hc <;> rfl

/-- Encoding a message that was pushed onto an empty buffer: the content is the encoding, and of the storage only places of
the content change. -/
theorem cobsEncode_pushAll {m : List Byte} (h : Ring.Ok cap r) (hr : r.len = 0) (hm : m ≠ [])
    (hfit : m.length + 2 ≤ cap) :
    ∃ e, cobsEncode cap (r.pushAll cap m) = .done (m.length + 2) e ∧ e.content cap = cobs m
      ∧ ∀ a, (∀ k, k < e.len → e.phys cap k ≠ a) → Memory.read e.mem a = Memory.read r.mem a := by
  have hcontent := Ring.content_pushAll_room (bs := m) h (by omega)
  rw [Ring.content_nil hr, List.nil_append] at hcontent
  have hlen := congrArg List.length hcontent
  rw [Ring.length_content] at hlen
  have hpos := List.length_pos_of_ne_nil hm
  obtain ⟨e, he, -, hcobs, hhead, hstorage⟩ := cobsEncode_done (h.pushAll m) (by omega) (by omega)
  rw [hlen] at he
  rw [hcontent] at hcobs
  refine ⟨e, he, hcobs, fun a ha => (hstorage a ha).trans (Ring.read_pushAll h m fun j hj => ?_)⟩
  have helen : e.len = m.length + 2 := by rw [← Ring.length_content (cap := cap), hcobs, length_cobs]
  have hphys : e.phys cap (j + 1) = r.phys cap (r.len + j) := calc
    e.phys cap (j + 1) = ((r.pushAll cap m).pushFront cap 0).phys cap (j + 1) := by
      rw [Ring.phys, Ring.phys, hhead]; rfl
    _ = (r.pushAll cap m).phys cap j := Ring.phys_pushFront_succ (h.pushAll m) 0 j
    _ = r.phys cap (r.len + j) := by
      rw [Ring.phys, Ring.phys, Ring.head_pushAll_room (by omega), hr, Nat.zero_add]
  rw [← hphys]
  exact ha (j + 1) (by omega)

/-- `FRM.SEND` with a payload that fits. -/
theorem exec_frmSend {hv hc : Bool} {version command : Byte} {data : List Byte} (hs : s.Inv)
    (hfit : data.length + frameOverhead hv hc ≤ s.cfg.capTx) :
    ∃ e, e.content s.cfg.capTx = cobs (message s.cfg.crc hv hc version command data)
      ∧ (∀ a, (∀ k, k < e.len → e.phys s.cfg.capTx k ≠ a) → Memory.read e.mem a = Memory.read s.txb.mem a)
      ∧ exec (.frmSend hv hc version command data) s
        = finishRing .tx e (.num (data.length + frameOverhead hv hc)) (s.afterDraw .tx) := by
  have hclear := hs.txb.clear (hs.drawnHead_lt .tx)
  have hlen := length_message_add_two s.cfg.crc hv hc version command data
  have hpos := one_le_hdr hv
  obtain ⟨e, he, hcobs, hstorage⟩ := cobsEncode_pushAll (m := message s.cfg.crc hv hc version command data) hclear rfl
    (by rw [← List.length_pos_iff]; simp only [frameOverhead] at hlen; omega) (by omega)
  refine ⟨e, hcobs, hstorage, (if_neg (Nat.not_lt.2 hfit)).trans ?_⟩
  rw [buildMessage_eq_pushAll hclear rfl s.cfg.crc hfit, he, hlen]
  rfl

end Sys2Proof.Machine
end

section
/-! SUPPORT. `FRM.RECV` (43_frame_codec.md rules R195, R196): its course on each branch of the two tests and the decode,
and the two endings that have written the latches. -/

namespace Sys2Proof.Machine

variable {hv hc : Bool} {dstCap : Nat} {s : State} {b : Half} {m rest : List Byte}

/-! The courses. -/

section

variable (hopen : s.rxClosed = false)

include hopen

theorem exec_frmRecv_open :
    exec (.frmRecv hv hc dstCap) s = receive hv hc dstCap { s with outValid := false } :=
  whenOpen_accepts (State.accepts_rx.2 hopen) _

theorem exec_frmRecv_destTooSmall (hdst : dstCap + frameOverhead hv hc < s.cfg.capRx) :
    exec (.frmRecv hv hc dstCap) s = raise .rx .destTooSmall { s with outValid := false } :=
  (exec_frmRecv_open hopen).trans (if_pos hdst)

variable (hdst : s.cfg.capRx ≤ dstCap + frameOverhead hv hc)

include hdst

theorem exec_frmRecv_tooShort (hlen : s.rxb.len < frameOverhead hv hc) :
    exec (.frmRecv hv hc dstCap) s = raise .rx .tooShort { s with outValid := false } :=
  (exec_frmRecv_open hopen).trans ((if_neg (Nat.not_lt.2 hdst)).trans (if_pos hlen))

variable (hlen : frameOverhead hv hc ≤ s.rxb.len)

include hlen

/-- A failed decode ends the operation with its failure. -/
theorem exec_frmRecv_failed {f : Status} {e : Ring} (hdec : cobsDecode s.cfg.capRx s.rxb = .failed f e) :
    exec (.frmRecv hv hc dstCap) s = raise .rx f { s with outValid := false, rxb := e } := by
  refine (exec_frmRecv_open hopen).trans ((if_neg (Nat.not_lt.2 hdst)).trans ((if_neg (Nat.not_lt.2 hlen)).trans ?_))
  rw [hdec]

/-- A message without room for its header and checksum is dropped with its terminator. -/
theorem exec_frmRecv_frameTooShort {n : Nat} {e : Ring} (hdec : cobsDecode s.cfg.capRx s.rxb = .done (n + 1) e)
    (hn : n < hdr hv + crcLen hc) :
    exec (.frmRecv hv hc dstCap) s
      = raise .rx .frameTooShort { s with outValid := false, rxb := e.popMany s.cfg.capRx (n + 1) } := by
  refine (exec_frmRecv_open hopen).trans ((if_neg (Nat.not_lt.2 hdst)).trans ((if_neg (Nat.not_lt.2 hlen)).trans ?_))
  rw [hdec]
  exact if_pos hn

end

theorem three_le_frameOverhead (hv hc : Bool) : 3 ≤ frameOverhead hv hc := by cases hv <;> cases hc <;> decide

/-! The endings. -/

theorem raise_onlyRxFailure (f : Status) (e : Ring) (s : State) :
    ∃ t, raise .rx f { s with outValid := false, rxb := e } = .next t ∧ OnlyRxFailure s t ∧ t.resRx.status = f
      ∧ t.rxb = e ∧ t.content .rx = e.content s.cfg.capRx :=
  ⟨_, rfl, rfl, rfl, rfl, rfl⟩

/-- The latches of `State.latch`, whatever the ending writes besides. -/
theorem latched_latch (hs : s.Inv) (hv : Bool) (version command : Byte) (data : List Byte) (e : Ring) (valid : Bool)
    (res : Res) (free : Nat) :
    Latched hv version command data s
      { s.latch hv version command data e with outValid := valid, resRx := res, freeRx := free } where
  isVersion := rfl
  isCommand := rfl
  isLen     := rfl
  isData    := Memory.readSeq_writeSeq hs.outWf 0 data
  others a ha := (Memory.read_writeSeq hs.outWf 0 data a).trans (if_neg (by omega))

/-! Frames in a buffer. -/

/-- What is left when a message of any length, the empty one too, is dropped with its terminator. -/
theorem cobsDecode_dropped {cap : Nat} {r : Ring} (h : Ring.Ok cap r) (h3 : 3 ≤ r.len)
    (hd : Decodes (r.content cap) m rest) :
    ∃ e, cobsDecode cap r = .done (m.length + 1) e ∧ (e.popMany cap (m.length + 1)).content cap = rest
      ∧ KeepsOffChain (r.content cap) (m.length + 1) cap r (e.popMany cap (m.length + 1)) := by
  obtain ⟨e, he, hw⟩ := cobsDecode_done h h3 (Nat.succ_pos _) hd.lands hd.zero
  refine ⟨_, he, ?_, (hw.keepsOffChain.popMany 1).popMany _⟩
  rw [Ring.content_popMany, Ring.content_popFront, ← List.drop_one, List.drop_drop, hd.rest]
  refine List.ext_getElem? fun k => ?_
  rw [List.getElem?_drop, List.getElem?_drop, hw.content_kept (.inl (by omega))]
  congr 1
  omega

/-- An encoding at the front of a buffer is that of a message that fits it, hence a frame of that message. -/
theorem State.Inv.decodes_cobs (hs : s.Inv) (h : s.content b = cobs m ++ rest) : Decodes (s.content b) m rest := by
  have hle := (hs.ring b).len_le
  have hcap := s.cap_le b
  rw [← State.length_content, h, List.length_append, length_cobs] at hle
  rw [h]
  exact decodes_cobs_append (by omega) rest

/-- The chain of an encoding without its last bytes leaves it: the only zero is the terminator behind it. -/
theorem exists_onChain_of_truncated (hs : s.Inv) (hm : m.length + 2 ≤ 256) {suffix : List Byte}
    (hsuffix : suffix ≠ []) (h : cobs m = s.content b ++ suffix) (hne : s.content b ≠ []) :
    ∃ q, OnChain (s.content b) q ∧ (s.content b).length ≤ q := by
  obtain ⟨q, hq, hend⟩ := exists_chain_end (hs.ring b) (State.content_eq_nil.not.1 hne)
  refine ⟨q, hq, hend.elim (fun (hzero : (s.content b)[q]? = some 0) => ?_) fun hlen => by rwa [State.length_content]⟩
  have hlt := (List.getElem?_eq_some_iff.1 hzero).1
  have hlast : q = m.length + 1 :=
    (getElem?_cobs_eq_zero_iff hm).1 (by rw [h, List.getElem?_append_left hlt, hzero])
  have hlen := congrArg List.length h
  have hpos := List.length_pos_of_ne_nil hsuffix
  rw [length_cobs, List.length_append] at hlen
  omega

end Sys2Proof.Machine

section

open Sys2Proof Sys2Proof.Machine

/-- Settles O42, by the course of `FRM.SEND` on each side of the maximum. -/
theorem sendBuildsTheFrame : Obligations.SendBuildsTheFrame := by
  refine fun hv hc version command data => ⟨rfl, fun s hs => ⟨fun hlarge => ?_, fun hfit => ?_⟩⟩
  · rw [show exec (.frmSend hv hc version command data) s = raise .tx .payloadTooLarge s from if_pos hlarge]
    exact raise_failsUnchanged ..
  · obtain ⟨e, hcobs, hstorage, hexec⟩ := exec_frmSend (version := version) (command := command) hs hfit
    obtain ⟨t, ht, honly, hres, rfl, hcontent⟩ :=
      finishRing_onlyBuffer .tx e (.num (data.length + frameOverhead hv hc)) (s.afterDraw .tx)
    rw [State.afterDraw_cap] at hcontent
    refine ⟨t, hexec.trans ht, honly, hres, fun hfull => ?_, hcontent.trans hcobs, hstorage⟩
    rw [← hfull, ← length_message_add_two s.cfg.crc hv hc version command data, ← length_cobs, ← hcobs,
      Ring.length_content]
    rfl

/-- Settles O43: the checksum is the right one, so the ending behind the latches is the good one. -/
theorem recvDeliversTheFrame : Obligations.RecvDeliversTheFrame := by
  refine fun hv hc dstCap => ⟨rfl, fun version command data rest s hs hopen hdst hd => ?_⟩
  obtain ⟨e, he, hkeeps, hexec⟩ := exec_frmRecv_decodes hs hopen hdst (length_checksumBytes ..) hd
  exact ⟨_, hexec.trans (if_pos rfl), rfl, rfl, latched_latch hs .., he, hkeeps⟩

/-- Settles O44: each failure by its course, with the decoder's failures by where the chain leads. -/
theorem recvFailuresLeaveWhatTheTableSays : Obligations.RecvFailuresLeaveWhatTheTableSays := by
  refine fun hv hc dstCap s => ⟨fun hclosed => ?_, fun hopen hsmall => ?_, fun hs hopen hdst => ⟨fun hshort => ?_,
    fun hlen => ?_⟩⟩
  · rw [show exec (.frmRecv hv hc dstCap) s = raise .rx .closed s from whenOpen_closed hclosed _]
    exact raise_failsUnchanged ..
  · rw [exec_frmRecv_destTooSmall hopen hsmall]
    exact raise_failsUnchanged ..
  · rw [exec_frmRecv_tooShort hopen hdst (by simpa using hshort)]
    exact raise_failsUnchanged ..
  · rw [State.length_content] at hlen
    have h3 : 3 ≤ s.rxb.len := (three_le_frameOverhead hv hc).trans hlen
    refine ⟨fun q hon hq => ?_, fun xs hxs => ?_, fun m rest hd hm => ?_, ?_⟩
    · obtain ⟨e, he, hw⟩ := cobsDecode_noTerminator hs.rxb h3 hon (by simpa using hq)
      obtain ⟨t, ht, honly, hstatus, rfl, hcontent⟩ := raise_onlyRxFailure .noTerminator e s
      refine ⟨t, (exec_frmRecv_failed hopen hdst hlen he).trans ht, honly, hstatus, ?_, fun k hk hk' => ?_,
        fun k hk => ?_, fun a ha => ?_⟩
      · rw [hcontent]; exact hw.length_content
      · rw [hcontent]; exact hw.content_zeroed (.inr hq) hk hk'
      · rw [hcontent]; exact hw.content_kept (.inr hk)
      · exact hw.storage a fun k _ hk => ha k (by simpa using hk)
    · have h0 : s.rxb.get s.cfg.capRx 0 = 0 := by
        rw [Ring.get_eq_getElem (by omega)]
        exact List.getElem_of_eq hxs _
      obtain ⟨t, ht, honly, hstatus, hring, hcontent⟩ :=
        raise_onlyRxFailure .emptyFrame (s.rxb.popFront s.cfg.capRx) s
      refine ⟨t, (exec_frmRecv_failed hopen hdst hlen (cobsDecode_emptyFrame h3 h0)).trans ht, honly, hstatus,
        hcontent.trans (Ring.content_popFront_of_content hxs), fun a => by rw [hring]; rfl⟩
    · obtain ⟨e, he, hrest, hkeeps⟩ := cobsDecode_dropped hs.rxb h3 hd
      obtain ⟨t, ht, honly, hstatus, hring, hcontent⟩ :=
        raise_onlyRxFailure .frameTooShort (e.popMany s.cfg.capRx (m.length + 1)) s
      exact ⟨t, (exec_frmRecv_frameTooShort hopen hdst hlen he hm).trans ht, honly, hstatus, hcontent.trans hrest,
        by rw [hring]; exact hkeeps⟩
    · rintro version command hi lo data rest rfl hd hwrong
      obtain ⟨e, he, hkeeps, hexec⟩ := exec_frmRecv_decodes hs hopen hdst rfl hd
      exact ⟨_, hexec.trans (if_neg hwrong), rfl, rfl, latched_latch hs .., he, hkeeps⟩

/-- Settles O45: what `FRM.SEND` leaves is a frame at the front of the other buffer, with the checksum that the receiver
computes. -/
theorem framesSurviveTheRoundTrip : Obligations.FramesSurviveTheRoundTrip := by
  intro hv hc version command data s hs hfit
  obtain ⟨t, ht, -, hres, -, hframe, -⟩ := ((sendBuildsTheFrame hv hc version command data).2 s hs).2 hfit
  refine ⟨t, ht, by rw [show t.resTx = _ from hres], fun r rest dstCap hr hopen hcrc hdst hcontent => ?_⟩
  rw [hframe, ← hcrc] at hcontent
  obtain ⟨u, hu, hvalid, hresu, hlatched, hrest, -⟩ :=
    (recvDeliversTheFrame hv hc dstCap).2 version command data rest r hr hopen hdst (hr.decodes_cobs hcontent)
  exact ⟨u, hu, hresu, fun h => hlatched.isVersion.trans (if_pos h), hlatched.isCommand, hlatched.isLen,
    hlatched.isData, by rw [hvalid], hrest⟩

/-- Settles O46: O43 twice, the second time on what the first leaves. -/
theorem framesArriveInOrder : Obligations.FramesArriveInOrder := by
  intro hv hc dstCap v₁ c₁ v₂ c₂ d₁ d₂ rest s hs hopen hdst hcontent
  have hrecv := (recvDeliversTheFrame hv hc dstCap).2
  rw [List.append_assoc] at hcontent
  obtain ⟨t, ht, hstate, hres, hlatched, hleft, -⟩ := hrecv v₁ c₁ d₁ _ s hs hopen hdst (hs.decodes_cobs hcontent)
  have hinv := exec_keepsInv hs ht
  have hcfg := exec_cfg ht
  rw [← hcfg] at hleft hdst
  obtain ⟨u, hu, hstate', hres', hlatched', hleft', -⟩ :=
    hrecv v₂ c₂ d₂ rest t hinv ((congrArg State.rxClosed hstate).trans hopen) hdst (hinv.decodes_cobs hleft)
  exact ⟨t, u, ht, hu, by rw [hres], congrArg State.outValid hstate, hlatched, by rw [hres'],
    congrArg State.outValid hstate', hlatched', hleft'⟩

/-- Settles O47, by the failures `TooShort` and `NoTerminator` of O44. -/
theorem truncatedFramesAreNotDelivered : Obligations.TruncatedFramesAreNotDelivered := by
  intro hv hc dstCap s hs hopen hdst
  obtain ⟨hshort, hlong⟩ := (recvFailuresLeaveWhatTheTableSays hv hc dstCap s).2.2 hs hopen hdst
  refine ⟨fun hlen => ?_, fun m suffix hm hsuffix hcobs hlen => ?_⟩
  · obtain ⟨t, ht, hstatus, hsame⟩ := hshort hlen
    exact ⟨t, ht, hstatus, (congrArg State.rxb hsame).trans rfl⟩
  · have h3 := (three_le_frameOverhead hv hc).trans hlen
    obtain ⟨q, hon, hq⟩ :=
      exists_onChain_of_truncated hs hm hsuffix hcobs (List.ne_nil_of_length_pos (by omega))
    obtain ⟨t, ht, honly, hstatus, hkept, -⟩ := (hlong hlen).1 q hon hq
    exact ⟨t, ht, hstatus, congrArg State.outValid honly, hkept⟩

end
end

section
/-! SUPPORT. The packers and the unpackers (44_register_packers.md rules R212 to R218): what each answers for every
payload and destination, and that the bytes of a number, put together again, are the number. -/

namespace Sys2Proof.Machine

variable {s : State} {p : List Byte}

/-! The bytes of a number. -/

theorem hiByte_append_loByte (v : BitVec 16) : hiByte v ++ loByte v = v :=
  (append_eq_iff_extractLsb' (hiByte v) (loByte v) v).2 ⟨rfl, rfl⟩

theorem append_bytes32 (v : BitVec 32) :
    v.extractLsb' 24 8 ++ v.extractLsb' 16 8 ++ v.extractLsb' 8 8 ++ v.extractLsb' 0 8 = v := by
  iterate 3 rw [BitVec.extractLsb'_append_extractLsb'_eq_extractLsb' (by rfl)]
  exact BitVec.extractLsb'_eq_self

/-! The answers. -/

/-- What every packer answers: its payload, where the destination holds it. -/
theorem answerWith_packed (payload : List Byte) (dstCap : Nat) (s : State) :
    answerWith (packed payload dstCap) s = .next (s.answered
      (if dstCap < payload.length then Reply.bad .destTooSmall else Reply.good (.bytes payload))) := by
  rw [answerWith_eq, packed]
  split_ifs <;> rfl

theorem exec_unpkReadReq_two (x₁ x₀ : Byte) (s : State) :
    exec (.unpkReadReq [x₁, x₀]) s = .next (s.answered (Reply.good (.reg (x₁ ++ x₀)))) := by
  rw [← regOf_cons_cons x₁ x₀ []]
  rfl

theorem exec_unpkReadReq_malformed (h : p.length ≠ 2) :
    exec (.unpkReadReq p) s = .next (s.answered (Reply.bad .malformedPayload)) := by
  refine (answerWith_eq _ s).trans ?_
  rw [if_neg h]

theorem exec_unpkRegval_some {reg : BitVec 16} {value : BitVec 32} (h : unpackRegVal p = some (reg, value)) :
    exec (.unpkRegval p) s = .next (s.answered (Reply.good (.regVal reg value))) := by
  refine (answerWith_eq _ s).trans ?_
  rw [h]

theorem exec_unpkRegval_none (h : unpackRegVal p = none) :
    exec (.unpkRegval p) s = .next (s.answered (Reply.bad .malformedPayload)) := by
  refine (answerWith_eq _ s).trans ?_
  rw [h]

theorem exec_unpkAck_some {reg : BitVec 16} (h : unpackAck s.cfg.ackLengths p = some reg) :
    exec (.unpkAck p) s = .next (s.answered (Reply.good (.reg reg))) := by
  refine (answerWith_eq _ s).trans ?_
  rw [h]

theorem exec_unpkAck_none (h : unpackAck s.cfg.ackLengths p = none) :
    exec (.unpkAck p) s = .next (s.answered (Reply.bad .malformedPayload)) := by
  refine (answerWith_eq _ s).trans ?_
  rw [h]

/-! What the unpackers read from a packed payload. -/

theorem unpackRegVal_write8Payload (reg : BitVec 16) (v8 : Byte) :
    unpackRegVal (write8Payload reg v8) = some (reg, v8.setWidth 32) := by
  have h := unpackRegVal_three (hiByte reg) (loByte reg) v8
  rwa [hiByte_append_loByte] at h

theorem unpackRegVal_write32Payload (reg : BitVec 16) (v32 : BitVec 32) :
    unpackRegVal (write32Payload reg v32) = some (reg, v32) := by
  have h := unpackRegVal_six (hiByte reg) (loByte reg) (v32.extractLsb' 24 8) (v32.extractLsb' 16 8)
    (v32.extractLsb' 8 8) (v32.extractLsb' 0 8)
  rwa [hiByte_append_loByte, append_bytes32] at h

/-- An acknowledgement repeats the register number; the bytes behind it do not matter. -/
theorem unpackAck_bytes16_append {lengths : List Nat} (reg : BitVec 16) (h : p.length + 2 ∈ lengths) :
    unpackAck lengths (bytes16 reg ++ p) = some reg := by
  have hread := unpackAck_cons_cons (x₁ := hiByte reg) (x₀ := loByte reg) h
  rwa [hiByte_append_loByte] at hread

end Sys2Proof.Machine

section

open Sys2Proof Sys2Proof.Machine

/-- Settles O50: the bytes of the register number and of the value, put together again, are the number and the value. -/
theorem unpackingUndoesPacking : Obligations.UnpackingUndoesPacking := by
  intro reg v8 v32 s
  refine ⟨?_, exec_unpkRegval_some (unpackRegVal_write8Payload reg v8),
    exec_unpkRegval_some (unpackRegVal_write32Payload reg v32),
    fun hlengths p hp => exec_unpkAck_some ?_, rfl, rfl, rfl⟩
  · have h := exec_unpkReadReq_two (hiByte reg) (loByte reg) s
    rwa [hiByte_append_loByte] at h
  · obtain ⟨rest, rfl, hrest⟩ : ∃ rest, p = bytes16 reg ++ rest ∧ rest.length + 2 ∈ [2, 3, 6] := by
      simp only [List.mem_cons, List.not_mem_nil, or_false] at hp
      obtain rfl | rfl | rfl := hp
      · exact ⟨[], rfl, by decide⟩
      · exact ⟨[v8], rfl, by simp⟩
      · exact ⟨bytes32 v32, rfl, by simp [bytes32]⟩
    exact unpackAck_bytes16_append reg (hlengths ▸ hrest)

/-- Settles O48: the packers by what `packed` answers, the unpackers by what each reads from a payload of its length. -/
theorem packersAndUnpackersFollowTheLayout : Obligations.PackersAndUnpackersFollowTheLayout := by
  refine ⟨fun reg v8 v32 dstCap s => ?_, fun x₁ x₀ s => ?_⟩
  · exact ⟨rfl, rfl, rfl, answerWith_packed (readReqPayload reg) dstCap s,
      answerWith_packed (write8Payload reg v8) dstCap s, answerWith_packed (write32Payload reg v32) dstCap s⟩
  · exact ⟨fun _ => ⟨rfl, rfl, rfl⟩,
      exec_unpkReadReq_two x₁ x₀ s,
      fun _ => exec_unpkReadReq_malformed,
      fun v => exec_unpkRegval_some (unpackRegVal_three x₁ x₀ v),
      fun v₃ v₂ v₁ v₀ => exec_unpkRegval_some (unpackRegVal_six x₁ x₀ v₃ v₂ v₁ v₀),
      fun _ h₃ h₆ => exec_unpkRegval_none (unpackRegVal_none h₃ h₆),
      fun _ hlen => exec_unpkAck_some (unpackAck_cons_cons hlen),
      fun _ hlen => exec_unpkAck_none (unpackAck_none hlen)⟩

end
end

section
/-! SUPPORT. The class of a command byte (45_router.md rule R230), and when an operation waits: the two transports (log
entry 14) and the router on a full queue (rule R240, log entry 15). -/

namespace Sys2Proof.Machine

variable {s : State} {cmd : Byte}

/-! Classes. -/

theorem classify_reserved (h₃ : 3 ≤ cmd.toNat) (h : cmd.toNat ≤ 0x7F) : classify cmd = .reserved := by
  rw [classify, if_neg (by bv_omega), if_neg (by bv_omega), if_neg (by bv_omega), if_pos h]

theorem classify_stream (h : 0x80 ≤ cmd.toNat) : classify cmd = .stream := by
  rw [classify, if_neg (by bv_omega), if_neg (by bv_omega), if_neg (by bv_omega), if_neg (by omega)]

/-- Every command byte is one of the three named ones or lies in one of the two ranges. -/
theorem commandByte_cases (cmd : Byte) :
    cmd = 0x00 ∨ cmd = 0x01 ∨ cmd = 0x02 ∨ (3 ≤ cmd.toNat ∧ cmd.toNat ≤ 0x7F) ∨ 0x80 ≤ cmd.toNat := by
  bv_omega

/-! Waiting. -/

theorem isSome_unpackRegVal {p : List Byte} : (unpackRegVal p).isSome = true ↔ p.length = 3 ∨ p.length = 6 := by
  rw [unpackRegVal]
  split_ifs with h <;> simp [h]

theorem isSome_unpackAck {lengths : List Nat} {p : List Byte} :
    (unpackAck lengths p).isSome = true ↔ p.length ∈ lengths := by
  rw [unpackAck]
  split_ifs with h <;> simp [h]

theorem extendWaits_iff : extendWaits s = true ↔ s.rxClosed = false ∧ s.rxReads = [] := by simp [extendWaits]

theorem drainWaits_iff : drainWaits s = true ↔ s.content .tx ≠ [] ∧ s.txWrites = [] := by
  simp [drainWaits, State.content_eq_nil]

theorem targetFull_unbounded (h : s.cfg.qDepth = none) (cls : CmdClass) : targetFull cls s = false := by
  cases cls <;> simp [targetFull, noRoom, h]

/-- For which frames the router finds its queue full. -/
theorem targetFull_classify : targetFull (classify s.outCommand) s = true ↔
    ∃ d, s.cfg.qDepth = some d ∧
      ((s.outCommand = 0x01 ∧ (s.payload.length = 3 ∨ s.payload.length = 6) ∧ d ≤ s.rdq.length)
        ∨ (s.outCommand = 0x02 ∧ s.payload.length ∈ s.cfg.ackLengths ∧ d ≤ s.waq.length)
        ∨ (0x80 ≤ s.outCommand.toNat ∧ d ≤ s.stq.length)) := by
  cases hq : s.cfg.qDepth with
  | none => simp [targetFull_unbounded hq]
  | some d =>
    rcases commandByte_cases s.outCommand with h | h | h | ⟨h₃, h⟩ | h
    · simp [h, classify, targetFull]
    · simp [h, classify, targetFull, noRoom, hq, isSome_unpackRegVal]
    · simp [h, classify, targetFull, noRoom, hq, isSome_unpackAck]
    · have h₁ : s.outCommand ≠ 1#8 := by bv_omega
      have h₂ : s.outCommand ≠ 2#8 := by bv_omega
      simp [classify_reserved h₃ h, targetFull, h₁, h₂, show ¬0x80 ≤ s.outCommand.toNat by omega]
    · have h₁ : s.outCommand ≠ 1#8 := by bv_omega
      have h₂ : s.outCommand ≠ 2#8 := by bv_omega
      simp [classify_stream h, targetFull, noRoom, hq, h₁, h₂, h]

/-! An operation that waits changes nothing. -/

theorem exec_rbExtend_waits (h : extendWaits s = true) : exec (.rbExtend .rx) s = .next s := by
  obtain ⟨hopen, hreads⟩ := extendWaits_iff.1 h
  refine (whenOpen_accepts (State.accepts_rx.2 hopen) _).trans ?_
  rw [hreads]

theorem exec_rbDrain_waits (h : drainWaits s = true) : exec (.rbDrain .tx) s = .next s := by
  obtain ⟨hcontent, hwrites⟩ := drainWaits_iff.1 h
  refine (if_neg (mt State.content_eq_nil.2 hcontent)).trans ?_
  rw [hwrites]

theorem route_waits {cls : CmdClass} (h : routeWaits cls s = true) (cmd : Byte) : route cls cmd s = .next s := by
  simp only [routeWaits, Bool.and_eq_true, Bool.not_eq_true'] at h
  obtain ⟨⟨hopen, hvalid⟩, hfull⟩ := h
  rw [route, whenOpen_accepts (State.accepts_rx.2 hopen), if_neg (by simp [hvalid]), if_pos hfull]

theorem exec_waits {i : Instr} (h : waits i s = true) : exec i s = .next s := by
  unfold waits at h
  split at h
  · exact exec_rbExtend_waits h
  · exact exec_rbDrain_waits h
  · exact route_waits h _
  · exact route_waits h _
  · exact route_waits h _
  · exact route_waits h _
  · cases h

/-- The operations of format OP that can wait. -/
theorem waits_op {i : Instr} (hf : i.format = .op) (h : waits i s = true) :
    i = .rbExtend .rx ∨ i = .rbDrain .tx ∨ i = .rtRoute := by
  unfold waits at h
  split at h
  · exact .inl rfl
  · exact .inr (.inl rfl)
  · exact .inr (.inr rfl)
  iterate 3 · cases hf
  · cases h

end Sys2Proof.Machine

section

open Sys2Proof Sys2Proof.Machine

/-- Settles O10: each operation that waits by its course, and the router's queue by the class of the command byte. -/
theorem waitingChangesNothing : Obligations.WaitingChangesNothing := by
  refine ⟨fun _ _ => exec_waits, fun s => ⟨extendWaits_iff, fun hopen hreads => ?_⟩,
    fun s => ⟨drainWaits_iff, fun hcontent hwrites => ?_⟩, fun _ _ => waits_op, fun s hopen hvalid => ?_⟩
  · exact exec_rbExtend_waits (extendWaits_iff.2 ⟨hopen, hreads⟩)
  · exact exec_rbDrain_waits (drainWaits_iff.2 ⟨hcontent, hwrites⟩)
  · simpa [waits, routeWaits, hopen, hvalid] using targetFull_classify

/-- Settles O51: each byte and each range by its branch of the classifier. -/
theorem classifyCoversAllCommandBytes : Obligations.ClassifyCoversAllCommandBytes := by
  refine fun cmd s => ⟨rfl, classify cmd, rfl, ?_, ?_, ?_, fun h₃ h => ?_, fun h => ?_⟩
  · rintro rfl; exact ⟨rfl, rfl⟩
  · rintro rfl; exact ⟨rfl, rfl⟩
  · rintro rfl; exact ⟨rfl, rfl⟩
  · rw [classify_reserved h₃ h]; exact ⟨rfl, rfl⟩
  · rw [classify_stream h]; exact ⟨rfl, rfl⟩

/-- Settles O52: the class of the command byte, then the router's line for that class. -/
theorem routeDispatchesByCommand : Obligations.RouteDispatchesByCommand := by
  refine ⟨rfl, fun s hclosed => ?_, fun s hopen => ?_⟩
  · rw [show exec .rtRoute s = _ from whenOpen_closed hclosed _]
    exact raise_failsUnchanged ..
  intro hasRoom rejects
  have hroute : ∀ {cls k}, classify s.outCommand = cls → route cls s.outCommand s = k → exec .rtRoute s = k := by
    rintro _ _ rfl rfl
    rfl
  have hbyte : ∀ {x : Byte}, s.outCommand.toNat = x.toNat → classify s.outCommand = classify x :=
    fun h => congrArg classify (BitVec.eq_of_toNat_eq h)
  refine ⟨fun hvalid => ?_, fun hvalid => ⟨fun h => ?_, fun h₃ h => ?_, fun h hp₃ hp₆ _ => ?_, fun h hlen _ => ?_,
    fun x₁ x₀ v h hp => ?_, fun x₁ x₀ v₃ v₂ v₁ v₀ h hp => ?_, fun x₁ x₀ p h hp hlen => ?_, fun h => ?_⟩⟩
  · rw [hroute rfl (route_noFrame hopen _ _ hvalid)]
    exact raise_failsUnchanged ..
  · exact hroute (hbyte (x := 0x00) h) (route_unexpected hopen _ _ hvalid (.inl rfl))
  · exact hroute (classify_reserved h₃ h) (route_unexpected hopen _ _ hvalid (.inr rfl))
  · exact hroute (hbyte (x := 0x01) h) (route_registerRead_malformed hopen _ hvalid (unpackRegVal_none hp₃ hp₆))
  · exact hroute (hbyte (x := 0x02) h) (route_registerWrite_malformed hopen _ hvalid (unpackAck_none hlen))
  · exact fun hroom => hroute (hbyte (x := 0x01) h)
      (route_registerRead hopen _ hvalid (hp ▸ unpackRegVal_three x₁ x₀ v) hroom)
  · exact fun hroom => hroute (hbyte (x := 0x01) h)
      (route_registerRead hopen _ hvalid (hp ▸ unpackRegVal_six x₁ x₀ v₃ v₂ v₁ v₀) hroom)
  · exact fun hroom => hroute (hbyte (x := 0x02) h)
      (route_registerWrite hopen _ hvalid (hp ▸ unpackAck_cons_cons (hp ▸ hlen)) hroom)
  · exact fun hroom => hroute (classify_stream h) (route_stream hopen _ hvalid hroom)

end
end

section
/-! SUPPORT. `Q.POP` (45_router.md rule R244): its answer for each queue, empty and not. -/

namespace Sys2Proof.Machine

variable {s : State}

theorem exec_qPop_rdq_nil (h : s.rdq = []) : exec (.qPop 0) s = .next (s.answered (Reply.bad (emptyAnswer s))) := by
  simp only [exec, execQPop, show queueOf 0 = some .rdq from rfl, h, answerWith_eq]

theorem exec_qPop_waq_nil (h : s.waq = []) : exec (.qPop 1) s = .next (s.answered (Reply.bad (emptyAnswer s))) := by
  simp only [exec, execQPop, show queueOf 1 = some .waq from rfl, h, answerWith_eq]

theorem exec_qPop_stq_nil (h : s.stq = []) : exec (.qPop 2) s = .next (s.answered (Reply.bad (emptyAnswer s))) := by
  simp only [exec, execQPop, show queueOf 2 = some .stq from rfl, h, answerWith_eq]

theorem exec_qPop_rdq_cons {reg : BitVec 16} {value : BitVec 32} {es : List (BitVec 16 × BitVec 32)}
    (h : s.rdq = (reg, value) :: es) :
    exec (.qPop 0) s = .next { s.answered (Reply.good (.regVal reg value)) with rdq := es } := by
  simp only [exec, execQPop, show queueOf 0 = some .rdq from rfl, h, answerWith_eq, State.answered]

theorem exec_qPop_waq_cons {reg : BitVec 16} {es : List (BitVec 16)} (h : s.waq = reg :: es) :
    exec (.qPop 1) s = .next { s.answered (Reply.good (.reg reg)) with waq := es } := by
  simp only [exec, execQPop, show queueOf 1 = some .waq from rfl, h, answerWith_eq, State.answered]

theorem exec_qPop_stq_cons {x : Byte} {p : List Byte} {es : List (Byte × List Byte)} (h : s.stq = (x, p) :: es) :
    exec (.qPop 2) s = .next { s.answered (Reply.good (.command x p)) with stq := es } := by
  simp only [exec, execQPop, show queueOf 2 = some .stq from rfl, h, answerWith_eq, State.answered]

end Sys2Proof.Machine

section

open Sys2Proof Sys2Proof.Machine

/-- Settles O55, by the answer of `Q.POP` for each queue; `q = 3` names none. -/
theorem popDeliversTheHeadEntry : Obligations.PopDeliversTheHeadEntry :=
  fun _ => ⟨fun _ => rfl, exec_qPop_rdq_nil, exec_qPop_waq_nil, exec_qPop_stq_nil, fun _ _ _ => exec_qPop_rdq_cons,
    fun _ _ => exec_qPop_waq_cons, fun _ _ _ => exec_qPop_stq_cons, rfl⟩

end
end

section
/-! SUPPORT. The stream functions (45_router.md rules R246, R248): the default layout, the number that a byte sequence
writes, and the samples of a payload. -/

namespace Sys2Proof.Machine

variable {s : State} {cmd : Byte} {p : List Byte} {width : SampleWidth} {w : Nat}

/-! The format. -/

/-- The default layout, over the 256 command bytes. -/
theorem bits_layoutFormat (cmd : Byte) : (layoutFormat cmd).map SampleWidth.bits =
    if cmd.getLsbD 7 = true ∧ cmd.extractLsb' 2 5 = (1 : BitVec 5) ∧ cmd.extractLsb' 0 2 ≠ (0 : BitVec 2) then
      some (4 <<< (cmd.extractLsb' 0 2).toNat)
    else none := by
  decide +revert

theorem exec_stFormat (cmd : Byte) (s : State) : exec (.stFormat cmd) s = .next (s.answered
    (match (streamFormat s.cfg.streamFormat cmd).map SampleWidth.bits with
      | some bits => Reply.good (.format bits 1)
      | none => Reply.bad .unsupportedFormat)) := by
  refine (answerWith_eq _ s).trans ?_
  cases streamFormat s.cfg.streamFormat cmd <;> rfl

/-! The number that a byte sequence writes. -/

theorem bigEndian_append_singleton (p : List Byte) (x : Byte) : bigEndian (p ++ [x]) = bigEndian p * 256 + x.toNat := by
  simp [bigEndian]

theorem bigEndian_lt (p : List Byte) : bigEndian p < 256 ^ p.length := by
  induction p using List.reverseRecOn with
  | nil => decide
  | append_singleton p x ih =>
    have hx : x.toNat < 256 := x.isLt
    rw [bigEndian_append_singleton, List.length_append, List.length_singleton, pow_succ]
    omega

theorem bigEndian_eq_sum (p : List Byte) :
    bigEndian p = ∑ k ∈ Finset.range p.length, (p[k]?.getD 0).toNat * 256 ^ (p.length - 1 - k) := by
  induction p using List.reverseRecOn with
  | nil => rfl
  | append_singleton p x ih =>
    rw [bigEndian_append_singleton, ih, List.length_append, List.length_singleton, Finset.sum_range_succ,
      Finset.sum_mul]
    congr 1
    · refine Finset.sum_congr rfl fun k hk => ?_
      have hk := Finset.mem_range.1 hk
      rw [List.getElem?_append_left hk, show p.length + 1 - 1 - k = p.length - 1 - k + 1 by omega, pow_succ, mul_assoc]
    · simp

/-! The samples. -/

theorem length_samples (w n : Nat) (p : List Byte) : (samples w n p).length = n := by
  induction n generalizing p with
  | zero => rfl
  | succ n ih => rw [samples, List.length_cons, ih]

theorem getElem?_samples {n j : Nat} (hj : j < n) (p : List Byte) :
    (samples w n p)[j]? = some (bigEndian ((p.drop (j * w)).take w)) := by
  induction n generalizing p j with
  | zero => omega
  | succ n ih =>
    cases j with
    | zero => simp [samples]
    | succ j => rw [samples, List.getElem?_cons_succ, ih (by omega), List.drop_drop, Nat.succ_mul, Nat.add_comm]

/-- A sample inside the payload is the sum over its bytes. -/
theorem bigEndian_take_drop {a : Nat} (h : a + w ≤ p.length) :
    bigEndian ((p.drop a).take w) = ∑ k ∈ Finset.range w, (p[a + k]?.getD 0).toNat * 256 ^ (w - 1 - k) := by
  have hlen : ((p.drop a).take w).length = w := by
    rw [List.length_take, List.length_drop]
    omega
  rw [bigEndian_eq_sum, hlen]
  refine Finset.sum_congr rfl fun k hk => ?_
  rw [List.getElem?_take_of_lt (Finset.mem_range.1 hk), List.getElem?_drop]

/-! The answers of `ST.UNPACK`. -/

theorem exec_stUnpack_unsupported (h : streamFormat s.cfg.streamFormat cmd = none) :
    exec (.stUnpack cmd p) s = .next (s.answered (Reply.bad .unsupportedFormat)) := by
  refine (answerWith_eq _ s).trans ?_
  rw [unpackSamples, h]

section

variable (h : streamFormat s.cfg.streamFormat cmd = some width) (hw : 8 * w = SampleWidth.bits width)

include h hw

theorem unpackSamples_eq : unpackSamples s.cfg.streamFormat cmd p =
    if p.length % w = 0 then .ok (samples w (p.length / w) p) else .error .malformedPayload := by
  have hsize : SampleWidth.bits width / 8 = w := by omega
  simp only [unpackSamples, h, hsize]

theorem exec_stUnpack_malformed (hp : p.length % w ≠ 0) :
    exec (.stUnpack cmd p) s = .next (s.answered (Reply.bad .malformedPayload)) := by
  refine (answerWith_eq _ s).trans ?_
  rw [unpackSamples_eq h hw, if_neg hp]

theorem exec_stUnpack_whole (hp : p.length % w = 0) :
    exec (.stUnpack cmd p) s = .next (s.answered (Reply.good (.samples (samples w (p.length / w) p)))) := by
  refine (answerWith_eq _ s).trans ?_
  rw [unpackSamples_eq h hw, if_pos hp]

end

end Sys2Proof.Machine

section

open Sys2Proof Sys2Proof.Machine

/-- Settles O56, by the widths of the default layout over the 256 command bytes. -/
theorem streamFormatDecodesTheDescriptor : Obligations.StreamFormatDecodesTheDescriptor := by
  refine fun cmd s hlayout => ⟨rfl, ?_⟩
  rw [exec_stFormat, hlayout, streamFormat, bits_layoutFormat]
  split_ifs <;> rfl

/-- Settles O57: sample `j` is the number that the bytes from `j * w` write, which is the sum of the statement. -/
theorem streamPayloadsUnpackBigEndian : Obligations.StreamPayloadsUnpackBigEndian := by
  refine fun cmd p s => ⟨rfl, fun h => ⟨?_, exec_stUnpack_unsupported h⟩, fun width w h hw =>
    ⟨?_, exec_stUnpack_malformed h hw, fun hp => ⟨_, exec_stUnpack_whole h hw hp, length_samples .., fun j hj => ?_⟩⟩⟩
  · rw [exec_stFormat, h]
    rfl
  · rw [exec_stFormat, h, hw]
    rfl
  · rw [length_samples] at hj
    have hfit : j * w + w ≤ p.length := by
      rw [← Nat.succ_mul]
      exact (Nat.mul_le_mul_right w hj).trans (Nat.div_mul_le_self ..)
    have hsample := getElem?_samples (w := w) hj p
    refine ⟨by rw [hsample, bigEndian_take_drop hfit], fun x hx => ?_⟩
    obtain rfl : bigEndian ((p.drop (j * w)).take w) = x := Option.some.inj (hsample.symm.trans hx)
    calc bigEndian ((p.drop (j * w)).take w)
        < 256 ^ ((p.drop (j * w)).take w).length := bigEndian_lt _
      _ ≤ 256 ^ w := Nat.pow_le_pow_right (by decide) (List.length_take_le ..)
      _ = 2 ^ (8 * w) := (pow_mul 2 8 w).symm

end
end

section
/-! SUPPORT. Who writes `RX_CLOSED` (10_state.md rule R34; 45_router.md rule R243): among the operations `RT.CLOSE`
alone, and no line of an agent clears it. -/

namespace Sys2Proof.Machine

/-- Every next state that `k` can be has the `RX_CLOSED` of `s`. -/
def KeepsClosed (s : State) (k : Result) : Prop := ∀ t, k = .next t → t.rxClosed = s.rxClosed

variable {s t u : State} {b : Half} {k l : Result} {i : Instr} {a : Agent} {act : Activity}

/-! The endings of an operation. -/

theorem KeepsClosed.next (h : u.rxClosed = s.rxClosed) : KeepsClosed s (.next u) := by
  rintro t ⟨⟩
  exact h

theorem KeepsClosed.ite {p : Prop} [Decidable p] (hk : KeepsClosed s k) (hl : KeepsClosed s l) :
    KeepsClosed s (if p then k else l) := by
  split
  · exact hk
  · exact hl

theorem KeepsClosed.whenOpen (h : KeepsClosed s k) : KeepsClosed s (whenOpen b s k) := .ite (.next (by simp)) h

theorem KeepsClosed.finishCodec (h : u.rxClosed = s.rxClosed) (c : Codec) : KeepsClosed s (finishCodec b c u) := by
  cases c with
  | done n r => exact .next (by simpa using h)
  | failed f r => exact .next (by simpa using h)

/-! The operations with a course of their own. -/

theorem execRbExtend_keepsClosed (b : Half) (s : State) : KeepsClosed s (execRbExtend b s) := by
  cases b with
  | tx => exact .next rfl
  | rx =>
    refine .whenOpen ?_
    split <;> exact .next rfl

theorem execRbDrain_keepsClosed (b : Half) (s : State) : KeepsClosed s (execRbDrain b s) := by
  cases b with
  | rx => exact .next rfl
  | tx =>
    refine .ite (.next rfl) ?_
    split <;> exact .next rfl

theorem execFrmRecv_keepsClosed (hv hc : Bool) (dstCap : Nat) (s : State) :
    KeepsClosed s (execFrmRecv hv hc dstCap s) := by
  refine .whenOpen (.ite (.next rfl) (.ite (.next rfl) ?_))
  split
  · exact .next rfl
  · exact .ite (.next rfl) (.ite (.next rfl) (.next rfl))

theorem dispatchFrame_keepsClosed (cls : CmdClass) (cmd : Byte) (s : State) :
    KeepsClosed s (dispatchFrame cls cmd s) := by
  cases cls with
  | invalid0 => exact .next rfl
  | reserved => exact .next rfl
  | registerRead => simp only [dispatchFrame]; split <;> exact .next rfl
  | registerWrite => simp only [dispatchFrame]; split <;> exact .next rfl
  | stream => exact .next rfl

theorem route_keepsClosed (cls : CmdClass) (cmd : Byte) (s : State) : KeepsClosed s (route cls cmd s) :=
  .whenOpen (.ite (.next rfl) (.ite (.next rfl) (dispatchFrame_keepsClosed cls cmd s)))

/-! Every operation. -/

/-- The operations of a half other than `RT.CLOSE`. -/
theorem execHalf_keepsClosed (s : State) : ∀ {i : Instr} {b : Half}, i.half = some b → i ≠ .rtClose →
    KeepsClosed s (exec i s)
  | .rbPushBack .., _, rfl, _ => .whenOpen (.next (by simp))
  | .rbPushFront .., _, rfl, _ => .whenOpen (.next (by simp))
  | .rbPopFront _, _, rfl, _ => .whenOpen (.ite (.next (by simp)) (.next (by simp)))
  | .rbPopBack _, _, rfl, _ => .whenOpen (.ite (.next (by simp)) (.next (by simp)))
  | .rbGet .., _, rfl, _ => .whenOpen (.ite (.next (by simp)) (.next (by simp)))
  | .rbSet .., _, rfl, _ => .whenOpen (.ite (.next (by simp)) (.next (by simp)))
  | .rbLen _, _, rfl, _ => .whenOpen (.next (by simp))
  | .rbCap _, _, rfl, _ => .whenOpen (.next (by simp))
  | .rbIsFull _, _, rfl, _ => .whenOpen (.next (by simp))
  | .rbClear _, _, rfl, _ => .whenOpen (.next (by simp))
  | .rbSlices _, _, rfl, _ => .whenOpen (.next (by simp))
  | .rbExtend b, _, rfl, _ => execRbExtend_keepsClosed b s
  | .rbDrain b, _, rfl, _ => execRbDrain_keepsClosed b s
  | .cobsEnc _, _, rfl, _ => .whenOpen (.finishCodec rfl _)
  | .cobsDec _, _, rfl, _ => .whenOpen (.finishCodec rfl _)
  | .crcCalc .., _, rfl, _ => .whenOpen (.ite (.next (by simp)) (.next (by simp)))
  | .frmSend .., _, rfl, _ => .ite (.next rfl) (.finishCodec (by simp) _)
  | .frmRecv .., _, rfl, _ => execFrmRecv_keepsClosed _ _ _ s
  | .rtClose, _, rfl, h => absurd rfl h
  | .rtRoute, _, rfl, _ => route_keepsClosed _ _ s
  | .cmdInvalid0, _, rfl, _ => route_keepsClosed _ _ s
  | .cmdRegisterRead, _, rfl, _ => route_keepsClosed _ _ s
  | .cmdRegisterWrite, _, rfl, _ => route_keepsClosed _ _ s
  | .cmdReserved03, _, rfl, _ => route_keepsClosed _ _ s
  | .cmdReserved04_07 _, _, rfl, _ => route_keepsClosed _ _ s
  | .cmdReserved08_0F _, _, rfl, _ => route_keepsClosed _ _ s
  | .cmdReserved10_1F _, _, rfl, _ => route_keepsClosed _ _ s
  | .cmdReserved20_3F _, _, rfl, _ => route_keepsClosed _ _ s
  | .cmdReserved40_7F _, _, rfl, _ => route_keepsClosed _ _ s
  | .cmdStream _, _, rfl, _ => route_keepsClosed _ _ s

/-- Every operation but `RT.CLOSE`. -/
theorem exec_keepsClosed (hi : i ≠ .rtClose) : KeepsClosed s (exec i s) := by
  cases hb : i.half with
  | some b => exact execHalf_keepsClosed s hb hi
  | none =>
    by_cases hpop : ∃ q, i = .qPop q
    · obtain ⟨q, rfl⟩ := hpop
      intro t ht
      obtain ⟨r, hr⟩ := execQPop_next ht
      rw [hr]; rfl
    · obtain ⟨r, hr⟩ := exec_pure s hb (by simpa using hpop)
      rw [hr]
      exact .next rfl

theorem exec_rtClose (s : State) :
    exec .rtClose s = .next { s with rxClosed := true, resRx := { status := .ok, val := s.resRx.val } } := rfl

/-- No operation clears `RX_CLOSED`. -/
theorem exec_staysClosed (hs : s.rxClosed = true) (h : exec i s = .next t) : t.rxClosed = true := by
  by_cases hi : i = .rtClose
  · subst hi
    cases h
    rfl
  · exact (exec_keepsClosed hi t h).trans hs

/-! The lines of the agents. -/

section

variable (s t : State) (a : Agent)

@[simp] theorem State.goOn_rxClosed (act : Activity) : (s.goOn a act).rxClosed = s.rxClosed :=
  s.setAgenda_rxClosed a _
@[simp] theorem State.report_rxClosed (f : Status) : (s.report f).rxClosed = s.rxClosed := rfl
@[simp] theorem State.endCall_rxClosed (r : Reply) : (s.endCall r).rxClosed = s.rxClosed := rfl
@[simp] theorem State.answered_rxClosed (r : Reply) : (s.answered r).rxClosed = s.rxClosed := rfl

@[simp] theorem serviceRead_rxClosed (hv hc : Bool) (dstCap : Nat) :
    (serviceRead a hv hc dstCap t).rxClosed = t.rxClosed := by
  simp only [serviceRead]; split <;> simp
@[simp] theorem serviceReceived_rxClosed : (serviceReceived a t).rxClosed = t.rxClosed := by
  simp only [serviceReceived]; split <;> simp
@[simp] theorem callPacked_rxClosed (hc : Bool) (call : Call) : (callPacked a hc call t).rxClosed = t.rxClosed := by
  simp only [callPacked]; split <;> simp
@[simp] theorem callStep_rxClosed (act : Activity) : (callStep a act t).rxClosed = t.rxClosed := by
  simp only [callStep]; split <;> simp
@[simp] theorem streamPopped_rxClosed : (streamPopped a t).rxClosed = t.rxClosed := by
  simp only [streamPopped]; split <;> simp
@[simp] theorem callPopped_rxClosed (call : Call) (waited : Nat) :
    (callPopped a call waited t).rxClosed = t.rxClosed := by
  simp only [callPopped]
  split
  · split <;> simp
  · split
    · simp
    · split <;> simp
  · simp

end

theorem FailsUnchanged.rxClosed {f : Status} (h : FailsUnchanged b f s t) : t.rxClosed = s.rxClosed := by
  rw [h.2]; simp

theorem perform_staysClosed {next : State → State} (hs : s.rxClosed = true)
    (hnext : ∀ u, (next u).rxClosed = u.rxClosed) (h : perform a act i s next = .next t) : t.rxClosed = true := by
  obtain ⟨-, rfl⟩ | ⟨-, u, hu, rfl⟩ := perform_next h
  · simpa using hs
  · rw [hnext]
    exact exec_staysClosed hs hu

theorem runActivity_staysClosed (hs : s.rxClosed = true) (h : runActivity a act s = .next t) : t.rxClosed = true := by
  cases act with
  | request bytes =>
    simp only [runActivity] at h
    split at h
    · exact perform_staysClosed hs (fun _ => rfl) h
    · obtain ⟨b, -, hf⟩ | ⟨-, rfl⟩ := badRequest_next h
      · exact hf.rxClosed.trans hs
      · exact hs
  | rxService hv hc dstCap =>
    simp only [runActivity, hs, if_true] at h
    exact (raise_next h).1.rxClosed.trans hs
  | serviceClose => cases h; simp
  | serviceFail => exact (raise_next h).1.rxClosed.trans hs
  | serviceRecv hv hc dstCap => exact perform_staysClosed hs (by simp) h
  | serviceRoute => exact perform_staysClosed hs (fun _ => rfl) h
  | writeReg hc reg value => exact perform_staysClosed hs (by simp) h
  | readReg hc reg => exact perform_staysClosed hs (by simp) h
  | callSend hc call payload => exact perform_staysClosed hs (by simp) h
  | callDrain call => exact perform_staysClosed hs (by simp) h
  | callWait call waited => exact perform_staysClosed hs (by simp) h
  | streamPop => exact perform_staysClosed hs (by simp) h
  | streamUnpack cmd p => exact perform_staysClosed hs (by simp) h

theorem agentMove_staysClosed (hs : s.rxClosed = true) (h : agentMove a s = .next t) : t.rxClosed = true := by
  cases ha : s.agenda a with
  | nil => rw [agentMove_idle ha] at h; cases h; exact hs
  | cons act later =>
    rw [agentMove_cons ha] at h
    exact runActivity_staysClosed (by simpa using hs) h

/-- Only a reset event clears `RX_CLOSED`. -/
theorem step_staysClosed (hs : s.rxClosed = true) (hturn : s.turns.head? ≠ some .reset) (h : step s = .next t) :
    t.rxClosed = true := by
  cases hturns : s.turns with
  | nil => rw [step_idle hturns] at h; cases h; exact hs
  | cons turn turns =>
    cases turn with
    | reset => exact absurd (by rw [hturns]; rfl) hturn
    | move a =>
      rw [step_move hturns] at h
      exact agentMove_staysClosed (s := { s with turns := turns }) hs h

end Sys2Proof.Machine

section

open Sys2Proof Sys2Proof.Machine

/-- Settles O19: operations by `exec_keepsClosed`, steps by the lines of the agents around them, reset by its event. -/
theorem closedStateIsPermanent : Obligations.ClosedStateIsPermanent := by
  refine ⟨rfl, exec_rtClose, fun i s t h hi => exec_keepsClosed hi t h, fun _ _ => step_staysClosed,
    fun s t hturn h => ?_⟩
  obtain ⟨turns, hturns⟩ := List.head?_eq_some_iff.1 hturn
  rw [step_reset hturns] at h
  cases h
  rfl

end
end

section
/-! SUPPORT. `RX.SERVICE` (45_router.md rule R250; log entry 16): what a move of an agent at one of its lines does. -/

namespace Sys2Proof.Machine

variable {s t : State} {a : Agent} {act : Activity} {i : Instr} {turns : List Turn} {later : List Activity}
  {hv hc : Bool} {dstCap : Nat}

/-! An operation leaves the agendas alone. -/

theorem WritesOnly.agenda {b : Half} (h : WritesOnly b s t) (a : Agent) : t.agenda a = s.agenda a := by
  cases b <;> (rw [WritesOnly] at h; rw [h]; cases a <;> rfl)

theorem exec_agenda (h : exec i s = .next t) (a : Agent) : t.agenda a = s.agenda a := by
  cases hi : i.half with
  | some b => exact (exec_staysIn s hi t h).agenda a
  | none =>
    by_cases hpop : ∃ q, i = .qPop q
    · obtain ⟨q, rfl⟩ := hpop
      obtain ⟨r, hr⟩ := execQPop_next h
      rw [hr]
      cases a <;> rfl
    · obtain ⟨r, hr⟩ := exec_pure s hi (by simpa using hpop)
      cases hr.symm.trans h
      cases a <;> rfl

/-! A move of an agent. -/

/-- A step in which agent `a` moves runs the first activity of its agenda, on the state in which the turn and the
activity are used up. -/
theorem step_runActivity (hturns : s.turns = .move a :: turns) (hagenda : s.agenda a = act :: later) :
    step s = runActivity a act (State.setAgenda { s with turns := turns } a later) := by
  rw [step_move hturns, agentMove_cons ((s.agenda_turns turns a).trans hagenda)]

theorem step_setAgenda (hturns : s.turns = .move a :: turns) :
    step (s.setAgenda a (act :: later)) = runActivity a act (State.setAgenda { s with turns := turns } a later) := by
  rw [step_runActivity ((s.setAgenda_turns a _).trans hturns) (s.setAgenda_agenda_same a _)]
  cases a <;> rfl

/-- A line that is enabled runs its operation and goes on. -/
theorem perform_exec {next : State → State} (hw : waits i s = false) (h : exec i s = .next t) :
    perform a act i s next = .next (next t) := by
  rw [perform, if_neg (by simp [hw]), h]

/-- A line that goes on with nothing is its operation. -/
theorem perform_id (hw : waits i s = false) : perform a act i s id = exec i s := by
  rw [perform, if_neg (by simp [hw])]
  cases exec i s <;> rfl

theorem State.goOn_of_exec (h : exec i (s.setAgenda a later) = .next t) (act : Activity) :
    t.goOn a act = t.setAgenda a (act :: later) := by
  rw [State.goOn, exec_agenda h, State.setAgenda_agenda_same]

theorem run_succ (k : Nat) (h : step s = .next t) : Host.Core.run core (k + 1) s = Host.Core.run core k t := by
  simp only [Host.Core.run, show core.step s = .next t from h]

/-! The lines of `RX.SERVICE`. -/

theorem serviceRead_ok (h : t.resRx.status = .ok) :
    serviceRead a hv hc dstCap t = t.goOn a (.serviceRecv hv hc dstCap) := by
  simp only [serviceRead, h]

theorem serviceRead_failed (h : t.resRx.status = .transportFailure) :
    serviceRead a hv hc dstCap t = t.goOn a .serviceClose := by
  simp only [serviceRead, h]

theorem serviceReceived_ok (h : t.resRx.status = .ok) : serviceReceived a t = t.goOn a .serviceRoute := by
  simp only [serviceReceived, h]

theorem serviceReceived_failed (h : t.resRx.status ≠ .ok) : serviceReceived a t = t.report t.resRx.status := by
  rw [serviceReceived]
  split
  · contradiction
  · rfl

theorem exists_next_ite {p : Prop} [Decidable p] {k l : Result} (hk : ∃ t, k = .next t) (hl : ∃ t, l = .next t) :
    ∃ t, (if p then k else l) = .next t := by
  split
  · exact hk
  · exact hl

/-- `FRM.RECV` ends in every state, whichever of its tests fails. -/
theorem exec_frmRecv_total (hv hc : Bool) (dstCap : Nat) (s : State) :
    ∃ t, exec (.frmRecv hv hc dstCap) s = .next t := by
  refine exists_next_ite ⟨_, rfl⟩ (exists_next_ite ⟨_, rfl⟩ (exists_next_ite ⟨_, rfl⟩ ?_))
  split
  · exact ⟨_, rfl⟩
  · exact exists_next_ite ⟨_, rfl⟩ (exists_next_ite ⟨_, rfl⟩ ⟨_, rfl⟩)

theorem runActivity_rxService_closed (hclosed : s.rxClosed = true) :
    runActivity a (.rxService hv hc dstCap) s = raise .rx .closed s := if_pos hclosed

/-- On an open half with a read outcome at hand. -/
theorem runActivity_rxService {r : ReadOutcome} {rs : List ReadOutcome} (hopen : s.rxClosed = false)
    (hreads : s.rxReads = r :: rs) (h : exec (.rbExtend .rx) s = .next t) :
    runActivity a (.rxService hv hc dstCap) s = .next (serviceRead a hv hc dstCap t) := by
  have hw : waits (.rbExtend .rx) s = false := by simp [waits, extendWaits, hreads]
  exact (if_neg (by simp [hopen])).trans (perform_exec hw h)

/-- What a failed read leaves. -/
def State.readFailed (s : State) (rs : List ReadOutcome) : State :=
  { s with
    rxReads := rs, resRx := { status := .transportFailure, val := Config.freeResVal .rx s.freeRx }
    freeRx := s.freeRx + 1 }

theorem step_rxService_failed {rs : List ReadOutcome} (hturns : s.turns = .move a :: turns)
    (hagenda : s.agenda a = .rxService hv hc dstCap :: later) (hopen : s.rxClosed = false)
    (hreads : s.rxReads = .failed :: rs) :
    step s = .next (State.setAgenda (State.readFailed { s with turns := turns } rs) a (.serviceClose :: later)) := by
  have hopen := (State.setAgenda_rxClosed { s with turns := turns } a later).trans hopen
  have hreads := (State.setAgenda_rxReads { s with turns := turns } a later).trans hreads
  rw [step_runActivity hturns hagenda, runActivity_rxService hopen hreads (exec_rbExtend_failed hopen hreads),
    serviceRead_failed rfl]
  cases a <;> rfl

/-- What the line `serviceClose` leaves: the diagnostic recorded, then the half closed by `RT.CLOSE`. -/
def State.closedByFailure (s : State) : State :=
  { s.report .transportFailure with rxClosed := true, resRx := { status := .ok, val := s.resRx.val } }

/-- The two lines after a failed read: the half is closed, then the failure raised. -/
theorem run_serviceClose (hturns : s.turns = .move a :: .move a :: turns) :
    Host.Core.run core 2 (s.setAgenda a (.serviceClose :: later))
      = raise .rx .transportFailure (State.setAgenda { s.closedByFailure with turns := turns } a later) := by
  have hclose : step (s.setAgenda a (.serviceClose :: later))
      = .next (State.setAgenda { s.closedByFailure with turns := .move a :: turns } a (.serviceFail :: later)) :=
    (step_setAgenda hturns).trans (by cases a <;> rfl)
  exact (run_succ 1 hclose).trans (run_succ 0 (step_setAgenda rfl))

end Sys2Proof.Machine

section

open Sys2Proof Sys2Proof.Machine

/-- Settles O58, line by line: what each move runs, and for a failed read the three moves in a row. -/
theorem serviceRunsOneTurnOfTheLoop : Obligations.ServiceRunsOneTurnOfTheLoop := by
  intro hv hc dstCap a turns later s hturns ready
  have hrxClosed : ready.rxClosed = s.rxClosed := State.setAgenda_rxClosed ..
  have hrxReads : ready.rxReads = s.rxReads := State.setAgenda_rxReads ..
  have hmove : ∀ {act}, s.agenda a = act :: later → step s = runActivity a act ready := step_runActivity hturns
  refine ⟨fun hclosed hagenda => ?_, fun x xs rs hopen hreads hagenda => ?_,
    fun rs turns' hopen hreads hturns' hagenda => ?_, fun hopen hagenda => ?_, fun hagenda hw => ?_⟩
  · rw [hmove hagenda, runActivity_rxService_closed (hrxClosed.trans hclosed)]
    exact raise_failsUnchanged ..
  · have hopen := hrxClosed.trans hopen
    have hreads := hrxReads.trans hreads
    have hextend := exec_rbExtend_bytes hopen hreads
    refine ⟨_, hextend, rfl, ?_⟩
    rw [hmove hagenda, runActivity_rxService hopen hreads hextend, serviceRead_ok rfl, State.goOn_of_exec hextend]
  · have hread := step_rxService_failed hturns hagenda hopen hreads
    refine ⟨_, (run_succ 2 hread).trans (run_serviceClose hturns'), ?_, rfl⟩
    cases a <;> rfl
  · obtain ⟨t, ht⟩ := exec_frmRecv_total hv hc dstCap ready
    have hopen := hrxClosed.trans hopen
    have hstep : step s = .next (serviceReceived a t) := (hmove hagenda).trans (perform_exec rfl ht)
    refine ⟨t, ht, (exec_keepsClosed (by simp) t ht).trans hopen, fun hok => ?_, fun hfail => ?_⟩
    · rw [hstep, serviceReceived_ok hok, State.goOn_of_exec ht]
    · have hdiag : t.diag = s.diag := by
        obtain ⟨hclosed, -⟩ | ⟨-, hmail⟩ | ⟨hok, -⟩ := execFrmRecv_next ht
        · simp [hopen] at hclosed
        · exact (congrArg (·.2.2.2.2) hmail).trans (State.setAgenda_diag ..)
        · exact absurd hok hfail
      rw [hstep, serviceReceived_failed hfail, State.report, hdiag]
  · exact (hmove hagenda).trans (perform_id hw)

end
end

section
/-! SUPPORT. Nothing stops the block (60_exceptions.md rules R260 and R276): every operation in every state, and every
step, answers a next state. -/

namespace Sys2Proof.Machine

variable {b : Half} {k : Result}

/-! The endings and tests that operations share. -/

theorem whenOpen_total {s : State} (hk : ∃ t, k = .next t) : ∃ t, whenOpen b s k = .next t :=
  exists_next_ite ⟨_, rfl⟩ hk

theorem finishCodec_total (b : Half) (c : Codec) (s : State) : ∃ t, finishCodec b c s = .next t := by
  cases c with
  | done n r => exact ⟨_, rfl⟩
  | failed f r => exact ⟨_, rfl⟩

/-! The operations with a course of their own. -/

theorem execRbExtend_total (b : Half) (s : State) : ∃ t, execRbExtend b s = .next t := by
  cases b with
  | tx => exact ⟨_, rfl⟩
  | rx =>
    refine whenOpen_total ?_
    split <;> exact ⟨_, rfl⟩

theorem execRbDrain_total (b : Half) (s : State) : ∃ t, execRbDrain b s = .next t := by
  cases b with
  | rx => exact ⟨_, rfl⟩
  | tx =>
    refine exists_next_ite ⟨_, rfl⟩ ?_
    split <;> exact ⟨_, rfl⟩

theorem dispatchFrame_total (cls : CmdClass) (cmd : Byte) (s : State) : ∃ t, dispatchFrame cls cmd s = .next t := by
  cases cls with
  | invalid0 | reserved | stream => exact ⟨_, rfl⟩
  | registerRead => simp only [dispatchFrame]; split <;> exact ⟨_, rfl⟩
  | registerWrite => simp only [dispatchFrame]; split <;> exact ⟨_, rfl⟩

theorem route_total (cls : CmdClass) (cmd : Byte) (s : State) : ∃ t, route cls cmd s = .next t :=
  whenOpen_total (exists_next_ite ⟨_, rfl⟩ (exists_next_ite ⟨_, rfl⟩ (dispatchFrame_total cls cmd s)))

theorem execQPop_total (q : BitVec 2) (s : State) : ∃ t, execQPop q s = .next t := by
  simp only [execQPop, answerWith_eq]
  split
  · exact ⟨_, rfl⟩
  all_goals split <;> exact ⟨_, rfl⟩

/-! Every operation, and every step. -/

theorem exec_total (i : Instr) (s : State) : ∃ t, exec i s = .next t := by
  cases i with
  | rbPushBack | rbPushFront | rbLen | rbCap | rbIsFull | rbClear | rbSlices => exact whenOpen_total ⟨_, rfl⟩
  | rbPopFront | rbPopBack | rbGet | rbSet | crcCalc => exact whenOpen_total (exists_next_ite ⟨_, rfl⟩ ⟨_, rfl⟩)
  | rbExtend b => exact execRbExtend_total b s
  | rbDrain b => exact execRbDrain_total b s
  | cobsEnc | cobsDec => exact whenOpen_total (finishCodec_total ..)
  | frmSend => exact exists_next_ite ⟨_, rfl⟩ (finishCodec_total ..)
  | frmRecv hv hc dstCap => exact exec_frmRecv_total hv hc dstCap s
  | rtClose | hpClassify => exact ⟨_, rfl⟩
  | qPop q => exact execQPop_total q s
  | pkReadReq | pkWrite8 | pkWrite32 | unpkReadReq | unpkRegval | unpkAck | stFormat | stUnpack =>
    exact ⟨_, answerWith_eq ..⟩
  | rtRoute | cmdInvalid0 | cmdRegisterRead | cmdRegisterWrite | cmdReserved03 | cmdReserved04_07 | cmdReserved08_0F
  | cmdReserved10_1F | cmdReserved20_3F | cmdReserved40_7F | cmdStream => exact route_total ..

theorem perform_total (a : Agent) (act : Activity) (i : Instr) (s : State) (next : State → State) :
    ∃ t, perform a act i s next = .next t := by
  obtain ⟨t, ht⟩ := exec_total i s
  refine exists_next_ite ⟨_, rfl⟩ ?_
  rw [ht]
  exact ⟨_, rfl⟩

theorem badRequest_total (bytes : List Byte) (s : State) : ∃ t, badRequest bytes s = .next t := by
  unfold badRequest
  split <;> exact ⟨_, rfl⟩

theorem runActivity_total (a : Agent) (act : Activity) (s : State) : ∃ t, runActivity a act s = .next t := by
  cases act with
  | request bytes =>
    simp only [runActivity]
    split
    · exact perform_total ..
    · exact badRequest_total bytes s
  | rxService => exact exists_next_ite ⟨_, rfl⟩ (perform_total ..)
  | serviceClose | serviceFail => exact ⟨_, rfl⟩
  | serviceRecv | serviceRoute | writeReg | readReg | callSend | callDrain | callWait | streamPop | streamUnpack =>
    exact perform_total ..

theorem step_total (s : State) : ∃ t, step s = .next t := by
  cases hturns : s.turns with
  | nil => exact ⟨s, step_idle hturns⟩
  | cons turn turns =>
    cases turn with
    | reset => exact ⟨_, step_reset hturns⟩
    | move a =>
      cases hagenda : s.agenda a with
      | nil => exact ⟨_, (step_move hturns).trans (agentMove_idle ((s.agenda_turns turns a).trans hagenda))⟩
      | cons act later =>
        rw [step_runActivity hturns hagenda]
        exact runActivity_total a act _

theorem State.safe (s : State) : s.Safe := by
  intro k
  induction k generalizing s with
  | zero => exact ⟨s, rfl⟩
  | succ k ih =>
    obtain ⟨u, hu⟩ := step_total s
    rw [run_succ k hu]
    exact ih u

end Sys2Proof.Machine

section

open Sys2Proof Sys2Proof.Machine

/-- Settles O8: every operation ends in every state, so every line of an agent does, and a run by induction on its
length. -/
theorem nothingStopsTheBlock : Obligations.NothingStopsTheBlock := ⟨exec_total, State.safe⟩

end
end

section
/-! SUPPORT. Requests that are refused (60_exceptions.md rules R270 and R271): unknown selectors and where their
`BadOperation` goes, and a closed receive half. -/

namespace Sys2Proof

variable {sel : Byte} {xs : List Byte}

/-- The selectors outside the table of rule R100. -/
theorem decodeOperands_unknown
    (h : sel.toNat < 0x10 ∨ (0x1D ≤ sel.toNat ∧ sel.toNat < 0x20) ∨ (0x22 ≤ sel.toNat ∧ sel.toNat < 0x30)
      ∨ (0x31 ≤ sel.toNat ∧ sel.toNat < 0x40) ∨ (0x42 ≤ sel.toNat ∧ sel.toNat < 0x50)
      ∨ (0x56 ≤ sel.toNat ∧ sel.toNat < 0x60) ∨ 0x66 ≤ sel.toNat) (xs : List Byte) :
    decodeOperands sel xs = .error (.unknownSelector sel) := by
  suffices hsel : decodeOperands sel = fun _ => .error (.unknownSelector sel) by rw [hsel]
  unfold decodeOperands
  split
  iterate 30
    · omega
  · rfl

theorem decode_op_error {bs : List Byte} {e : DecodeError} (h : decodeFront bs = .error e) :
    decode .op bs = .error e := by
  simp only [decode, h]

/-- An unknown selector names the half that its first operand byte stands for (log entry 12). -/
theorem operandB_unknown (h : decodeOperands sel xs = .error (.unknownSelector sel)) {b : Half}
    (hb : xs.head? = some (encodeHalf b)) : operandB (sel :: xs) = some b := by
  obtain ⟨rest, rfl⟩ := List.head?_eq_some_iff.1 hb
  have htake : takeHalf (encodeHalf b :: rest) = .ok (b, rest) := (takeHalf_reads _ b rest).2 ⟨trivial, rfl⟩
  simp only [operandB, h, htake]

/-- Without such an operand byte it names none. -/
theorem operandB_none (hb : ∀ b, xs.head? ≠ some (encodeHalf b)) : operandB (sel :: xs) = none := by
  cases htake : takeHalf xs with
  | error e => simp only [operandB, htake]
  | ok read =>
    obtain ⟨b, rest⟩ := read
    obtain ⟨-, rfl⟩ := (takeHalf_reads xs b rest).1 htake
    exact absurd rfl (hb b)

end Sys2Proof

namespace Sys2Proof.Machine

variable {s t : State} {i : Instr} {b : Half} {a : Agent} {bytes : List Byte}

theorem runActivity_badRequest {e : DecodeError} (h : decode .op bytes = .error e) :
    runActivity a (.request bytes) s = badRequest bytes s := by
  simp only [runActivity, h]

theorem badRequest_half (h : operandB bytes = some b) : badRequest bytes s = raise b .badOperation s := by
  simp only [badRequest, h]

theorem badRequest_issuer (h : operandB bytes = none) :
    badRequest bytes s = .next (s.answered (Reply.bad .badOperation)) := by
  simp only [badRequest, h]
  rfl

/-- Every operation of the receive half but `RT.CLOSE` is guarded, and `RB.DRAIN RX` fails before its guard. -/
theorem exec_closed (hs : s.rxClosed = true) (hi : i.half = some .rx) (hclose : i ≠ .rtClose)
    (hdrain : i ≠ .rbDrain .rx) : exec i s = raise .rx .closed s := by
  cases i with
  | rtClose => exact absurd rfl hclose
  | rbDrain b => cases hi; exact absurd rfl hdrain
  | _ => cases hi <;> exact whenOpen_closed hs _

theorem emptyAnswer_closed (hs : s.rxClosed = true) : emptyAnswer s = .closed := if_pos hs

theorem emptyAnswer_open (hs : s.rxClosed = false) : emptyAnswer s = .empty := if_neg (by simp [hs])

/-! What a transmit-half or a pure operation does does not depend on `RX_CLOSED`. -/

theorem answerWith_setRxClosed {r : Except Status RetVal} (h : answerWith r s = .next t) (c : Bool) :
    answerWith r { s with rxClosed := c } = .next { t with rxClosed := c } := by
  rw [answerWith_eq] at h ⊢
  cases h
  rfl

theorem exec_pure_setRxClosed (hi : i.half = none) (hpop : ∀ q, i ≠ .qPop q) (h : exec i s = .next t) (c : Bool) :
    exec i { s with rxClosed := c } = .next { t with rxClosed := c } := by
  cases i with
  | pkReadReq | pkWrite8 | pkWrite32 | unpkReadReq | unpkRegval | unpkAck | stFormat | stUnpack =>
    exact answerWith_setRxClosed h c
  | hpClassify cmd => exact answerWith_setRxClosed (r := .ok (.cls (classify cmd))) h c
  | qPop q => exact absurd rfl (hpop q)
  | _ => cases hi

/-- `RX_CLOSED` is part of the receive half, which a transmit-half operation neither reads nor writes. -/
theorem exec_tx_setRxClosed (hi : i.half = some .tx) (h : exec i s = .next t) (c : Bool) :
    exec i { s with rxClosed := c } = .next { t with rxClosed := c } := by
  have hframe : t.withOther .tx { s with rxClosed := c } = { t with rxClosed := c } := by
    rw [← (exec_staysIn s hi t h).withOther_rx]
    rfl
  refine (exec_withOther s { s with rxClosed := c } hi).trans ?_
  rw [h, ← hframe]
  rfl

end Sys2Proof.Machine

section

open Sys2Proof Sys2Proof.Machine

/-- Settles O17: the decoder rejects the selector, and `BadOperation` goes where its first operand byte says. -/
theorem unknownRequestsChangeNothing : Obligations.UnknownRequestsChangeNothing := by
  refine ⟨fun s a turns sel operands later hsel hturns hagenda => ?_, raise_failsUnchanged .tx .badOperation,
    raise_failsUnchanged .rx .badOperation, fun _ => rfl⟩
  have hunknown := decodeOperands_unknown hsel operands
  have hdecode : decode .op (sel :: operands) = .error (.unknownSelector sel) := decode_op_error hunknown
  refine ⟨hdecode, ?_⟩
  rw [step_runActivity hturns hagenda, runActivity_badRequest hdecode]
  refine ⟨fun htx => ?_, fun hrx => ?_, fun htx hrx => badRequest_issuer (operandB_none ?_)⟩
  · rw [badRequest_half (operandB_unknown (b := .tx) hunknown htx)]
    exact raise_failsUnchanged ..
  · rw [badRequest_half (operandB_unknown (b := .rx) hunknown hrx)]
    exact raise_failsUnchanged ..
  · rintro (_ | _)
    · exact htx
    · exact hrx

/-- Settles O18: the guard of the receive half, `Q.POP` by its answers, and the other half by its frame. -/
theorem closedHalfRefuses : Obligations.ClosedHalfRefuses := by
  refine ⟨fun i s hs hi hclose hdrain => ?_, fun s _ => raise_failsUnchanged .rx .badOperation s, fun s hs => ?_,
    fun hv hc dstCap a turns later s hs hturns hagenda => ?_, fun s hs => ?_, fun i s t hi h => ?_⟩
  · rw [exec_closed hs hi hclose hdrain]
    exact raise_failsUnchanged ..
  · rw [exec_rtClose, ← hs]
  · have hclosed := (State.setAgenda_rxClosed { s with turns := turns } a later).trans hs
    rw [step_runActivity hturns hagenda, runActivity_rxService_closed hclosed]
    exact raise_failsUnchanged ..
  · rw [← emptyAnswer_closed hs]
    exact ⟨exec_qPop_rdq_nil, exec_qPop_waq_nil, exec_qPop_stq_nil, fun _ _ _ => exec_qPop_rdq_cons,
      fun _ _ => exec_qPop_waq_cons, fun _ _ _ => exec_qPop_stq_cons⟩
  · obtain hi | ⟨hi, hpop⟩ := hi
    · exact exec_tx_setRxClosed hi h true
    · exact exec_pure_setRxClosed hi hpop h true

end
end

section
/-! SUPPORT. The codes of the statuses (60_exceptions.md rule R261). -/

section

open Sys2Proof Sys2Proof.Machine

/-- Settles O49: the row with index `f.code` is the row of `f`. -/
theorem statusCodesAreThoseOfTheTable : Obligations.StatusCodesAreThoseOfTheTable := by
  unfold Obligations.StatusCodesAreThoseOfTheTable
  intro table
  have hrow : ∀ f : Status, table[f.code.toNat]? = some (f, f.code.toNat) := by
    intro f
    cases f <;> rfl
  refine ⟨by decide, fun f => ⟨f.code.toNat, List.mem_of_getElem? (hrow f)⟩, fun f g hcode => ?_⟩
  have hsame := hrow f
  rw [hcode, hrow g] at hsame
  cases hsame
  rfl

end
end

section
/-! SUPPORT. The stream consumer (60_exceptions.md rule R292; log entry 25): what its loop does with the answer of
`Q.POP`, and that no line of a register call touches `STQ`. -/

namespace Sys2Proof.Machine

variable {s t : State} {i : Instr} {a : Agent} {act : Activity} {later : List Activity}

@[simp] theorem State.lastReply_answered (s : State) (r : Reply) : (s.answered r).lastReply = r := by
  simp [State.lastReply, State.answered]

theorem State.goOn_eq (h : s.agenda a = later) (act : Activity) : s.goOn a act = s.setAgenda a (act :: later) := by
  rw [State.goOn, h]

theorem State.agenda_answered (s : State) (r : Reply) (a : Agent) : (s.answered r).agenda a = s.agenda a := by
  cases a <;> rfl

theorem State.agenda_elapsed (s : State) (ds : List Nat) (a : Agent) :
    State.agenda { s with elapsed := ds } a = s.agenda a := by
  cases a <;> rfl

/-! The loop of the consumer. -/

theorem streamPopped_command (a : Agent) (cmd : Byte) (p : List Byte) (s : State) :
    streamPopped a (s.answered (Reply.good (.command cmd p)))
      = (s.answered (Reply.good (.command cmd p))).goOn a (.streamUnpack cmd p) := by
  simp only [streamPopped, State.lastReply_answered, Reply.good]

theorem streamPopped_empty (a : Agent) (s : State) :
    streamPopped a (s.answered (Reply.bad .empty)) = (s.answered (Reply.bad .empty)).goOn a .streamPop := by
  simp only [streamPopped, State.lastReply_answered, Reply.bad]

theorem streamPopped_closed (a : Agent) (s : State) :
    streamPopped a (s.answered (Reply.bad .closed)) = s.answered (Reply.bad .closed) := by
  simp only [streamPopped, State.lastReply_answered, Reply.bad]

/-! Who writes `STQ`. -/

theorem stq_of_watched (h : t.watched = s.watched) : t.stq = s.stq := congrArg (·.2.2.2.2.2.2.2) h

theorem execQPop_stq {q : BitVec 2} (hq : q ≠ 2) (h : execQPop q s = .next t) : t.stq = s.stq := by
  obtain hmail | ⟨-, e, hmail⟩ | ⟨-, e, hmail⟩ | ⟨h2, -⟩ := execQPop_mail h
  · exact congrArg (·.2.2.2.1) hmail
  · exact (congrArg (·.2.2.2.1) hmail).symm
  · exact (congrArg (·.2.2.2.1) hmail).symm
  · exact absurd h2 hq

/-- Outside the receive half only `Q.POP STQ` writes `STQ`. -/
theorem exec_stq (hrx : i.half ≠ some .rx) (hpop : i ≠ .qPop 2) (h : exec i s = .next t) : t.stq = s.stq := by
  match hi : i.half with
  | some .rx => exact absurd hi hrx
  | some .tx =>
    have hframe : WritesOnly .tx s t := exec_staysIn s hi t h
    rw [WritesOnly] at hframe
    rw [hframe]
  | none =>
    by_cases hq : ∃ q, i = .qPop q
    · obtain ⟨q, rfl⟩ := hq
      exact execQPop_stq (fun h2 => hpop (congrArg _ h2)) h
    · obtain ⟨r, hr⟩ := exec_pure s hi (by simpa using hq)
      cases hr.symm.trans h
      rfl

theorem Call.queue_ne_stq (call : Call) : call.queue ≠ 2 := by cases call <;> simp [Call.queue]

theorem perform_stq {next : State → State} (h : perform a act i s next = .next t) (hrx : i.half ≠ some .rx)
    (hpop : i ≠ .qPop 2) (hnext : ∀ u, (next u).watched = u.watched) : t.stq = s.stq := by
  obtain ⟨-, rfl⟩ | ⟨-, u, hu, rfl⟩ := perform_next h
  · exact State.setAgenda_stq ..
  · exact (stq_of_watched (hnext u)).trans (exec_stq hrx hpop hu)

theorem runActivity_registerCall_stq (hcall : act.isRegisterCall = true) (h : runActivity a act s = .next t) :
    t.stq = s.stq := by
  cases act with
  | writeReg hc reg value =>
    simp only [runActivity] at h
    cases hw : s.cfg.regW <;> (rw [hw] at h; exact perform_stq h nofun nofun (by simp))
  | readReg hc reg => exact perform_stq h nofun nofun (by simp)
  | callSend hc call payload => exact perform_stq h nofun nofun (by simp)
  | callDrain call => exact perform_stq h nofun nofun (by simp)
  | callWait call waited => exact perform_stq h nofun (fun h2 => call.queue_ne_stq (Instr.qPop.inj h2)) (by simp)
  | request | rxService | serviceClose | serviceFail | serviceRecv | serviceRoute | streamPop | streamUnpack =>
    cases hcall

end Sys2Proof.Machine

section

open Sys2Proof Sys2Proof.Machine

/-- Settles O54: the loop by the answers of its two operations, register calls by who writes `STQ`. -/
theorem consumerUnpacksWhatItPops : Obligations.ConsumerUnpacksWhatItPops := by
  intro a turns later s hturns ready
  have hstq : ready.stq = s.stq := State.setAgenda_stq ..
  have hrxClosed : ready.rxClosed = s.rxClosed := State.setAgenda_rxClosed ..
  have hmove : ∀ {act}, s.agenda a = act :: later → step s = runActivity a act ready := step_runActivity hturns
  refine ⟨fun hagenda => ⟨fun cmd p es hentry => ?_, fun hnil hopen => ?_, fun hnil hclosed => ?_⟩,
    fun cmd p hagenda => ?_, fun act t hagenda hcall hstep => ?_⟩
  · have hexec : exec (.qPop 2) ready = .next (State.answered { ready with stq := es } (Reply.good (.command cmd p))) :=
      exec_qPop_stq_cons (hstq.trans hentry)
    rw [hmove hagenda, runActivity, perform_exec rfl hexec, streamPopped_command, State.goOn_of_exec hexec]
  · have hexec := exec_qPop_stq_nil (hstq.trans hnil)
    rw [emptyAnswer_open (hrxClosed.trans hopen)] at hexec
    rw [hmove hagenda, runActivity, perform_exec rfl hexec, streamPopped_empty, State.goOn_of_exec hexec]
  · have hexec := exec_qPop_stq_nil (hstq.trans hnil)
    rw [emptyAnswer_closed (hrxClosed.trans hclosed)] at hexec
    rw [hmove hagenda, runActivity, perform_exec rfl hexec, streamPopped_closed]
  · obtain ⟨r, hexec⟩ := exec_pure ready (i := .stUnpack cmd p) rfl nofun
    refine ⟨r, hexec, ?_⟩
    rw [hmove hagenda, runActivity, perform_exec rfl hexec, State.goOn_of_exec hexec]
  · rw [hmove hagenda] at hstep
    exact (runActivity_registerCall_stq hcall hstep).trans hstq

end
end

section
/-! SUPPORT. The wait of `write_reg` and `read_reg` (60_exceptions.md rules R286 to R288; log entry 17): what a call
does with each answer of `Q.POP`. -/

namespace Sys2Proof.Machine

variable {a : Agent} {call : Call} {waited : Nat} {s : State} {v : RetVal} {r : Reply}

theorem callPopped_matching (h : call.matching v = some r) :
    callPopped a call waited (s.answered (Reply.good v)) = (s.answered (Reply.good v)).endCall r := by
  simp only [callPopped, State.lastReply_answered, Reply.good, h]

theorem callPopped_other (h : call.matching v = none) :
    callPopped a call waited (s.answered (Reply.good v))
      = (s.answered (Reply.good v)).goOn a (.callWait call (if s.cfg.waitRestarts = true then 0 else waited)) := by
  simp only [callPopped, State.lastReply_answered, Reply.good, h]
  rfl

theorem callPopped_closed :
    callPopped a call waited (s.answered (Reply.bad .closed))
      = (s.answered (Reply.bad .closed)).endCall (Reply.bad .closed) := by
  simp only [callPopped, State.lastReply_answered, Reply.bad]

theorem callPopped_timeout (h : s.cfg.tWait ≤ waited) :
    callPopped a call waited (s.answered (Reply.bad .empty))
      = (s.answered (Reply.bad .empty)).endCall (Reply.bad .timeout) := by
  simp only [callPopped, State.lastReply_answered, Reply.bad]
  exact if_pos h

theorem callPopped_waits {d : Nat} {ds : List Nat} (h : waited < s.cfg.tWait) (helapsed : s.elapsed = d :: ds) :
    callPopped a call waited (s.answered (Reply.bad .empty))
      = (State.answered { s with elapsed := ds } (Reply.bad .empty)).goOn a (.callWait call (waited + d)) := by
  simp only [callPopped, State.lastReply_answered, Reply.bad]
  refine (if_neg (Nat.not_le.2 h)).trans ?_
  simp only [State.answered, helapsed]

theorem callPopped_stays (h : waited < s.cfg.tWait) (helapsed : s.elapsed = []) :
    callPopped a call waited (s.answered (Reply.bad .empty))
      = (s.answered (Reply.bad .empty)).goOn a (.callWait call waited) := by
  simp only [callPopped, State.lastReply_answered, Reply.bad]
  refine (if_neg (Nat.not_le.2 h)).trans ?_
  simp only [State.answered, helapsed]

end Sys2Proof.Machine

section

open Sys2Proof Sys2Proof.Machine

/-- Settles O60, by what the call does with each answer of its `Q.POP`; an empty queue alike for both calls. -/
theorem registerCallsWaitForTheirRegister : Obligations.RegisterCallsWaitForTheirRegister := by
  intro a turns later reg waited s hturns ready ends again budget onEmpty
  have hcfg : ready.cfg = s.cfg := State.setAgenda_cfg ..
  have hrdq : ready.rdq = s.rdq := State.setAgenda_rdq ..
  have hwaq : ready.waq = s.waq := State.setAgenda_waq ..
  have hrxClosed : ready.rxClosed = s.rxClosed := State.setAgenda_rxClosed ..
  have helapsed : ready.elapsed = s.elapsed := State.setAgenda_elapsed ..
  have hresults : ready.callResults = s.callResults := State.setAgenda_callResults ..
  have hpop : ∀ {call t}, s.agenda a = .callWait call waited :: later → exec (.qPop call.queue) ready = .next t →
      step s = .next (callPopped a call waited t) := fun hagenda hexec =>
    (step_runActivity hturns hagenda).trans (perform_exec rfl hexec)
  have hends : ∀ {u answer result}, u.callResults = s.callResults →
      step s = .next ((u.answered answer).endCall result) → ends u answer result := by
    intro u answer result hu hstep
    rw [State.endCall, show (u.answered answer).callResults = s.callResults from hu] at hstep
    exact hstep
  have hlater : ready.agenda a = later := State.setAgenda_agenda_same ..
  have hentry : ∀ {call u v}, s.agenda a = .callWait call waited :: later →
      exec (.qPop call.queue) ready = .next (u.answered (Reply.good v)) → u.cfg = s.cfg →
      u.callResults = s.callResults →
      (call.matching v = some (Reply.good v) → ends u (Reply.good v) (Reply.good v))
        ∧ (call.matching v = none → again u (Reply.good v) call budget) := by
    intro call u v hagenda hexec hcfg hresults
    have hstep := hpop hagenda hexec
    refine ⟨fun hmatch => hends hresults ?_, fun hmatch => ?_⟩
    · rw [hstep, callPopped_matching hmatch]
    · rw [callPopped_other hmatch, State.goOn_eq ((exec_agenda hexec a).trans hlater), hcfg] at hstep
      exact hstep
  have hnone : ∀ {call}, s.agenda a = .callWait call waited :: later →
      exec (.qPop call.queue) ready = .next (ready.answered (Reply.bad (emptyAnswer ready))) → onEmpty call := by
    intro call hagenda hexec
    have hstep := hpop hagenda hexec
    refine ⟨fun hclosed => hends hresults ?_, fun hopen hbudget => hends hresults ?_,
      fun d ds hopen hbudget hd => ?_, fun hopen hbudget hnil => ?_⟩
    · rw [hstep, emptyAnswer_closed (hrxClosed.trans hclosed), callPopped_closed]
    · rw [hstep, emptyAnswer_open (hrxClosed.trans hopen), callPopped_timeout (by rwa [hcfg])]
    · rw [emptyAnswer_open (hrxClosed.trans hopen), callPopped_waits (by rwa [hcfg]) (helapsed.trans hd),
        State.goOn_eq ((State.agenda_answered ..).trans ((State.agenda_elapsed ..).trans hlater))] at hstep
      exact hstep
    · rw [emptyAnswer_open (hrxClosed.trans hopen), callPopped_stays (by rwa [hcfg]) (helapsed.trans hnil),
        State.goOn_eq ((State.agenda_answered ..).trans hlater)] at hstep
      exact hstep
  refine ⟨fun hagenda => ⟨fun r value es hq => ?_, fun hnil => hnone hagenda (exec_qPop_rdq_nil (hrdq.trans hnil))⟩,
    fun hagenda => ⟨fun r es hq => ?_, fun hnil => hnone hagenda (exec_qPop_waq_nil (hwaq.trans hnil))⟩⟩
  · obtain ⟨hmatch, hother⟩ := hentry (u := { ready with rdq := es }) hagenda
      (exec_qPop_rdq_cons (hrdq.trans hq)) hcfg hresults
    exact ⟨fun h => hmatch (if_pos h), fun h => hother (if_neg h)⟩
  · obtain ⟨hmatch, hother⟩ := hentry (u := { ready with waq := es }) hagenda
      (exec_qPop_waq_cons (hwaq.trans hq)) hcfg hresults
    exact ⟨fun h => hmatch (if_pos h), fun h => hother (if_neg h)⟩

end
end

section
/-! SUPPORT. The sending part of `write_reg` and `read_reg` (60_exceptions.md rules R286 and R287; log entry 17): what a
move of an agent at each of its lines leaves. -/

namespace Sys2Proof.Machine

variable {s t : State} {b : Half} {i : Instr} {a : Agent} {act : Activity} {turns : List Turn} {later : List Activity}
  {hc : Bool} {call : Call} {payload : List Byte}

/-! Agendas and turns around an operation of the transmit half. -/

@[simp] theorem State.setAgenda_content (s : State) (a : Agent) (l : List Activity) (b : Half) :
    (s.setAgenda a l).content b = s.content b := by
  cases a <;> rfl

@[simp] theorem State.content_turns (s : State) (turns : List Turn) (b : Half) :
    State.content { s with turns := turns } b = s.content b := by
  cases b <;> rfl

theorem State.setAgenda_setAgenda (s : State) (a : Agent) (l l' : List Activity) :
    (s.setAgenda a l).setAgenda a l' = s.setAgenda a l' := by
  cases a <;> rfl

theorem State.inv_setAgenda : (s.setAgenda a later).Inv ↔ s.Inv :=
  ⟨fun h => h.congr (s.watched_setAgenda a later).symm, fun h => h.congr (s.watched_setAgenda a later)⟩

/-- What a transmit-half operation leaves is the agenda it found on a state that differs in the transmit half alone. -/
theorem WritesOnly.exists_setAgenda (h : WritesOnly .tx (s.setAgenda a later) t) :
    ∃ u, t = u.setAgenda a later ∧ WritesOnly .tx s u :=
  ⟨s.withOther .rx t, h.withOther_rx.symm.trans (by cases a <;> rfl), rfl⟩

theorem WritesOnly.setTurns (h : WritesOnly .tx s t) (turns : List Turn) :
    WritesOnly .tx { s with turns := turns } { t with turns := turns } := by
  rw [← h.withOther_rx]
  rfl

/-- What a register call shows of the state outside the transmit half. -/
theorem WritesOnly.tx_keeps (h : WritesOnly .tx s t) :
    t.turns = s.turns ∧ t.rdq = s.rdq ∧ t.waq = s.waq ∧ t.stq = s.stq ∧ t.callResults = s.callResults := by
  rw [← h.withOther_rx]
  exact ⟨rfl, rfl, rfl, rfl, rfl⟩

theorem OnlyBuffer.txPort (h : OnlyBuffer b s t) : t.txWrites = s.txWrites ∧ t.txStream = s.txStream := by
  rw [OnlyBuffer] at h
  rw [h]
  simp

theorem FailsUnchanged.txPort {f : Status} (h : FailsUnchanged b f s t) :
    t.txWrites = s.txWrites ∧ t.txStream = s.txStream := by
  obtain ⟨-, h⟩ := h
  rw [h]
  simp

theorem FailsUnchanged.txb {f : Status} (h : FailsUnchanged b f s t) : t.txb = s.txb := by
  obtain ⟨-, h⟩ := h
  rw [h]
  simp

theorem cobs_ne_nil (m : List Byte) : cobs m ≠ [] := by
  rw [← List.length_pos_iff, length_cobs]
  omega

/-- `FRM.SEND` with a payload that fits, in terms of `message`. -/
theorem exec_frmSend_fits {hv : Bool} {version command : Byte} (hs : s.Inv)
    (hfit : payload.length + frameOverhead hv hc ≤ s.cfg.capTx) :
    ∃ t, exec (.frmSend hv hc version command payload) s = .next t ∧ t.resTx.status = .ok
      ∧ t.content .tx = cobs (message s.cfg.crc hv hc version command payload)
      ∧ t.txWrites = s.txWrites ∧ t.txStream = s.txStream := by
  obtain ⟨-, hsend⟩ := sendBuildsTheFrame hv hc version command payload
  obtain ⟨t, ht, honly, hres, -, hcontent, -⟩ := (hsend s hs).2 hfit
  obtain ⟨hwrites, hstream⟩ := honly.txPort
  rw [← message_eq] at hcontent
  exact ⟨t, ht, by rw [hres], hcontent, by simpa using hwrites, by simpa using hstream⟩

/-! How a call takes the end of its operation. -/

theorem callPacked_bytes (a : Agent) (hc : Bool) (call : Call) (payload : List Byte) (s : State) :
    callPacked a hc call (s.answered (Reply.good (.bytes payload)))
      = (s.answered (Reply.good (.bytes payload))).goOn a (.callSend hc call payload) := by
  simp only [callPacked, State.lastReply_answered, Reply.good, callPayload]

theorem callStep_ok (h : t.resTx.status = .ok) (act : Activity) :
    callStep a act (t.setAgenda a later) = t.setAgenda a (act :: later) := by
  simp only [callStep, State.setAgenda_resTx, h, State.goOn, State.setAgenda_agenda_same, State.setAgenda_setAgenda]

theorem callStep_failed {f : Status} (h : t.resTx.status = f) (hf : f ≠ .ok) (act : Activity) :
    callStep a act (t.setAgenda a later) = (t.setAgenda a later).endCall (Reply.bad f) := by
  rw [callStep, State.setAgenda_resTx, h]
  split
  · contradiction
  · rfl

/-! The lines of a call. -/

/-- The first line packs the payload. -/
theorem step_callPacked (hturns : s.turns = .move a :: turns) (hagenda : s.agenda a = act :: later)
    (hw : ∀ u, waits i u = false)
    (hline : ∀ u : State, u.cfg = s.cfg → runActivity a act u = perform a act i u (callPacked a hc call))
    (hexec : ∀ u, exec i u = .next (u.answered (Reply.good (.bytes payload)))) :
    step s = .next (State.setAgenda (State.answered { s with turns := turns } (Reply.good (.bytes payload))) a
      (.callSend hc call payload :: later)) := by
  rw [step_runActivity hturns hagenda,
    hline (State.setAgenda { s with turns := turns } a later) (State.setAgenda_cfg ..), perform_exec (hw _) (hexec _),
    callPacked_bytes, State.goOn_of_exec (hexec _)]
  cases a <;> rfl

theorem step_callSend (hturns : s.turns = .move a :: turns)
    (h : exec (.frmSend true hc s.cfg.version call.command payload) (State.setAgenda { s with turns := turns } a later)
      = .next t) :
    step (s.setAgenda a (.callSend hc call payload :: later)) = .next (callStep a (.callDrain call) t) := by
  refine (step_setAgenda hturns).trans (perform_exec rfl ?_)
  rwa [State.setAgenda_cfg]

theorem step_callDrain (hturns : s.turns = .move a :: turns) (hw : s.txWrites ≠ [])
    (h : exec (.rbDrain .tx) (State.setAgenda { s with turns := turns } a later) = .next t) :
    step (s.setAgenda a (.callDrain call :: later)) = .next (callStep a (.callWait call 0) t) := by
  refine (step_setAgenda hturns).trans (perform_exec ?_ h)
  simp [waits, drainWaits, hw]

/-- A frame that does not fit ends the call. -/
theorem step_callSend_large (hs : s.Inv) (hturns : s.turns = .move a :: turns)
    (hlarge : s.cfg.capTx < payload.length + frameOverhead true hc) :
    ∃ t, step (s.setAgenda a (.callSend hc call payload :: later))
        = .next ((t.setAgenda a later).endCall (Reply.bad .payloadTooLarge))
      ∧ WritesOnly .tx { s with turns := turns } t
      ∧ t.txb = s.txb ∧ t.txWrites = s.txWrites ∧ t.txStream = s.txStream := by
  have hready : (State.setAgenda { s with turns := turns } a later).Inv := State.inv_setAgenda.2 (hs.congr rfl)
  obtain ⟨-, hsend⟩ := sendBuildsTheFrame true hc s.cfg.version call.command payload
  obtain ⟨u, hexec, hfails⟩ := (hsend _ hready).1 (by simpa using hlarge)
  obtain ⟨hwrites, hstream⟩ := hfails.txPort
  have htxb := hfails.txb
  obtain ⟨t, rfl, hframe⟩ := WritesOnly.exists_setAgenda (exec_staysIn _ rfl u hexec)
  obtain ⟨hstatus, -⟩ := hfails
  refine ⟨t, ?_, hframe, by simpa using htxb, by simpa using hwrites, by simpa using hstream⟩
  rw [step_callSend hturns hexec, callStep_failed (by simpa using hstatus) (by decide)]

/-- A frame that fits is in `TXB`, and is drained next. -/
theorem step_callSend_fits (hs : s.Inv) (hturns : s.turns = .move a :: turns)
    (hfit : payload.length + frameOverhead true hc ≤ s.cfg.capTx) :
    ∃ t, step (s.setAgenda a (.callSend hc call payload :: later)) = .next (t.setAgenda a (.callDrain call :: later))
      ∧ WritesOnly .tx { s with turns := turns } t
      ∧ t.content .tx = cobs (message s.cfg.crc true hc s.cfg.version call.command payload)
      ∧ t.txWrites = s.txWrites ∧ t.txStream = s.txStream := by
  have hready : (State.setAgenda { s with turns := turns } a later).Inv := State.inv_setAgenda.2 (hs.congr rfl)
  obtain ⟨u, hexec, hok, hcontent, hwrites, hstream⟩ := exec_frmSend_fits (version := s.cfg.version)
    (command := call.command) hready (by simpa using hfit)
  obtain ⟨t, rfl, hframe⟩ := WritesOnly.exists_setAgenda (exec_staysIn _ rfl u hexec)
  refine ⟨t, ?_, hframe, by simpa using hcontent, by simpa using hwrites, by simpa using hstream⟩
  rw [step_callSend hturns hexec, callStep_ok (by simpa using hok)]

theorem step_callDrain_completed {ws : List WriteOutcome} (hs : s.Inv) (hturns : s.turns = .move a :: turns)
    (hne : s.content .tx ≠ []) (hwrites : s.txWrites = .completed :: ws) :
    ∃ t, step (s.setAgenda a (.callDrain call :: later)) = .next (t.setAgenda a (.callWait call 0 :: later))
      ∧ WritesOnly .tx { s with turns := turns } t
      ∧ t.content .tx = [] ∧ t.txWrites = ws ∧ t.txStream = s.txStream ++ s.content .tx := by
  have hready : (State.setAgenda { s with turns := turns } a later).Inv := State.inv_setAgenda.2 (hs.congr rfl)
  obtain ⟨-, -, -, hdrain, -⟩ := drainWritesTheContent
  obtain ⟨u, hexec, honly, hres, hnil, -⟩ := hdrain _ ws hready (by simpa using hne) (by simpa using hwrites)
  obtain ⟨hrest, hstream⟩ := honly.txPort
  obtain ⟨t, rfl, hframe⟩ := WritesOnly.exists_setAgenda (exec_staysIn _ rfl u hexec)
  refine ⟨t, ?_, hframe, by simpa using hnil, by simpa using hrest, by simpa using hstream⟩
  rw [step_callDrain hturns (by simp [hwrites]) hexec, callStep_ok (by rw [← State.setAgenda_resTx, hres])]

theorem step_callDrain_failed {taken : Nat} {ws : List WriteOutcome} (hs : s.Inv) (hturns : s.turns = .move a :: turns)
    (hne : s.content .tx ≠ []) (hwrites : s.txWrites = .failed taken :: ws) :
    ∃ t, step (s.setAgenda a (.callDrain call :: later))
        = .next ((t.setAgenda a later).endCall (Reply.bad .transportFailure))
      ∧ WritesOnly .tx { s with turns := turns } t
      ∧ t.content .tx = (s.content .tx).drop taken ∧ t.txWrites = ws
      ∧ t.txStream = s.txStream ++ (s.content .tx).take taken := by
  have hready : (State.setAgenda { s with turns := turns } a later).Inv := State.inv_setAgenda.2 (hs.congr rfl)
  obtain ⟨-, -, -, -, hdrain⟩ := drainWritesTheContent
  obtain ⟨u, hexec, hu, hstatus, hdrop, -⟩ := hdrain _ taken ws hready (by simpa using hne) (by simpa using hwrites)
  have hrest : u.txWrites = ws := by rw [hu]
  have hstream := congrArg State.txStream hu
  obtain ⟨t, rfl, hframe⟩ := WritesOnly.exists_setAgenda (exec_staysIn _ rfl u hexec)
  refine ⟨t, ?_, hframe, by simpa using hdrop, by simpa using hrest, by simpa using hstream⟩
  rw [step_callDrain hturns (by simp [hwrites]) hexec, callStep_failed (by simpa using hstatus) (by decide)]

/-! The two lines behind the packer in a row, for a frame that fits. -/

section

variable (hs : s.Inv) (hturns : s.turns = .move a :: .move a :: turns)
  (hfit : payload.length + frameOverhead true hc ≤ s.cfg.capTx) {ws : List WriteOutcome}

include hs hturns hfit

theorem run_callSend_completed (hwrites : s.txWrites = .completed :: ws) :
    ∃ t, Host.Core.run core 2 (s.setAgenda a (.callSend hc call payload :: later))
        = .next (t.setAgenda a (.callWait call 0 :: later))
      ∧ WritesOnly .tx { s with turns := turns } t
      ∧ t.content .tx = [] ∧ t.txWrites = ws
      ∧ t.txStream = s.txStream ++ cobs (message s.cfg.crc true hc s.cfg.version call.command payload) := by
  obtain ⟨u, hsend, hu, hcobs, hw, hstream⟩ := step_callSend_fits (later := later) (call := call) hs hturns hfit
  have huInv : u.Inv := State.inv_setAgenda.1 (step_keepsInv (State.inv_setAgenda.2 hs) hsend)
  obtain ⟨huturns, -⟩ := hu.tx_keeps
  obtain ⟨t, hdrain, ht, hnil, hrest, hwritten⟩ :=
    step_callDrain_completed (later := later) (call := call) huInv huturns (hcobs ▸ cobs_ne_nil _) (hw.trans hwrites)
  refine ⟨t, (run_succ 1 hsend).trans (run_succ 0 hdrain), (hu.setTurns turns).trans ht, hnil, hrest, ?_⟩
  rw [hwritten, hstream, hcobs]

theorem run_callSend_failed {taken : Nat} (hwrites : s.txWrites = .failed taken :: ws) :
    ∃ t, Host.Core.run core 2 (s.setAgenda a (.callSend hc call payload :: later))
        = .next ((t.setAgenda a later).endCall (Reply.bad .transportFailure))
      ∧ WritesOnly .tx { s with turns := turns } t
      ∧ t.content .tx = (cobs (message s.cfg.crc true hc s.cfg.version call.command payload)).drop taken
      ∧ t.txWrites = ws
      ∧ t.txStream
        = s.txStream ++ (cobs (message s.cfg.crc true hc s.cfg.version call.command payload)).take taken := by
  obtain ⟨u, hsend, hu, hcobs, hw, hstream⟩ := step_callSend_fits (later := later) (call := call) hs hturns hfit
  have huInv : u.Inv := State.inv_setAgenda.1 (step_keepsInv (State.inv_setAgenda.2 hs) hsend)
  obtain ⟨huturns, -⟩ := hu.tx_keeps
  obtain ⟨t, hdrain, ht, hdrop, hrest, hwritten⟩ :=
    step_callDrain_failed (later := later) (call := call) huInv huturns (hcobs ▸ cobs_ne_nil _) (hw.trans hwrites)
  rw [hcobs] at hdrop
  refine ⟨t, (run_succ 1 hsend).trans (run_succ 0 hdrain), (hu.setTurns turns).trans ht, hdrop, hrest, ?_⟩
  rw [hwritten, hstream, hcobs]

end

end Sys2Proof.Machine

section

open Sys2Proof Sys2Proof.Machine

/-- Settles O59: the packer's answer is the payload of the frame, and behind it stand the two lines of the transmit
half, in each of their courses. -/
theorem registerCallsTransmitTheirRequest : Obligations.RegisterCallsTransmitTheirRequest := by
  intro hc reg value a turns later s hs hturns sends
  have hsends : ∀ {call payload},
      step s = .next (State.setAgenda (State.answered { s with turns := .move a :: .move a :: turns }
        (Reply.good (.bytes payload))) a (.callSend hc call payload :: later)) → sends call.command payload call := by
    intro call payload hpacked
    have hpackedInv : (State.answered { s with turns := .move a :: .move a :: turns }
      (Reply.good (.bytes payload))).Inv := hs.congr rfl
    refine ⟨fun hfit => ⟨fun ws hwrites => ?_, fun taken ws hwrites => ?_⟩, fun hlarge => ?_⟩
    · obtain ⟨t, hrun, hframe, hnil, hrest, hstream⟩ := run_callSend_completed (later := later) (call := call)
        hpackedInv rfl hfit hwrites
      obtain ⟨htturns, hrdq, hwaq, hstq, hresults⟩ := hframe.tx_keeps
      refine ⟨_, (run_succ 2 hpacked).trans hrun, ?_⟩
      cases a <;> exact ⟨hstream, hnil, rfl, htturns, hrest, ⟨hrdq, hwaq, hstq⟩, hresults⟩
    · obtain ⟨t, hrun, hframe, hdrop, hrest, hstream⟩ := run_callSend_failed (later := later) (call := call)
        hpackedInv rfl hfit hwrites
      obtain ⟨htturns, hrdq, hwaq, hstq, hresults⟩ := hframe.tx_keeps
      refine ⟨_, (run_succ 2 hpacked).trans hrun, ?_⟩
      cases a <;> exact ⟨hstream, hdrop, rfl, htturns, hrest, ⟨hrdq, hwaq, hstq⟩, congrArg (· ++ _) hresults⟩
    · obtain ⟨t, hsend, hframe, htxb, hrest, hstream⟩ := step_callSend_large (later := later) (call := call)
        hpackedInv rfl hlarge
      obtain ⟨htturns, hrdq, hwaq, hstq, hresults⟩ := hframe.tx_keeps
      refine ⟨_, (run_succ 1 hpacked).trans (run_succ 0 hsend), ?_⟩
      cases a <;> exact ⟨hstream, htxb, rfl, htturns, hrest, ⟨hrdq, hwaq, hstq⟩, congrArg (· ++ _) hresults⟩
  refine ⟨fun hagenda => hsends (call := .read reg) (payload := readReqPayload reg) ?_,
    fun hagenda hw => hsends (call := .write reg) (payload := write8Payload reg (value.extractLsb' 0 8)) ?_,
    fun hagenda hw => hsends (call := .write reg) (payload := write32Payload reg value) ?_⟩
  · exact step_callPacked hturns hagenda (fun _ => rfl) (fun _ _ => rfl) fun _ => rfl
  · exact step_callPacked hturns hagenda (fun _ => rfl) (fun u hu => by rw [runActivity, hu, hw, writePacker])
      fun _ => rfl
  · exact step_callPacked hturns hagenda (fun _ => rfl) (fun u hu => by rw [runActivity, hu, hw, writePacker])
      fun _ => rfl

end
end

section
/-! SUPPORT. The reset event (70_reset_and_hazards.md rules R300 and R301; log entries 8 and 20): the heads it draws, and
what of the environment it leaves. -/

namespace Sys2Proof.Machine

theorem State.cap_pos (s : State) (b : Half) : 0 < s.cap b := by
  obtain ⟨htx, hrx⟩ := three_le_capacities s.cfg
  cases b
  · exact Nat.zero_lt_of_lt htx
  · exact Nat.zero_lt_of_lt hrx

/-- A drawn head is below the capacity in every state, within the invariant or not: either draw is reduced by it. -/
theorem State.drawnHead_lt_cap (s : State) (b : Half) : s.drawnHead b < s.cap b := by
  rw [State.drawnHead]
  split
  · exact Nat.mod_lt _ (s.cap_pos b)
  · exact Nat.mod_lt _ (s.cap_pos b)

/-- The reset event without its draws: they touch nothing of the environment but the draws and free values left. -/
theorem resetEvent_eq (s : State) :
    resetEvent s = { State.resetWith s.cfg (s.drawnHead .tx) (s.drawnHead .rx) with
      rxReads := s.rxReads, txWrites := s.txWrites, txStream := s.txStream, replies := s.replies,
      client := s.client, receiver := s.receiver, consumer := s.consumer, turns := s.turns,
      elapsed := s.elapsed, callResults := s.callResults,
      drawsTx := (resetEvent s).drawsTx, drawsRx := (resetEvent s).drawsRx,
      freeTx := (resetEvent s).freeTx, freeRx := (resetEvent s).freeRx } := by
  simp [resetEvent]

end Sys2Proof.Machine

section

open Sys2Proof Sys2Proof.Machine

/-- Settles O11: the turn is the reset event, and the heads are its two draws. -/
theorem resetEventRestoresTheBlock : Obligations.ResetEventRestoresTheBlock := by
  intro s turns hturns
  exact ⟨_, _, _, step_reset hturns, State.drawnHead_lt_cap _ .tx, State.drawnHead_lt_cap _ .rx, resetEvent_eq _⟩

end
end
